-- ==== Sys2Proof/Word.lean ====
section
/-! DEFINITION. The word types of SVB64-CORE (00_scope.md R12, R15; 10_state.md R102; 30_encoding.md R300). -/

namespace Sys2Proof

/-- A byte is 8 bits (R15). -/
abbrev Byte := BitVec 8

/-- A 64-bit register value, address, count or length (R12). -/
abbrev Word := BitVec 64

/-- The 32-bit command word written to CMD (R300). -/
abbrev CmdWord := BitVec 32

/-- A 2-bit tag (R11, glossary). -/
abbrev Tag := BitVec 2

/-- One past the highest address: ADDR_W = 64 (R12). -/
def addrSpace : Nat := 2 ^ 64

end Sys2Proof
end

