-- ==== Sys2Proof/Config.lean ====
section
/-! DEFINITION. What a platform fixes (the open parameters of 00_scope.md R14) and the free values of the spec, its
draws (R20). The parameters are one plain record, so that a launch can name them (95_test_vectors.md L3 does); the
record of the machine after reset is an opaque constant, so that no proof can see a choice of them. -/

namespace Sys2Proof

/-- V1248_GRAN: the granularity the vector engine uses for V1248 (R14, 43_vector_decoder.md R561). -/
inductive Granularity where
  | full
  | half
deriving DecidableEq, Repr, Inhabited

/-- The open parameters of R14. INSTANCES is at least 1, so instance 0's base stands by itself. -/
structure Platform where
  /-- VEC_CAP (R13): the lane-parallel byte-permute engine is present. -/
  vecCap : Bool
  /-- V1248_GRAN (R561). -/
  gran : Granularity
  /-- REG_BASE(0) (20_memory.md R213). -/
  regBase0 : Word
  /-- REG_BASE(1), REG_BASE(2), …: one for each further instance (60_exceptions.md R731). -/
  moreBases : List Word
  /-- Where memory exists, as half-open address ranges: Backed before the register blocks are taken out (20_memory.md R206). -/
  ram : List (Nat × Nat)
deriving DecidableEq, Repr, Inhabited

/-- The parameters of the machine after reset. The spec leaves them open (R14), so nothing is known of them. -/
opaque Config.platform : Platform

/-- The draw of a byte (R20): the value the `i`-th draw gives a byte of an output region (60_exceptions.md R703). -/
opaque Config.drawByte : Nat → Byte

/-- The draw of a choice (R20): which of several errors or fault reasons is reported (60_exceptions.md R702). -/
opaque Config.drawIndex : Nat → Nat

end Sys2Proof
end

