-- ==== Sys2Proof/Syntax.lean ====
section
/-! DEFINITION. The commands (30_encoding.md R303, spec/opcode_table.json), the registers by name (10_state.md R102) and
the actions of a host (30_encoding.md R340, 70_reset_and_hazards.md R819). -/

namespace Sys2Proof

/-- The three variants (00_scope.md R2). VAR = 3 names no variant (R302), so no term stands for it. -/
inductive Variant where
  | v1234
  | v0124
  | v1248
deriving DecidableEq, Repr, Inhabited

/-- The 13 commands, in the order of spec/opcode_table.json. Every command word names its variant (R302). All other operands
are registers of the instance (10_state.md R103, R104), not fields of the word. -/
inductive Instr where
  | tagFor (v : Variant)
  | byteLen (v : Variant)
  | packCtrl (v : Variant)
  | unpackCtrl (v : Variant)
  | encode (v : Variant)
  | decode (v : Variant)
  | decodeScalar (v : Variant)
  | decodeVector (v : Variant)
  | shufEntry (v : Variant)
  | encodeDeltas (v : Variant)
  | decodeDeltas (v : Variant)
  | skipDeltas (v : Variant)
  | dataLen (v : Variant)
deriving DecidableEq, Repr

/-- The argument registers (R103) and region registers (R104): those a host writes and a command reads. -/
inductive ArgReg where
  | n
  | seed
  | arg0
  | ctrlBase
  | ctrlLen
  | dataBase
  | dataLen
  | valBase
  | valLen
deriving DecidableEq, Repr

/-- The result registers (R105). -/
inductive ResReg where
  | resCtrl
  | resData
  | resVal
  | resDesc0
  | resDesc1
  | resDesc2
  | resDesc3
deriving DecidableEq, Repr

/-- The registers of an instance's block (R102). -/
inductive Reg where
  | cmd
  | status
  | caps
  | strategy
  | arg (r : ArgReg)
  | res (r : ResReg)
deriving DecidableEq, Repr

/-- One action of a host (R340, R819). Registers are named by instance and offset in its block (R102), so that an access to a
reserved offset (R101) can be written down. One action is one write or one read, as R819's table lists them, so that a line of
R340 with several writes (a SET of several registers, a mnemonic with operands) is several actions, one turn and one step of the
position index each (DESIGN CHOICE, notes/assumptions/18.md; R340 calls such a line one host action). -/
inductive HostAction where
  /-- A write of a 32-bit word to CMD of instance `k`: the one way to start a command (10_state.md R107). -/
  | writeCmd (k : Nat) (w : CmdWord)
  /-- A write of a 64-bit value to the register at offset `off` of instance `k`. -/
  | writeReg (k : Nat) (off : Nat) (v : Word)
  /-- A read of the register at offset `off` of instance `k`, recorded as an observation. -/
  | readReg (k : Nat) (off : Nat)
  /-- A write of bytes to host memory from address `a` upwards. -/
  | writeMem (a : Word) (bytes : List Byte)
  /-- A read of `len` bytes of host memory from address `a` upwards, recorded as an observation. -/
  | readMem (a : Word) (len : Nat)
deriving DecidableEq, Repr

end Sys2Proof
end

