-- ==== Sys2Proof/Machine/State.lean ====
section
/-! DEFINITION. The state of SVB64-CORE (10_state.md), the reasons a step stops, and the state after reset
(70_reset_and_hazards.md R800). The ROMs (R120 to R124) are constants and stand in Machine/TagTable.lean and
Machine/ShuffleTable.lean; CAPS is hardwired (R109) and is computed where registers are read (Machine/HostPort.lean). -/

namespace Sys2Proof.Machine

/-- A 64-bit argument or result register with its written bit WR (R102, R106). While `wr` is false no rule reads `val`. -/
structure Reg64 where
  val : Word
  wr : Bool
deriving DecidableEq, Repr

/-- The register block of one instance (R102). -/
structure Block where
  /-- CMD: the last command word written (R107). -/
  cmd : CmdWord
  /-- STATUS: the only condition code (R108). -/
  status : BitVec 8
  /-- STRATEGY: bit 0 is latched from CAPS[0] at reset (R111). -/
  strategy : Word
  /-- N: the element count (R103). -/
  n : Reg64
  /-- SEED: the delta baseline (R103). -/
  seed : Reg64
  /-- ARG0: the scalar operand (R103). -/
  arg0 : Reg64
  /-- The six region registers (R104). -/
  ctrlBase : Reg64
  ctrlLen : Reg64
  dataBase : Reg64
  dataLen : Reg64
  valBase : Reg64
  valLen : Reg64
  /-- The result registers (R105). -/
  resCtrl : Reg64
  resData : Reg64
  resVal : Reg64
  resDesc0 : Reg64
  resDesc1 : Reg64
  resDesc2 : Reg64
  resDesc3 : Reg64
deriving DecidableEq, Repr

/-- The reasons of a model fault, and no others (60_exceptions.md R710). -/
inductive UB where
  /-- A command or a host reads an argument register with WR = 0 (R106). -/
  | unwrittenArgument
  /-- A host reads a result register with WR = 0 (R106). -/
  | unwrittenResult
  /-- A host accesses an unlisted offset, or writes a read-only register (R101). -/
  | reservedRegister
  /-- VAL_BASE is not a multiple of B(v) (20_memory.md R205). -/
  | misalignedValues
  /-- A region runs past the end of the address space (R207). -/
  | regionWrap
  /-- An output region shares a byte with another region of the command (R208). -/
  | overlap
  /-- ENCODE_DELTAS input below its seed, or decreasing (45_delta.md R605). -/
  | nonMonotone
  /-- A running sum reaches 2^W (R605). -/
  | prefixOverflow
  /-- A DATA_LEN total does not fit 64 bits (46_length_scanner.md R651). -/
  | lengthOverflow
deriving DecidableEq, Repr

/-- What a host read gives back (30_encoding.md R340, 70_reset_and_hazards.md R819). -/
inductive Observation where
  /-- The value of the register at offset `off` of instance `k`. -/
  | reg (k : Nat) (off : Nat) (v : Word)
  /-- The bytes of host memory from address `a` upwards. -/
  | bytes (a : Word) (bs : List Byte)
deriving DecidableEq, Repr

/-- A host (R100): its finite program, the position index p of its next action (R110), and what it has observed, oldest
first (R340). -/
structure HostProgram where
  program : List HostAction
  p : Nat
  observed : List Observation
deriving DecidableEq, Repr

/-- Host memory MEM (R126) as cells in one canonical form (`Memory.wf`, Machine/Ops.lean). -/
abbrev Memory := List Host.Cell

/-- The machine: the instances of a platform, the memory they share, and the hosts that drive them. -/
structure State where
  /-- The open parameters of this run (R14). No step changes them. -/
  platform : Platform
  /-- The register blocks of the instances numbered below the selected one, in order (60_exceptions.md R731). -/
  below : List Block
  /-- The register block of the selected instance: the one the last register access named. -/
  blk : Block
  /-- The register blocks of the instances numbered above the selected one, in order. -/
  above : List Block
  /-- Host memory, shared by all (R126). -/
  mem : Memory
  /-- FAULT: none, or the reason of the first model fault (R128). -/
  fault : Option UB
  /-- The hosts, each with its program (R820). -/
  hosts : List HostProgram
  /-- Which host takes each of the coming actions, first to last: the interleaving of the agents (20_memory.md R221). -/
  turns : List Nat
  /-- The model's own: how many draws have been taken (R20). -/
  draws : Nat
deriving DecidableEq, Repr

/-- Why a step stops with a fault. -/
inductive Fault where
  /-- FAULT is set: no agent takes a step (R128, R710). Raised by every step of such a machine, and by no command: a model fault
  itself is a next state, the one with FAULT set (`modelFault`, Machine/Ops.lean). Safe: the spec gives no step here. -/
  | faulted (reason : UB)
  /-- The command has no step (R712): a region it uses has a byte outside Backed (20_memory.md R206). The state stays as it
  was before the CMD write. Raised by the commands that use regions. Safe: the model stops. -/
  | stuck
  /-- A host's own read or write of memory names a byte outside Backed, which does not exist (R126). Raised by a host's memory
  action. Safe: the model stops. -/
  | hostUnbacked
deriving DecidableEq, Repr

/-- Why a step is refused. -/
inductive Refusal where
  /-- A command with no meaning yet. Raised by no arm. Safe. -/
  | notModelled (mnemonic : String)
  /-- The host's program holds what is no action of the spec (`HostAction.wellFormed`): it names an instance that does not
  exist, or writes CMD at another width than its own (R101). Raised by `step`. Safe: no host can do it. -/
  | illFormedAction
deriving DecidableEq, Repr

/-- A register that holds no value yet (R106). Its `val` is 0; the spec chooses none and no rule reads it
(DESIGN CHOICE, notes/assumptions/1.md). -/
def Reg64.unwritten : Reg64 := ⟨0, false⟩

/-- The register block after reset (R102, R800); STRATEGY[0] is latched from VEC_CAP (R111). -/
def Block.reset (vecCap : Bool) : Block where
  cmd := 0
  status := 0
  strategy := if vecCap then 1 else 0
  n := .unwritten
  seed := .unwritten
  arg0 := .unwritten
  ctrlBase := .unwritten
  ctrlLen := .unwritten
  dataBase := .unwritten
  dataLen := .unwritten
  valBase := .unwritten
  valLen := .unwritten
  resCtrl := .unwritten
  resData := .unwritten
  resVal := .unwritten
  resDesc0 := .unwritten
  resDesc1 := .unwritten
  resDesc2 := .unwritten
  resDesc3 := .unwritten

/-- The start of a run (R800, R820) on a given platform, with given memory contents, host programs and interleaving. -/
def State.launch (P : Platform) (mem : Memory) (programs : List (List HostAction)) (turns : List Nat) : State where
  platform := P
  below := []
  blk := Block.reset P.vecCap
  above := P.moreBases.map fun _ => Block.reset P.vecCap
  mem := mem
  fault := none
  hosts := programs.map fun acts => ⟨acts, 0, []⟩
  turns := turns
  draws := 0

/-- The machine right after reset (R800): every instance reset, no memory cell set, no host program yet. -/
def State.reset : State := State.launch Config.platform [] [] []

end Sys2Proof.Machine
end

