-- ==== Sys2Proof/Machine/Flags.lean ====
section
/-! DEFINITION. STATUS, the block's only condition code (10_state.md R108, 60_exceptions.md R700), and the sets of errors a
command collects (R702). -/

namespace Sys2Proof.Machine

/-- The status codes (R700). -/
inductive Status where
  | ok
  | bufferTooSmall
  | truncatedInput
  | overflow
  /-- Never written to STATUS (R701). -/
  | capabilityMismatch
  | invalidCommand
deriving DecidableEq, Repr

/-- The number of a status (R700). -/
def Status.code : Status → BitVec 8
  | .ok => 0
  | .bufferTooSmall => 1
  | .truncatedInput => 2
  | .overflow => 3
  | .capabilityMismatch => 4
  | .invalidCommand => 5

/-- The codes STATUS takes: those of R700 but for CapabilityMismatch, which is never written (R701). -/
def statusLegal (x : BitVec 8) : Bool := x == 0 || x == 1 || x == 2 || x == 3 || x == 5

/-- `E <- E + {e}` when `c` holds: an error set is a list with no repeats (R702). -/
def errIf (c : Bool) (e : Status) (E : List Status) : List Status :=
  if c && !E.contains e then e :: E else E

/-- One member of the non-empty set `a :: more`, the one the draw `d` names (R702). -/
def pick {α : Type} (a : α) (more : List α) (d : Nat) : α :=
  match more with
  | [] => a
  | b :: rest => (a :: b :: rest).getD (d % (rest.length + 2)) a

end Sys2Proof.Machine
end

