-- ==== Sys2Proof/Machine/Ops.lean ====
section
/-! DEFINITION. The named operations over bytes, memory, registers and instances; the two ends of a command, STATUS = OK and a
reported error (60_exceptions.md R703); and the model fault (R710). The block has no trap, so a reported error is all there is
of taking an exception, and there is no return from one (R721, R722). -/

namespace Sys2Proof.Machine

/-! ### Byte order -/

/-- The little-endian number a byte sequence spells (00_scope.md R18). -/
def leNat : List Byte → Nat
  | [] => 0
  | b :: bs => b.toNat + 256 * leNat bs

/-- LE_k(x): the k-byte little-endian sequence of x, for x < 2^(8k) (R20). -/
def leBytes : Nat → Nat → List Byte
  | 0, _ => []
  | k + 1, x => BitVec.ofNat 8 x :: leBytes k (x / 256)

/-! ### Host memory -/

/-- What an address that no cell lists reads as: 0 (DESIGN CHOICE, notes/assumptions/2.md; the spec leaves the contents at the
start of a run to the launch, 70_reset_and_hazards.md R800). -/
def Memory.unlisted : Byte := 0

/-- One byte of memory (10_state.md R126). -/
def Memory.read : Memory → Nat → Byte
  | [], _ => Memory.unlisted
  | c :: m, a => if c.1 = a then c.2 else Memory.read m a

/-- Put a byte at the head of the cells above it, unless it is what an unlisted address reads as. -/
def Memory.cons (a : Nat) (b : Byte) (m : Memory) : Memory :=
  if b = Memory.unlisted then m else (a, b) :: m

/-- Store one byte, keeping the canonical form. -/
def Memory.write : Memory → Nat → Byte → Memory
  | [], a, b => Memory.cons a b []
  | c :: m, a, b =>
    if c.1 < a then c :: Memory.write m a b
    else if c.1 = a then Memory.cons a b m
    else Memory.cons a b (c :: m)

/-- The canonical form: addresses strictly rising, and no cell equal to what an unlisted address reads as. -/
def Memory.wf : Memory → Bool
  | [] => true
  | c :: m => c.2 != Memory.unlisted && m.all (fun d => c.1 < d.1) && Memory.wf m

/-- MemBytes(a, k) (00_scope.md R18). -/
def Memory.bytes (m : Memory) (a k : Nat) : List Byte := (List.range k).map fun j => m.read (a + j)

/-- MemRead(a, k) (R18). -/
def Memory.readLE (m : Memory) (a k : Nat) : Nat := leNat (m.bytes a k)

/-- Store a byte sequence from address `a` upwards. -/
def Memory.writeBytes : Memory → Nat → List Byte → Memory
  | m, _, [] => m
  | m, a, b :: bs => Memory.writeBytes (m.write a b) (a + 1) bs

/-! ### Backed addresses -/

/-- An address of some instance's register block: the 0xA0 bytes from REG_BASE(k) (20_memory.md R213). A block whose base lies
less than 0xA0 below 2^64 is counted without wrapping to address 0 (DESIGN CHOICE, notes/assumptions/17.md; the spec does not
say where such a block's last bytes lie). -/
def inRegBlock (P : Platform) (a : Nat) : Bool :=
  (P.regBase0 :: P.moreBases).any fun base => base.toNat ≤ a && a < base.toNat + 0xA0

/-- Backed: the 64-bit addresses where memory exists. No register block is among them (R206, R213). -/
def backed (P : Platform) (a : Nat) : Bool :=
  a < addrSpace && P.ram.any (fun r => r.1 ≤ a && a < r.2) && !inRegBlock P a

/-- Every one of the `k` bytes from `a` upwards is in Backed. -/
def allBacked (P : Platform) (a k : Nat) : Bool := (List.range k).all fun j => backed P (a + j)

/-! ### Registers -/

/-- CAPS, hardwired: bit 0 is VEC_CAP (10_state.md R109). One value for every instance (60_exceptions.md R731). -/
def capsValue (P : Platform) : Word := if P.vecCap then 1 else 0

/-- A register that holds `v`: every write sets WR (R106). -/
def Reg64.written (v : Word) : Reg64 := ⟨v, true⟩

/-- The argument register a name stands for (R103, R104). -/
def Block.arg (b : Block) : ArgReg → Reg64
  | .n => b.n
  | .seed => b.seed
  | .arg0 => b.arg0
  | .ctrlBase => b.ctrlBase
  | .ctrlLen => b.ctrlLen
  | .dataBase => b.dataBase
  | .dataLen => b.dataLen
  | .valBase => b.valBase
  | .valLen => b.valLen

/-- A host's write of an argument register (R103, R106). -/
def Block.writeArg (b : Block) (r : ArgReg) (v : Word) : Block :=
  match r with
  | .n => { b with n := .written v }
  | .seed => { b with seed := .written v }
  | .arg0 => { b with arg0 := .written v }
  | .ctrlBase => { b with ctrlBase := .written v }
  | .ctrlLen => { b with ctrlLen := .written v }
  | .dataBase => { b with dataBase := .written v }
  | .dataLen => { b with dataLen := .written v }
  | .valBase => { b with valBase := .written v }
  | .valLen => { b with valLen := .written v }

/-- The result register a name stands for (R105). -/
def Block.res (b : Block) : ResReg → Reg64
  | .resCtrl => b.resCtrl
  | .resData => b.resData
  | .resVal => b.resVal
  | .resDesc0 => b.resDesc0
  | .resDesc1 => b.resDesc1
  | .resDesc2 => b.resDesc2
  | .resDesc3 => b.resDesc3

/-- A command's write of a result register (R105, R106). -/
def Block.writeRes (b : Block) (r : ResReg) (v : Word) : Block :=
  match r with
  | .resCtrl => { b with resCtrl := .written v }
  | .resData => { b with resData := .written v }
  | .resVal => { b with resVal := .written v }
  | .resDesc0 => { b with resDesc0 := .written v }
  | .resDesc1 => { b with resDesc1 := .written v }
  | .resDesc2 => { b with resDesc2 := .written v }
  | .resDesc3 => { b with resDesc3 := .written v }

/-- The writes of a command's results, first to last. Every result is below 2^64. -/
def Block.writeResults (b : Block) : List (ResReg × Nat) → Block
  | [] => b
  | r :: rs => (b.writeRes r.1 (BitVec.ofNat 64 r.2)).writeResults rs

/-- Clear a WR bit: the register becomes unwritten (R106). -/
def Reg64.clear (r : Reg64) : Reg64 := { r with wr := false }

/-- Every result register becomes unwritten (60_exceptions.md R703). -/
def Block.clearResults (b : Block) : Block :=
  { b with
    resCtrl := b.resCtrl.clear
    resData := b.resData.clear
    resVal := b.resVal.clear
    resDesc0 := b.resDesc0.clear
    resDesc1 := b.resDesc1.clear
    resDesc2 := b.resDesc2.clear
    resDesc3 := b.resDesc3.clear }

/-- The block's write of STATUS, at the end of a command (R108). -/
def Block.setStatus (b : Block) (x : BitVec 8) : Block := { b with status := x }

/-- A host's write of CMD stores the word (R107). -/
def Block.setCmd (b : Block) (w : CmdWord) : Block := { b with cmd := w }

/-- The value of an argument register of the selected instance, as a natural (00_scope.md R16). -/
def State.argVal (s : State) (r : ArgReg) : Nat := (s.blk.arg r).val.toNat

/-! ### Instances -/

/-- INSTANCES (R731). -/
def State.instances (s : State) : Nat := s.below.length + s.above.length + 1

/-- The number of the selected instance. -/
def State.selected (s : State) : Nat := s.below.length

/-- Every instance's register block, in order of instance number. -/
def State.blocks (s : State) : List Block := s.below ++ s.blk :: s.above

/-- Select instance `k`, changing no register; a number that names no instance selects nothing. -/
def State.select (s : State) (k : Nat) : State :=
  match s.blocks.drop k with
  | [] => s
  | b :: rest => { s with below := s.blocks.take k, blk := b, above := rest }

/-- A host's write of the word `w` to CMD of the selected instance stores it (R107). -/
def State.storeCmd (s : State) (w : CmdWord) : State := { s with blk := s.blk.setCmd w }

/-! ### Regions -/

/-- A region as a command uses it (R104): its bytes, whether it is an output, and the alignment its base must have. -/
structure RegionUse where
  base : Nat
  size : Nat
  output : Bool
  align : Nat
deriving DecidableEq, Repr

/-- Whether two regions share a byte; a region of size 0 shares none (20_memory.md R208). -/
def RegionUse.meets (u w : RegionUse) : Bool :=
  0 < u.size && 0 < w.size && u.base < w.base + w.size && w.base < u.base + u.size

/-- A region that runs past the end of the address space (R207). -/
def RegionUse.wraps (u : RegionUse) : Bool := u.base + u.size > addrSpace

/-- A region whose base is not aligned (R205). -/
def RegionUse.misaligned (u : RegionUse) : Bool := u.base % u.align ≠ 0

/-- Some output region shares a byte with another region of the command (R208). -/
def regionsOverlap : List RegionUse → Bool
  | [] => false
  | u :: us => us.any (fun w => (u.output || w.output) && u.meets w) || regionsOverlap us

/-! ### The ends of a command -/

/-- The end with STATUS = OK (10_state.md R105, R108): the command's results are written, its memory writes have been made. -/
def State.complete (s : State) (results : List (ResReg × Nat)) (mem : Memory) : State :=
  { s with blk := (s.blk.writeResults results).setStatus Status.ok.code, mem := mem }

/-- Each byte of each output region takes a draw, the first of them draw number `d` (60_exceptions.md R703). -/
def drawOutputs : List RegionUse → Nat → Memory → Memory
  | [], _, m => m
  | u :: us, d, m =>
    if u.output then
      drawOutputs us (d + u.size)
        (m.writeBytes u.base ((List.range u.size).map fun j => Config.drawByte (d + j)))
    else drawOutputs us d m

/-- How many bytes the output regions have together. -/
def outputBytes (uses : List RegionUse) : Nat := ((uses.filter (·.output)).map (·.size)).sum

/-- `raise Status(e)` in a command that uses the regions `uses` (R703): STATUS holds the code, every result register is
unwritten, every byte of the output regions is a draw, and nothing else changes. -/
def State.raise (s : State) (e : Status) (uses : List RegionUse) : State :=
  { s with
    blk := s.blk.clearResults.setStatus e.code
    mem := drawOutputs uses (s.draws + 1) s.mem
    draws := s.draws + 1 + outputBytes uses }

/-- FAULT takes a reason, unless it holds one already (R128, R710). -/
def State.setFault (s : State) (r : UB) : State := { s with fault := s.fault.or (some r) }

/-- `fault UB(reason)` (R710): the machine enters the faulted state of 00_scope.md R19. FAULT takes the reason, and no register
and no memory is written. The step after it is where the machine stands still (`stepWith`, Machine/HostPort.lean). -/
def modelFault (r : UB) (s : State) : Host.Outcome State Fault Refusal := .next (s.setFault r)

end Sys2Proof.Machine
end

