-- ==== Sys2Proof/Machine/TagTable.lean ====
section
/-! DEFINITION. The parameters of a variant, the LEN table and the functions of the tag table (00_scope.md R2, 10_state.md R120,
40_tagtable.md section 1). -/

namespace Sys2Proof.Machine

/-- The ordered length list of a variant (R2): the LEN table (R120). -/
def lens : Variant → List Nat
  | .v1234 => [1, 2, 3, 4]
  | .v0124 => [0, 1, 2, 4]
  | .v1248 => [1, 2, 4, 8]

/-- ByteLen(v, t) = LEN[v][t] (R404). -/
def tagLen (v : Variant) (t : Tag) : Nat := (lens v).getD t.toNat 0

/-- B(v): the bytes of an element, the largest length (R2, R3). -/
def elemBytes : Variant → Nat
  | .v1234 => 4
  | .v0124 => 4
  | .v1248 => 8

/-- W(v): the bits of an element (R2, R3). -/
def elemBits (v : Variant) : Nat := 8 * elemBytes v

/-- x ≥ 2^W(v): the width checks of R410 and R600. -/
def tooWide (v : Variant) (x : Nat) : Bool := 2 ^ elemBits v ≤ x

/-- minimal_bytes(x): the smallest k with x < 2^(8k) (R401), computed from the place of the top set bit. -/
def minimalBytes (x : Nat) : Nat := if x = 0 then 0 else Nat.log2 x / 8 + 1

/-- TagFor(v, x), for x < 2^W(v): the smallest tag whose length is at least minimal_bytes(x) (R402). -/
def tagOf (v : Variant) (x : Nat) : Tag :=
  if minimalBytes x ≤ tagLen v 0 then 0
  else if minimalBytes x ≤ tagLen v 1 then 1
  else if minimalBytes x ≤ tagLen v 2 then 2
  else 3

/-- Pack(t0, t1, t2, t3) (R405). -/
def pack (t0 t1 t2 t3 : Tag) : Byte :=
  BitVec.ofNat 8 (t0.toNat + 4 * t1.toNat + 16 * t2.toNat + 64 * t3.toNat)

/-- The tag of lane `i` in a control byte: bits 2i+1 to 2i (30_encoding.md R320). -/
def laneTag (c : Byte) (i : Nat) : Tag := c.extractLsb' (2 * i) 2

/-- Unpack(c), lane 0 first (R406). -/
def unpack (c : Byte) : List Tag := [laneTag c 0, laneTag c 1, laneTag c 2, laneTag c 3]

/-- ceil(n/4): the control bytes of n elements (00_scope.md R16, 30_encoding.md R324). -/
def groupCount (n : Nat) : Nat := (n + 3) / 4

end Sys2Proof.Machine
end

