-- ==== Sys2Proof/Machine/Operands.lean ====
section
/-! DEFINITION. The operands of the commands: the argument reads, the format of ARG0 (30_encoding.md R305), the regions a
command uses (10_state.md R104), and the checks on them in the order of 60_exceptions.md R702. -/

namespace Sys2Proof.Machine

/-! ### Step 2: argument reads -/

/-- Every register of `rs` has WR = 1. -/
def argsWritten (b : Block) (rs : List ArgReg) : Bool := rs.all fun r => (b.arg r).wr

/-- Read the argument registers `rs` and go on with `body`; one with WR = 0 is a model fault (10_state.md R106). -/
def withArgs (rs : List ArgReg) (s : State) (body : Host.Outcome State Fault Refusal) :
    Host.Outcome State Fault Refusal :=
  if argsWritten s.blk rs then body else modelFault .unwrittenArgument s

/-- The region registers of the CTRL, DATA and VAL regions (R104). -/
def ctrlArgs : List ArgReg := [.ctrlBase, .ctrlLen]
def dataArgs : List ArgReg := [.dataBase, .dataLen]
def valArgs : List ArgReg := [.valBase, .valLen]

/-! ### Step 3: the format of ARG0 -/

/-- The bits of ARG0 a command's fields cover, as a mask (R305). -/
def fieldsOfByteLen : Word := 0x3
def fieldsOfPackCtrl : Word := 0x03030303
def fieldsOfUnpackCtrl : Word := 0xFF
def fieldsOfShufEntry : Word := 0x1FF

/-- A set bit outside a command's fields (R305). -/
def reservedBitSet (a fields : Word) : Bool := a &&& ~~~fields != 0

/-- ARG0 of SHUF_ENTRY is ill formed: a reserved bit, or HALF = 1 with another variant than V1248 or with IDX ≥ 16 (R305). -/
def shufArgIllegal (v : Variant) (a : Word) : Bool :=
  reservedBitSet a fieldsOfShufEntry ||
    (a.getLsbD 8 && (v != .v1248 || a.extractLsb' 4 4 != 0))

/-- A set reserved bit of ARG0 gives InvalidCommand, before any region is checked (R305, R702 step 3). -/
def withFormat (illegal : Bool) (s : State) (body : Host.Outcome State Fault Refusal) :
    Host.Outcome State Fault Refusal :=
  if illegal then .next (s.raise .invalidCommand []) else body

/-! ### Steps 4 and 5: regions -/

/-- The CTRL region, at any alignment (10_state.md R104, 20_memory.md R205). -/
def ctrlUse (s : State) (output : Bool) : RegionUse := ⟨s.argVal .ctrlBase, s.argVal .ctrlLen, output, 1⟩

/-- The DATA region, at any alignment. -/
def dataUse (s : State) (output : Bool) : RegionUse := ⟨s.argVal .dataBase, s.argVal .dataLen, output, 1⟩

/-- The VAL region: VAL_LEN elements of B(v) bytes, at a multiple of B(v). -/
def valUse (v : Variant) (s : State) (output : Bool) : RegionUse :=
  ⟨s.argVal .valBase, s.argVal .valLen * elemBytes v, output, elemBytes v⟩

/-- The reasons for which the regions of a command fault (R205, R207, R208). -/
def regionFaults (uses : List RegionUse) : List UB :=
  (if uses.any (·.wraps) then [.regionWrap] else []) ++
    ((if uses.any (·.misaligned) then [.misalignedValues] else []) ++
      (if regionsOverlap uses then [.overlap] else []))

/-- Check the regions a command uses and go on with `body`: any fault of R702 step 4 (which one of several is recorded is a
draw), then Backed (step 5, R206). -/
def withRegions (uses : List RegionUse) (s : State) (body : Host.Outcome State Fault Refusal) :
    Host.Outcome State Fault Refusal :=
  match regionFaults uses with
  | r :: more => modelFault (pick r more (Config.drawIndex s.draws)) s
  | [] => if uses.all (fun u => allBacked s.platform u.base u.size) then body else .fault .stuck

/-! ### Step 7: reported errors -/

/-- Report one error of the set `E`, the one a draw names, or go on with `body` when `E` is empty (R702 step 7). -/
def reportErrors (E : List Status) (uses : List RegionUse) (s : State)
    (body : Host.Outcome State Fault Refusal) : Host.Outcome State Fault Refusal :=
  match E with
  | e :: more => .next (s.raise (pick e more (Config.drawIndex s.draws)) uses)
  | [] => body

/-! ### What the regions hold -/

/-- Byte `g` of the CTRL region. -/
def ctrlByte (s : State) (g : Nat) : Byte := s.mem.read (s.argVal .ctrlBase + g)

/-- Byte `j` of the DATA region. -/
def dataByte (s : State) (j : Nat) : Byte := s.mem.read (s.argVal .dataBase + j)

/-- The first `n` elements of the VAL region (20_memory.md R203). -/
def valElems (v : Variant) (s : State) (n : Nat) : List Nat :=
  (List.range n).map fun j => s.mem.readLE (s.argVal .valBase + j * elemBytes v) (elemBytes v)

/-- Memory after elements are written to the VAL region from element 0 on, each at its full width (R203). -/
def writeVals (v : Variant) (s : State) (xs : List Nat) : Memory :=
  s.mem.writeBytes (s.argVal .valBase) (xs.flatMap (leBytes (elemBytes v)))

end Sys2Proof.Machine
end

