-- ==== Sys2Proof/Machine/ScalarDecoder.lean ====
section
/-! DEFINITION. The scalar decoder (42_scalar_decoder.md section 1): SegLen and DecodeStream. Control bytes and data bytes are
given by index, as the rules index them. -/

namespace Sys2Proof.Machine

/-- The tag of element `j`: tag j mod 4 of control byte j div 4 (30_encoding.md R321). -/
def elemTag (C : Nat → Byte) (j : Nat) : Tag := laneTag (C (j / 4)) (j % 4)

/-- SegLen(v, n, C): the data bytes that n elements span (R500). -/
def segLen (v : Variant) (n : Nat) (C : Nat → Byte) : Nat :=
  ((List.range n).map fun j => tagLen v (elemTag C j)).sum

/-- The accumulator of one lane: L data bytes from the cursor, little-endian, over zero (R501). -/
def laneValue (D : Nat → Byte) (cur L : Nat) : Nat := leNat ((List.range L).map fun k => D (cur + k))

/-- The scalar lane steps over lanes with the given tags, from cursor `cur`: the values and the cursor after them (R501). -/
def scalarLanes (v : Variant) (D : Nat → Byte) : List Tag → Nat → List Nat × Nat
  | [], cur => ([], cur)
  | t :: ts, cur =>
    let rest := scalarLanes v D ts (cur + tagLen v t)
    (laneValue D cur (tagLen v t) :: rest.1, rest.2)

/-- The tags of the first `lanes` lanes of a control byte. -/
def firstTags (c : Byte) (lanes : Nat) : List Tag := (List.range lanes).map (laneTag c)

/-- DecodeStream over the groups listed, from cursor `cur` (R501). The unused lanes of the tail group are skipped. -/
def decodeGroups (v : Variant) (n : Nat) (C D : Nat → Byte) : List Nat → Nat → List Nat × Nat
  | [], cur => ([], cur)
  | g :: gs, cur =>
    let here := scalarLanes v D (firstTags (C g) (min 4 (n - 4 * g))) cur
    let rest := decodeGroups v n C D gs here.2
    (here.1 ++ rest.1, rest.2)

/-- DecodeStream(v, n, C, D): the values and the number of data bytes consumed (R501). -/
def decodeStream (v : Variant) (n : Nat) (C D : Nat → Byte) : List Nat × Nat :=
  decodeGroups v n C D (List.range (groupCount n)) 0

end Sys2Proof.Machine
end

