-- ==== Sys2Proof/Machine/ShuffleTable.lean ====
section
/-! DEFINITION. The shuffle-descriptor and length-sum ROMs (10_state.md R121 to R124) by the formulas of
43_vector_decoder.md R551 to R554, which agree with the listing entry for entry (44_shuffle_rom.md R590), and the command
SHUF_ENTRY. -/

namespace Sys2Proof.Machine

/-- L_i: the length of lane `i` under a control byte (R551). -/
def laneLen (v : Variant) (c : Byte) (i : Nat) : Nat := tagLen v (laneTag c i)

/-- off_i: where lane `i`'s bytes start in the window (R551). -/
def laneOff (v : Variant) (c : Byte) (i : Nat) : Nat := ((List.range i).map (laneLen v c)).sum

/-- The descriptor byte that means "write 0" (R555). -/
def zeroFill : Byte := 0xFF

/-- SHUF[v][c] (R551). -/
def shuf (v : Variant) (c : Byte) : List Byte :=
  (List.range (4 * elemBytes v)).map fun p =>
    let i := p / elemBytes v
    let k := p % elemBytes v
    if k < laneLen v c i then BitVec.ofNat 8 (laneOff v c i + k) else zeroFill

/-- LSUM[v][c] (R552). -/
def lsum (v : Variant) (c : Byte) : Nat := laneLen v c 0 + laneLen v c 1 + laneLen v c 2 + laneLen v c 3

/-- t_a = h[1:0] (R553). -/
def halfTagA (h : BitVec 4) : Tag := h.extractLsb' 0 2

/-- t_b = h[3:2] (R553). -/
def halfTagB (h : BitVec 4) : Tag := h.extractLsb' 2 2

/-- SHUF2[h] (R553). -/
def shuf2 (h : BitVec 4) : List Byte :=
  let la := tagLen .v1248 (halfTagA h)
  let lb := tagLen .v1248 (halfTagB h)
  (List.range 16).map fun p =>
    if p < 8 ∧ p < la then BitVec.ofNat 8 p
    else if 8 ≤ p ∧ p - 8 < lb then BitVec.ofNat 8 (la + p - 8)
    else zeroFill

/-- LSUM2[h] (R554). -/
def lsum2 (h : BitVec 4) : Nat := tagLen .v1248 (halfTagA h) + tagLen .v1248 (halfTagB h)

/-- The descriptor SHUF_ENTRY reads: SHUF, or SHUF2 when HALF = 1 (R556). -/
def entryDescriptor (v : Variant) (a : Word) : List Byte :=
  if a.getLsbD 8 then shuf2 (a.extractLsb' 0 4) else shuf v (a.extractLsb' 0 8)

/-- The length sum SHUF_ENTRY reads (R556). -/
def entrySum (v : Variant) (a : Word) : Nat :=
  if a.getLsbD 8 then lsum2 (a.extractLsb' 0 4) else lsum v (a.extractLsb' 0 8)

/-- RES_DESCj: descriptor bytes 8j to 8j+7, little-endian, of the descriptor padded with 0x00 (R556). -/
def descWord (d : List Byte) (j : Nat) : Nat := leNat ((List.range 8).map fun m => d.getD (8 * j + m) 0)

/-- SHUF_ENTRY (R556). -/
def execShufEntry (v : Variant) (s : State) : Host.Outcome State Fault Refusal :=
  withArgs [.arg0] s <|
    let a := (s.blk.arg .arg0).val
    withFormat (shufArgIllegal v a) s <|
      let d := entryDescriptor v a
      .next (s.complete
        [(.resDesc0, descWord d 0), (.resDesc1, descWord d 1), (.resDesc2, descWord d 2), (.resDesc3, descWord d 3),
          (.resVal, entrySum v a)] s.mem)

end Sys2Proof.Machine
end

