-- ==== Sys2Proof/Machine/VectorDecoder.lean ====
section
/-! DEFINITION. The byte permutation and zero-fill engine (43_vector_decoder.md section 3) and the vector procedure (R560). -/

namespace Sys2Proof.Machine

/-- PERMUTE(win, d) (R557). -/
def permute (win : List Byte) (d : List Byte) : List Byte :=
  d.map fun e => if e = zeroFill then 0 else win.getD e.toNat 0

/-- Lane `i` of a permuted window, `B` bytes a lane, little-endian (R557). -/
def permutedLane (B : Nat) (o : List Byte) (i : Nat) : Nat :=
  leNat ((List.range B).map fun k => o.getD (i * B + k) 0)

/-- WIN(v) = G × maxlen(v) (00_scope.md R11). -/
def windowBytes (v : Variant) : Nat := 4 * elemBytes v

/-- A window load: `k` bytes of DATA at the cursor (R560). -/
def window (D : Nat → Byte) (cur k : Nat) : List Byte := (List.range k).map fun j => D (cur + j)

/-- A full group in one step: through SHUF when its window lies inside the DATA region, else by scalar lane steps (R560). -/
def fullStep (v : Variant) (c : Byte) (D : Nat → Byte) (dataLen cur : Nat) : List Nat × Nat :=
  (if cur + windowBytes v ≤ dataLen then
      (List.range 4).map (permutedLane (elemBytes v) (permute (window D cur (windowBytes v)) (shuf v c)))
    else (scalarLanes v D (firstTags c 4) cur).1,
    cur + lsum v c)

/-- A half group of V1248: through SHUF2 when its 16-byte window lies inside the DATA region, else by scalar lane steps (R560,
R561). -/
def halfStep (h : BitVec 4) (D : Nat → Byte) (dataLen cur : Nat) : List Nat × Nat :=
  (if cur + 16 ≤ dataLen then (List.range 2).map (permutedLane 8 (permute (window D cur 16) (shuf2 h)))
    else (scalarLanes .v1248 D [halfTagA h, halfTagB h] cur).1,
    cur + lsum2 h)

/-- One group of the vector procedure: the tail group by scalar lane steps, V1248 at granularity HALF in two half steps, every
other group in one full step (R560, R561). -/
def vectorGroup (v : Variant) (gran : Granularity) (n g : Nat) (c : Byte) (D : Nat → Byte) (dataLen cur : Nat) :
    List Nat × Nat :=
  if n < 4 * g + 4 then scalarLanes v D (firstTags c (n - 4 * g)) cur
  else if v = .v1248 ∧ gran = .half then
    let lo := halfStep (c.extractLsb' 0 4) D dataLen cur
    let hi := halfStep (c.extractLsb' 4 4) D dataLen lo.2
    (lo.1 ++ hi.1, hi.2)
  else fullStep v c D dataLen cur

/-- VectorDecode over the groups listed, from cursor `cur` (R560). -/
def vectorGroups (v : Variant) (gran : Granularity) (n : Nat) (C D : Nat → Byte) (dataLen : Nat) :
    List Nat → Nat → List Nat × Nat
  | [], cur => ([], cur)
  | g :: gs, cur =>
    let here := vectorGroup v gran n g (C g) D dataLen cur
    let rest := vectorGroups v gran n C D dataLen gs here.2
    (here.1 ++ rest.1, rest.2)

/-- VectorDecode(v, n, C): the decoded values and the final cursor (R560). -/
def vectorDecode (v : Variant) (gran : Granularity) (n : Nat) (C D : Nat → Byte) (dataLen : Nat) : List Nat × Nat :=
  vectorGroups v gran n C D dataLen (List.range (groupCount n)) 0

end Sys2Proof.Machine
end

