-- ==== Sys2Proof/Machine/Decoder.lean ====
section
/-! DEFINITION. The commands DECODE_SCALAR, DECODE and DECODE_VECTOR (42_scalar_decoder.md R502, R503; 43_vector_decoder.md
R562). The three read the same operands, make the same checks and report the same errors; they differ in the procedure that
decodes. -/

namespace Sys2Proof.Machine

/-- The regions of the decode commands (10_state.md R104). -/
def decodeUses (v : Variant) (s : State) : List RegionUse :=
  [ctrlUse s false, dataUse s false, valUse v s true]

/-- The registers a decode command reads, but for SEED. -/
def decodeArgs : List ArgReg := .n :: (ctrlArgs ++ dataArgs ++ valArgs)

/-- TruncatedInput for a CTRL or DATA region that is too short (R502); SegLen is computed only when CTRL is long enough. -/
def truncated (v : Variant) (s : State) (n : Nat) : Bool :=
  s.argVal .ctrlLen < groupCount n || s.argVal .dataLen < segLen v n (ctrlByte s)

/-- The error set E of R502. -/
def decodeErrors (v : Variant) (s : State) (n : Nat) (E : List Status) : List Status :=
  errIf (s.argVal .valLen < n) .bufferTooSmall <| errIf (truncated v s n) .truncatedInput E

/-- The values and the cursor: by the vector engine (R560) or by the scalar procedure (R501). -/
def decodeBy (engine : Bool) (v : Variant) (s : State) (n : Nat) : List Nat × Nat :=
  if engine then vectorDecode v s.platform.gran n (ctrlByte s) (dataByte s) (s.argVal .dataLen)
  else decodeStream v n (ctrlByte s) (dataByte s)

/-- The decode commands, by one procedure or the other (R502, R562). -/
def decodeCommand (engine : Bool) (v : Variant) (s : State) : Host.Outcome State Fault Refusal :=
  withArgs decodeArgs s <|
    withRegions (decodeUses v s) s <|
      let n := s.argVal .n
      reportErrors (decodeErrors v s n []) (decodeUses v s) s <|
        let out := decodeBy engine v s n
        .next (s.complete [(.resCtrl, groupCount n), (.resData, out.2)] (writeVals v s out.1))

/-- The decode strategy: STRATEGY[0] (10_state.md R111). -/
def strategyVec (s : State) : Bool := s.blk.strategy.getLsbD 0

/-- CAPS[0]: the engine is present (R109). -/
def capsVec (s : State) : Bool := (capsValue s.platform).getLsbD 0

/-- DECODE_SCALAR (R502). -/
def execDecodeScalar (v : Variant) (s : State) : Host.Outcome State Fault Refusal := decodeCommand false v s

/-- DECODE: by the strategy latched at reset (R503). -/
def execDecode (v : Variant) (s : State) : Host.Outcome State Fault Refusal := decodeCommand (strategyVec s) v s

/-- DECODE_VECTOR: by the vector engine, or by the scalar procedure when the engine is absent (R562). -/
def execDecodeVector (v : Variant) (s : State) : Host.Outcome State Fault Refusal := decodeCommand (capsVec s) v s

end Sys2Proof.Machine
end

