-- ==== Sys2Proof/Machine/Encoder.lean ====
section
/-! DEFINITION. The encoder (41_encoder.md): EncodeStream and the command ENCODE. -/

namespace Sys2Proof.Machine

/-- A sequence cut into groups of G = 4; the last may have fewer lanes (00_scope.md R4, glossary). -/
def groupsOf4 {α : Type} : List α → List (List α)
  | [] => []
  | [a] => [[a]]
  | [a, b] => [[a, b]]
  | [a, b, c] => [[a, b, c]]
  | a :: b :: c :: d :: rest => [a, b, c, d] :: groupsOf4 rest

/-- The tag of lane `i` of a group; an unused lane keeps tag 0 (R450). -/
def encodeTag (v : Variant) (group : List Nat) (i : Nat) : Tag :=
  match group[i]? with
  | some x => tagOf v x
  | none => 0

/-- The control byte of a group (R450). -/
def encodeCtrl (v : Variant) (group : List Nat) : Byte :=
  pack (encodeTag v group 0) (encodeTag v group 1) (encodeTag v group 2) (encodeTag v group 3)

/-- The data bytes of one value: its low LEN[v][t] bytes (R450). -/
def encodeValue (v : Variant) (x : Nat) : List Byte := leBytes (tagLen v (tagOf v x)) x

/-- EncodeStream(v, x) = (C, D) (R450). -/
def encodeStream (v : Variant) (xs : List Nat) : List Byte × List Byte :=
  ((groupsOf4 xs).map (encodeCtrl v), (groupsOf4 xs).flatMap fun group => group.flatMap (encodeValue v))

/-- The regions of ENCODE and ENCODE_DELTAS (10_state.md R104). -/
def encodeUses (v : Variant) (s : State) : List RegionUse :=
  [valUse v s false, ctrlUse s true, dataUse s true]

/-- The error set of R451 for `n` values. `encodable` tells whether the stream `D` can be computed at all. -/
def encodeErrors (s : State) (n : Nat) (encodable : Bool) (D : List Byte) (E : List Status) : List Status :=
  errIf (s.argVal .valLen < n) .truncatedInput <|
    errIf (s.argVal .ctrlLen < groupCount n) .bufferTooSmall <|
      errIf (encodable && s.argVal .dataLen < D.length) .bufferTooSmall E

/-- Write an encoded stream to the CTRL and DATA regions (R451). -/
def writeStream (s : State) (CD : List Byte × List Byte) : Memory :=
  (s.mem.writeBytes (s.argVal .ctrlBase) CD.1).writeBytes (s.argVal .dataBase) CD.2

/-- ENCODE (R451). The stream counts only when VAL_LEN ≥ n; no element past VAL_LEN is read. -/
def execEncode (v : Variant) (s : State) : Host.Outcome State Fault Refusal :=
  withArgs (.n :: (valArgs ++ ctrlArgs ++ dataArgs)) s <|
    withRegions (encodeUses v s) s <|
      let n := s.argVal .n
      let CD := encodeStream v (valElems v s (min n (s.argVal .valLen)))
      reportErrors (encodeErrors s n (n ≤ s.argVal .valLen) CD.2 []) (encodeUses v s) s <|
        .next (s.complete [(.resCtrl, CD.1.length), (.resData, CD.2.length)] (writeStream s CD))

end Sys2Proof.Machine
end

