-- ==== Sys2Proof/Machine/DeltaCoder.lean ====
section
/-! DEFINITION. The delta coder (45_delta.md): ENCODE_DELTAS, DECODE_DELTAS and SKIP_DELTAS. -/

namespace Sys2Proof.Machine

/-- Deltas(s, x), for a non-decreasing x from s on (R604). -/
def deltas : Nat → List Nat → List Nat
  | _, [] => []
  | s, x :: xs => (x - s) :: deltas x xs

/-- PrefixSum(s, d), computed exactly (R604). -/
def prefixSum : Nat → List Nat → List Nat
  | _, [] => []
  | s, d :: ds => (s + d) :: prefixSum (s + d) ds

/-- NonMonotone(s, x, m), for the m values of `x`: the sequence s, x[0], … is not non-decreasing (R605). -/
def nonMonotone : Nat → List Nat → Bool
  | _, [] => false
  | s, x :: xs => x < s || nonMonotone x xs

/-- PrefixOverflow(s, d, m), for the m values of `d`: some running sum reaches 2^W (R605). -/
def prefixOverflow (v : Variant) (s : Nat) (ds : List Nat) : Bool := (prefixSum s ds).any (tooWide v)

/-- The largest k ≤ n with p k; 0 when there is none (R602). -/
def largestUpTo (p : Nat → Bool) : Nat → Nat
  | 0 => 0
  | n + 1 => if p (n + 1) then n + 1 else largestUpTo p n

/-- The decodable prefix k of R602. No k above 4 × CTRL_LEN has ceil(k/4) ≤ CTRL_LEN, so the search starts no higher. -/
def decodablePrefix (v : Variant) (s : State) (n : Nat) : Nat :=
  largestUpTo
    (fun k => groupCount k ≤ s.argVal .ctrlLen && segLen v k (ctrlByte s) ≤ s.argVal .dataLen)
    (min n (4 * s.argVal .ctrlLen))

/-- A condition of R702 step 6 that has no reported error: a model fault when it holds. -/
def withContract (broken : Bool) (r : UB) (s : State) (body : Host.Outcome State Fault Refusal) :
    Host.Outcome State Fault Refusal :=
  if broken then modelFault r s else body

/-- The last value of a sequence, or the seed of an empty one: RES_VAL of R601 and R602. -/
def lastOr (seed : Nat) (xs : List Nat) : Nat := xs.getLast?.getD seed

/-- ENCODE_DELTAS (R601). -/
def execEncodeDeltas (v : Variant) (s : State) : Host.Outcome State Fault Refusal :=
  withArgs (.n :: .seed :: (valArgs ++ ctrlArgs ++ dataArgs)) s <|
    withRegions (encodeUses v s) s <|
      let n := s.argVal .n
      let seed := s.argVal .seed
      let xs := valElems v s (min n (s.argVal .valLen))
      withContract (!tooWide v seed && nonMonotone seed xs) .nonMonotone s <|
        let CD := encodeStream v (deltas seed xs)
        let E := errIf (tooWide v seed) .overflow []
        reportErrors (encodeErrors s n (!tooWide v seed && n ≤ s.argVal .valLen) CD.2 E) (encodeUses v s) s <|
          .next (s.complete
            [(.resCtrl, CD.1.length), (.resData, CD.2.length), (.resVal, lastOr seed xs)] (writeStream s CD))

/-- DECODE_DELTAS (R602). STRATEGY selects the procedure of the base decode (10_state.md R111). -/
def execDecodeDeltas (v : Variant) (s : State) : Host.Outcome State Fault Refusal :=
  withArgs (.seed :: decodeArgs) s <|
    withRegions (decodeUses v s) s <|
      let n := s.argVal .n
      let seed := s.argVal .seed
      let ds := (decodeBy (strategyVec s) v s (decodablePrefix v s n)).1
      withContract (!tooWide v seed && prefixOverflow v seed ds) .prefixOverflow s <|
        reportErrors (decodeErrors v s n (errIf (tooWide v seed) .overflow [])) (decodeUses v s) s <|
          let ys := prefixSum seed ds
          .next (s.complete
            [(.resCtrl, groupCount n), (.resData, segLen v n (ctrlByte s)), (.resVal, lastOr seed ys)]
            (writeVals v s ys))

/-- The regions of SKIP_DELTAS (10_state.md R104). -/
def skipUses (s : State) : List RegionUse := [ctrlUse s false, dataUse s false]

/-- SKIP_DELTAS (R603). -/
def execSkipDeltas (v : Variant) (s : State) : Host.Outcome State Fault Refusal :=
  withArgs (.n :: .seed :: (ctrlArgs ++ dataArgs)) s <|
    withRegions (skipUses s) s <|
      let n := s.argVal .n
      let seed := s.argVal .seed
      let ds := (decodeStream v (decodablePrefix v s n) (ctrlByte s) (dataByte s)).1
      withContract (!tooWide v seed && prefixOverflow v seed ds) .prefixOverflow s <|
        reportErrors (errIf (truncated v s n) .truncatedInput (errIf (tooWide v seed) .overflow [])) (skipUses s) s <|
          .next (s.complete
            [(.resVal, seed + ds.sum), (.resData, segLen v n (ctrlByte s)), (.resCtrl, groupCount n)] s.mem)

end Sys2Proof.Machine
end

