-- ==== Sys2Proof/Machine/LengthScanner.lean ====
section
/-! DEFINITION. The length scanner (46_length_scanner.md): DATA_LEN. -/

namespace Sys2Proof.Machine

/-- The data bytes of group `g`: one length-sum lookup for a full group, the valid lanes alone for the tail group (R650). -/
def groupDataLen (v : Variant) (n : Nat) (C : Nat → Byte) (g : Nat) : Nat :=
  if 4 * g + 4 ≤ n then lsum v (C g) else ((List.range (n - 4 * g)).map (laneLen v (C g))).sum

/-- DataLenFn(v, n, C) (R650). -/
def dataLenFn (v : Variant) (n : Nat) (C : Nat → Byte) : Nat :=
  ((List.range (groupCount n)).map (groupDataLen v n C)).sum

/-- The regions of DATA_LEN (10_state.md R104). -/
def dataLenUses (s : State) : List RegionUse := [ctrlUse s false]

/-- DATA_LEN (R651). -/
def execDataLen (v : Variant) (s : State) : Host.Outcome State Fault Refusal :=
  withArgs (.n :: ctrlArgs) s <|
    withRegions (dataLenUses s) s <|
      let n := s.argVal .n
      reportErrors (errIf (s.argVal .ctrlLen < groupCount n) .truncatedInput []) (dataLenUses s) s <|
        let t := dataLenFn v n (ctrlByte s)
        if 2 ^ 64 ≤ t then modelFault .lengthOverflow s
        else .next (s.complete [(.resData, t), (.resCtrl, groupCount n)] s.mem)

end Sys2Proof.Machine
end

