-- ==== Sys2Proof/Machine/TagCommands.lean ====
section
/-! DEFINITION. The commands of the tag table (40_tagtable.md section 2): TAG_FOR, BYTE_LEN, PACK_CTRL and UNPACK_CTRL. -/

namespace Sys2Proof.Machine

/-- TAG_FOR (R410). -/
def execTagFor (v : Variant) (s : State) : Host.Outcome State Fault Refusal :=
  withArgs [.arg0] s <|
    let x := s.argVal .arg0
    reportErrors (errIf (tooWide v x) .overflow []) [] s <|
      .next (s.complete [(.resVal, (tagOf v x).toNat)] s.mem)

/-- BYTE_LEN (R411). -/
def execByteLen (v : Variant) (s : State) : Host.Outcome State Fault Refusal :=
  withArgs [.arg0] s <|
    let a := (s.blk.arg .arg0).val
    withFormat (reservedBitSet a fieldsOfByteLen) s <|
      .next (s.complete [(.resVal, tagLen v (a.extractLsb' 0 2))] s.mem)

/-- PACK_CTRL (R412). The variant does not change the result. -/
def execPackCtrl (_ : Variant) (s : State) : Host.Outcome State Fault Refusal :=
  withArgs [.arg0] s <|
    let a := (s.blk.arg .arg0).val
    withFormat (reservedBitSet a fieldsOfPackCtrl) s <|
      .next (s.complete
        [(.resVal,
          (pack (a.extractLsb' 0 2) (a.extractLsb' 8 2) (a.extractLsb' 16 2) (a.extractLsb' 24 2)).toNat)] s.mem)

/-- UNPACK_CTRL (R413). The variant does not change the result. -/
def execUnpackCtrl (_ : Variant) (s : State) : Host.Outcome State Fault Refusal :=
  withArgs [.arg0] s <|
    let a := (s.blk.arg .arg0).val
    withFormat (reservedBitSet a fieldsOfUnpackCtrl) s <|
      let c : Byte := a.extractLsb' 0 8
      .next (s.complete
        [(.resVal,
          (laneTag c 0).toNat + 2 ^ 8 * (laneTag c 1).toNat + 2 ^ 16 * (laneTag c 2).toNat +
            2 ^ 24 * (laneTag c 3).toNat)] s.mem)

end Sys2Proof.Machine
end

