-- ==== Sys2Proof/Machine/Dispatch.lean ====
section
/-! DEFINITION. One arm per command (30_encoding.md R303): what it does to the selected instance, whose CMD holds its word. -/

namespace Sys2Proof.Machine

def exec (i : Instr) (s : State) : Host.Outcome State Fault Refusal :=
  match i with
  | .tagFor v => Sys2Proof.Machine.execTagFor v s
  | .byteLen v => Sys2Proof.Machine.execByteLen v s
  | .packCtrl v => Sys2Proof.Machine.execPackCtrl v s
  | .unpackCtrl v => Sys2Proof.Machine.execUnpackCtrl v s
  | .encode v => Sys2Proof.Machine.execEncode v s
  | .decode v => Sys2Proof.Machine.execDecode v s
  | .decodeScalar v => Sys2Proof.Machine.execDecodeScalar v s
  | .decodeVector v => Sys2Proof.Machine.execDecodeVector v s
  | .shufEntry v => Sys2Proof.Machine.execShufEntry v s
  | .encodeDeltas v => Sys2Proof.Machine.execEncodeDeltas v s
  | .decodeDeltas v => Sys2Proof.Machine.execDecodeDeltas v s
  | .skipDeltas v => Sys2Proof.Machine.execSkipDeltas v s
  | .dataLen v => Sys2Proof.Machine.execDataLen v s

end Sys2Proof.Machine
end

