-- ==== Sys2Proof/WellFormed.lean ====
section
/-! DEFINITION. Which command words and host actions are well formed. -/

namespace Sys2Proof

/-- A set RSV bit makes a command word illegal (30_encoding.md R301, R304). -/
def rsvIsZero (w : CmdWord) : Bool := w.extractLsb' 10 22 == 0

/-- VAR = 3 makes a command word illegal (R302, R304). -/
def varIsNamed (w : CmdWord) : Bool := w.extractLsb' 8 2 != 3

/-- The OPC column of R303's map. -/
def listedOpcodes : List (BitVec 8) :=
  [0x01, 0x02, 0x03, 0x04, 0x10, 0x20, 0x21, 0x22, 0x23, 0x30, 0x31, 0x32, 0x40]

/-- An OPC outside R303's map makes a command word illegal (R303, R304). -/
def opcIsListed (w : CmdWord) : Bool := listedOpcodes.contains (w.extractLsb' 0 8)

/-- A legal command word: none of the three tests of R304 holds. -/
def wordWellFormed (w : CmdWord) : Bool := rsvIsZero w && varIsNamed w && opcIsListed w

/-- Every term of `Instr` is well formed: its one field is a `Variant`, and VAR = 3, the only field value R302 reserves, names
no `Variant`. The reserved bits of ARG0 are no part of a command word; a command checks them as it runs (R305). -/
def Instr.wellFormed (_ : Instr) : Bool := true

/-- A host action on a platform of `instances` instances is well formed when the instance it names exists (60_exceptions.md
R731) and a register write carries a value of exactly the register's width (10_state.md R101): a 64-bit value is none for CMD,
the register at offset 0, which only `writeCmd` writes. -/
def HostAction.wellFormed (instances : Nat) : HostAction → Bool
  | .writeCmd k _ => k < instances
  | .writeReg k off _ => k < instances && off != 0
  | .readReg k _ => k < instances
  | .writeMem _ _ => true
  | .readMem _ _ => true

end Sys2Proof
end

