-- ==== Sys2Proof/Decode.lean ====
section
/-! DEFINITION. The decode of a command word, total over all words (30_encoding.md R304), and the encoder (R301 to R303). -/

namespace Sys2Proof

/-- Why a command word is illegal (R304, R307). -/
inductive IllegalWord where
  /-- A bit of CMD[31:10] is set. -/
  | reservedBits
  /-- VAR = 3. -/
  | reservedVariant
  /-- OPC is not in R303's map. -/
  | reservedOpcode
deriving DecidableEq, Repr

/-- VAR of a variant (R302). -/
def Variant.code : Variant → BitVec 2
  | .v1234 => 0
  | .v0124 => 1
  | .v1248 => 2

/-- The variant a VAR field names (R302). -/
def variantOfCode (c : BitVec 2) : Option Variant :=
  match c.toNat with
  | 0 => some .v1234
  | 1 => some .v0124
  | 2 => some .v1248
  | _ => none

/-- The command an OPC names (R303). -/
def commandOfOpc (o : BitVec 8) (v : Variant) : Option Instr :=
  match o.toNat with
  | 0x01 => some (.tagFor v)
  | 0x02 => some (.byteLen v)
  | 0x03 => some (.packCtrl v)
  | 0x04 => some (.unpackCtrl v)
  | 0x10 => some (.encode v)
  | 0x20 => some (.decode v)
  | 0x21 => some (.decodeScalar v)
  | 0x22 => some (.decodeVector v)
  | 0x23 => some (.shufEntry v)
  | 0x30 => some (.encodeDeltas v)
  | 0x31 => some (.decodeDeltas v)
  | 0x32 => some (.skipDeltas v)
  | 0x40 => some (.dataLen v)
  | _ => none

/-- R304, test by test in its order. -/
def decodeCmd (w : CmdWord) : Except IllegalWord Instr :=
  if w.extractLsb' 10 22 ≠ 0 then .error .reservedBits
  else
    match variantOfCode (w.extractLsb' 8 2) with
    | none => .error .reservedVariant
    | some v =>
      match commandOfOpc (w.extractLsb' 0 8) v with
      | none => .error .reservedOpcode
      | some i => .ok i

/-- The variant a command names. -/
def Instr.variant : Instr → Variant
  | .tagFor v | .byteLen v | .packCtrl v | .unpackCtrl v | .encode v | .decode v | .decodeScalar v
  | .decodeVector v | .shufEntry v | .encodeDeltas v | .decodeDeltas v | .skipDeltas v | .dataLen v => v

/-- OPC of a command (R303). -/
def Instr.opc : Instr → BitVec 8
  | .tagFor _ => 0x01
  | .byteLen _ => 0x02
  | .packCtrl _ => 0x03
  | .unpackCtrl _ => 0x04
  | .encode _ => 0x10
  | .decode _ => 0x20
  | .decodeScalar _ => 0x21
  | .decodeVector _ => 0x22
  | .shufEntry _ => 0x23
  | .encodeDeltas _ => 0x30
  | .decodeDeltas _ => 0x31
  | .skipDeltas _ => 0x32
  | .dataLen _ => 0x40

/-- The one word of a command: `(VAR << 8) | OPC` (R341), RSV = 0 (R301). -/
def encodeCmd (i : Instr) : CmdWord := (0 : BitVec 22) ++ (i.variant.code ++ i.opc)

/-- The command the decoder reads from the table's bits `w` (`nbits` of them; those above are 0). A command is one 32-bit
register write (R300), so there is no second word and no byte order. -/
def decodeTableWord (nbits w : Nat) : Option Instr :=
  if w % 2 ^ nbits < 2 ^ 32 then
    match decodeCmd (BitVec.ofNat 32 (w % 2 ^ nbits)) with
    | .ok i => some i
    | .error _ => none
  else none

end Sys2Proof
end

