-- ==== Sys2Proof/Machine/HostPort.lean ====
section
/-! DEFINITION. What a host can do to the machine (70_reset_and_hazards.md R819): register reads and writes (10_state.md R101,
R106), host-memory reads and writes, and the CMD write, which starts a command (R107). The order of the actions is the hosts'
programs' (R110) under the interleaving the state holds (20_memory.md R221). -/

namespace Sys2Proof.Machine

/-! ### The register map -/

/-- The register at an offset of a block (10_state.md R102); every other offset is reserved (R101). -/
def regAt (off : Nat) : Option Reg :=
  match off with
  | 0x00 => some .cmd
  | 0x08 => some .status
  | 0x10 => some .caps
  | 0x18 => some .strategy
  | 0x20 => some (.arg .n)
  | 0x28 => some (.arg .seed)
  | 0x30 => some (.arg .arg0)
  | 0x38 => some (.arg .ctrlBase)
  | 0x40 => some (.arg .ctrlLen)
  | 0x48 => some (.arg .dataBase)
  | 0x50 => some (.arg .dataLen)
  | 0x58 => some (.arg .valBase)
  | 0x60 => some (.arg .valLen)
  | 0x68 => some (.res .resCtrl)
  | 0x70 => some (.res .resData)
  | 0x78 => some (.res .resVal)
  | 0x80 => some (.res .resDesc0)
  | 0x88 => some (.res .resDesc1)
  | 0x90 => some (.res .resDesc2)
  | 0x98 => some (.res .resDesc3)
  | _ => none

/-- The value a host reads from a register of the selected instance, or the model fault the read is (R101, R106). A register
narrower than 64 bits is given as the number it holds. -/
def readRegister (s : State) (off : Nat) : Except UB Word :=
  match regAt off with
  | none => .error .reservedRegister
  | some .cmd => .ok (s.blk.cmd.setWidth 64)
  | some .status => .ok (s.blk.status.setWidth 64)
  | some .caps => .ok (capsValue s.platform)
  | some .strategy => .ok s.blk.strategy
  | some (.arg r) => if (s.blk.arg r).wr then .ok (s.blk.arg r).val else .error .unwrittenArgument
  | some (.res r) => if (s.blk.res r).wr then .ok (s.blk.res r).val else .error .unwrittenResult

/-- A host's write of a 64-bit value (R101): an argument register takes it; every other register but CMD is read-only. A write
to CMD at this width is no action of a host (`HostAction.wellFormed`). -/
def writeRegister (s : State) (off : Nat) (v : Word) : Host.Outcome State Fault Refusal :=
  match regAt off with
  | some (.arg r) => .next { s with blk := s.blk.writeArg r v }
  | some .cmd => .refused .illFormedAction
  | _ => modelFault .reservedRegister s

/-! ### Hosts -/

/-- Record what host `h` read (30_encoding.md R340). -/
def State.observe (s : State) (h : Nat) (o : Observation) : State :=
  { s with hosts := s.hosts.modify h fun x => { x with observed := x.observed ++ [o] } }

/-- Host `h` has taken its action: its position index goes up by 1 (10_state.md R110), and the next turn is at hand. An action is
one write or one read (DESIGN CHOICE, notes/assumptions/18.md). -/
def State.advance (s : State) (h : Nat) : State :=
  { s with hosts := s.hosts.modify h fun x => { x with p := x.p + 1 }, turns := s.turns.tail }

/-- A turn at which no host acts: it is used up and nothing else changes (R819: the block does nothing by itself). -/
def State.skipTurn (s : State) : State := { s with turns := s.turns.tail }

/-- The action at host `h`'s position, if it has not taken its last. -/
def HostProgram.current (x : HostProgram) : Option HostAction := x.program[x.p]?

/-- The host whose turn it is and its action; none when no turn is left or that host has no action left. -/
def State.nextAction (s : State) : Option (Nat × HostAction) :=
  match s.turns with
  | [] => none
  | h :: _ =>
    match s.hosts[h]? with
    | none => none
    | some x =>
      match x.current with
      | none => none
      | some a => some (h, a)

/-! ### Actions -/

/-- The end of an illegal command word: InvalidCommand, no argument register read, no memory touched (R304, R703). -/
def illegalCommand (s : State) : Host.Outcome State Fault Refusal := .next (s.raise .invalidCommand [])

/-- A write of the word `w` to CMD of the selected instance: it is stored, and the command it encodes is performed in the same
transition (R100, R107, R304). -/
def commandWrite (run : Instr → State → Host.Outcome State Fault Refusal) (s : State) (w : CmdWord) :
    Host.Outcome State Fault Refusal :=
  match decodeCmd w with
  | .ok i => run i (s.storeCmd w)
  | .error _ => illegalCommand (s.storeCmd w)

/-- A well-formed action of host `h`. A memory access outside Backed faults: those bytes do not exist (R126). -/
def perform (run : Instr → State → Host.Outcome State Fault Refusal) (h : Nat) (s : State) :
    HostAction → Host.Outcome State Fault Refusal
  | .writeCmd k w => commandWrite run (s.select k) w
  | .writeReg k off v => writeRegister (s.select k) off v
  | .readReg k off =>
    match readRegister (s.select k) off with
    | .ok v => .next ((s.select k).observe h (.reg k off v))
    | .error r => modelFault r (s.select k)
  | .writeMem a bs =>
    if allBacked s.platform a.toNat bs.length then .next { s with mem := s.mem.writeBytes a.toNat bs }
    else .fault .hostUnbacked
  | .readMem a k =>
    if allBacked s.platform a.toNat k then .next (s.observe h (.bytes a (s.mem.bytes a.toNat k)))
    else .fault .hostUnbacked

/-- Change the next state of an outcome that has one. -/
def mapNext (f : State → State) : Host.Outcome State Fault Refusal → Host.Outcome State Fault Refusal
  | .next t => .next (f t)
  | .fault r => .fault r
  | .refused r => .refused r

/-- One action of host `h`, ill-formed ones refused; after a well-formed one that takes a step, the host moves on. -/
def act (run : Instr → State → Host.Outcome State Fault Refusal) (h : Nat) (a : HostAction) (s : State) :
    Host.Outcome State Fault Refusal :=
  if a.wellFormed s.instances then mapNext (·.advance h) (perform run h s a) else .refused .illFormedAction

/-- One transition of the machine. A model fault is one, into a state with FAULT set; no agent steps from there (R128;
60_exceptions.md R710). -/
def stepWith (run : Instr → State → Host.Outcome State Fault Refusal) (s : State) : Host.Outcome State Fault Refusal :=
  match s.fault with
  | some r => .fault (.faulted r)
  | none =>
    match s.nextAction with
    | none => .next s.skipTurn
    | some (h, a) => act run h a s

/-! ### Placing a command where the next step takes it -/

/-- Host 0 with `a` as its next action, before what it had still to do. -/
def withNextAction (a : HostAction) : List HostProgram → List HostProgram
  | [] => [⟨[a], 0, []⟩]
  | x :: rest => { x with program := x.program.take x.p ++ a :: x.program.drop x.p, p := (x.program.take x.p).length } :: rest

/-- The machine with a write of `w` to CMD of the selected instance as its very next action: it is host 0's next action, the
first turn is host 0's, and FAULT is none, without which nothing steps. -/
def withCommand (s : State) (w : CmdWord) : State :=
  { s with fault := none, hosts := withNextAction (.writeCmd s.selected w) s.hosts, turns := 0 :: s.turns }

end Sys2Proof.Machine
end

