-- ==== Sys2Proof/Machine/Step.lean ====
section
/-! DEFINITION. One step of the machine: the next action of the host whose turn it is. -/

namespace Sys2Proof.Machine

/-- One step (Machine/HostPort.lean), running commands by `exec`. -/
def step (s : State) : Host.Outcome State Fault Refusal := stepWith exec s

/-- The state with the command word made of the table's bits `w` (`nbits` of them; those above are 0) as the very next CMD
write. The block fetches nothing (10_state.md R110): a word reaches it as a host's write, so that is what this places
(notes/assumptions/5.md). -/
def State.withFetchWord (s : State) (nbits w : Nat) : State := withCommand s (BitVec.ofNat 32 (w % 2 ^ nbits))

end Sys2Proof.Machine
end

