-- ==== Sys2Proof/Safety.lean ====
section
/-! DEFINITION. What the claims call an end of a run, the tables of the spec they speak of, and the invariant of the machine. -/

namespace Sys2Proof.Machine

/-- Host `x` has taken its last action. -/
def HostProgram.done (x : HostProgram) : Bool := x.program.length ≤ x.p

/-- The end of a run (70_reset_and_hazards.md R820): every host has taken its last action and FAULT = none. A stuck agent has
an action it has not taken. -/
def State.ended (s : State) : Bool := s.hosts.all (·.done) && s.fault.isNone

/-- Every cell of memory lies at a Backed address (10_state.md R126). -/
def State.memBacked (s : State) : Bool := s.mem.all fun c => backed s.platform c.1

/-- STATUS of every instance holds one of the codes that are ever written (60_exceptions.md R700, R701). -/
def State.statusesLegal (s : State) : Bool := s.blocks.all fun b => statusLegal b.status

/-- STRATEGY of every instance holds what reset latched into it: bit 0 is VEC_CAP and the others are 0 (10_state.md R111). -/
def State.strategiesLatched (s : State) : Bool := s.blocks.all fun b => b.strategy == capsValue s.platform

/-- There are as many instances as the platform has register blocks (60_exceptions.md R731). -/
def State.instancesMatch (s : State) : Bool := s.instances == s.platform.moreBases.length + 1

/-- Command `i` ends with STATUS = OK, in the state `t`, and not in a model fault (00_scope.md R19). -/
def EndsOk (i : Instr) (s t : State) : Prop := exec i s = .next t ∧ t.fault = none ∧ t.blk.status = 0

/-- The step is a model fault with the reason `r` (60_exceptions.md R710) that changes no register, no memory and no observation:
one a host's register access raises. -/
def AccessFaults (s : State) (r : UB) : Prop :=
  ∃ t : State, step s = .next t ∧ t.fault = some r ∧ t.blocks = s.blocks ∧ t.mem = s.mem ∧ t.platform = s.platform ∧
    ∀ j : Nat, (t.hosts[j]?).map HostProgram.observed = (s.hosts[j]?).map HostProgram.observed

/-! ### Tables the claims speak of -/

/-- The argument registers a command's rule reads (60_exceptions.md R702 step 2; the Operands entry of each command's rule). -/
def argsRead : Instr → List ArgReg
  | .tagFor _ | .byteLen _ | .packCtrl _ | .unpackCtrl _ | .shufEntry _ => [.arg0]
  | .encode _ | .decode _ | .decodeScalar _ | .decodeVector _ =>
    [.n, .ctrlBase, .ctrlLen, .dataBase, .dataLen, .valBase, .valLen]
  | .encodeDeltas _ | .decodeDeltas _ => [.n, .seed, .ctrlBase, .ctrlLen, .dataBase, .dataLen, .valBase, .valLen]
  | .skipDeltas _ => [.n, .seed, .ctrlBase, .ctrlLen, .dataBase, .dataLen]
  | .dataLen _ => [.n, .ctrlBase, .ctrlLen]

/-- The regions a command uses, as inputs or outputs: the table of 10_state.md R104. -/
def usesOf (i : Instr) (s : State) : List RegionUse :=
  match i with
  | .tagFor _ | .byteLen _ | .packCtrl _ | .unpackCtrl _ | .shufEntry _ => []
  | .encode v | .encodeDeltas v => [valUse v s false, ctrlUse s true, dataUse s true]
  | .decode v | .decodeScalar v | .decodeVector v | .decodeDeltas v =>
    [ctrlUse s false, dataUse s false, valUse v s true]
  | .skipDeltas _ => [ctrlUse s false, dataUse s false]
  | .dataLen _ => [ctrlUse s false]

/-- The result registers a command's rule names (R105). -/
def resultsOf : Instr → List ResReg
  | .tagFor _ | .byteLen _ | .packCtrl _ | .unpackCtrl _ => [.resVal]
  | .shufEntry _ => [.resDesc0, .resDesc1, .resDesc2, .resDesc3, .resVal]
  | .encode _ | .decode _ | .decodeScalar _ | .decodeVector _ | .dataLen _ => [.resCtrl, .resData]
  | .encodeDeltas _ | .decodeDeltas _ | .skipDeltas _ => [.resCtrl, .resData, .resVal]

/-- Address `a` lies in one of the output regions. -/
def inOutput (uses : List RegionUse) (a : Nat) : Prop :=
  ∃ u ∈ uses, u.output = true ∧ u.base ≤ a ∧ a < u.base + u.size

/-- What a host owes a command before it writes CMD (70_reset_and_hazards.md R805, R819): every argument register the command
reads is written, and its regions neither fault (60_exceptions.md R702 step 4) nor leave Backed (step 5). -/
structure Ready (i : Instr) (s : State) : Prop where
  args : ∀ r ∈ argsRead i, (s.blk.arg r).wr = true
  regions : regionFaults (usesOf i s) = []
  backedAll : ∀ u ∈ usesOf i s, ∀ a, u.base ≤ a → a < u.base + u.size → backed s.platform a = true

/-- The contract conditions of a command's rule that have no reported error (60_exceptions.md R702 step 6): a delta input that
is not non-decreasing from the seed on, a running sum that reaches 2^W within some decodable prefix (45_delta.md R605), a
DATA_LEN total that does not fit 64 bits (46_length_scanner.md R651). -/
def contractBroken (i : Instr) (s : State) : Prop :=
  match i with
  | .encodeDeltas v =>
    s.argVal .seed < 2 ^ elemBits v ∧
      ¬(s.argVal .seed :: valElems v s (min (s.argVal .n) (s.argVal .valLen))).Pairwise (· ≤ ·)
  | .decodeDeltas v | .skipDeltas v =>
    s.argVal .seed < 2 ^ elemBits v ∧
      ∃ k j, k ≤ s.argVal .n ∧ (k + 3) / 4 ≤ s.argVal .ctrlLen ∧ segLen v k (ctrlByte s) ≤ s.argVal .dataLen ∧ j ≤ k ∧
        2 ^ elemBits v ≤ s.argVal .seed + ((decodeStream v k (ctrlByte s) (dataByte s)).1.take j).sum
  | .dataLen v => (s.argVal .n + 3) / 4 ≤ s.argVal .ctrlLen ∧ 2 ^ 64 ≤ segLen v (s.argVal .n) (ctrlByte s)
  | .tagFor _ | .byteLen _ | .packCtrl _ | .unpackCtrl _ | .shufEntry _ | .encode _ | .decode _ | .decodeScalar _
  | .decodeVector _ => False

/-- BufferTooSmall: an output region is too small (the Exceptions entries of R451, R502, R601, R602). -/
def bufferTooSmall (i : Instr) (s : State) : Prop :=
  match i with
  | .encode v =>
    s.argVal .ctrlLen < (s.argVal .n + 3) / 4 ∨
      (s.argVal .n ≤ s.argVal .valLen ∧ s.argVal .dataLen < (encodeStream v (valElems v s (s.argVal .n))).2.length)
  | .encodeDeltas v =>
    s.argVal .ctrlLen < (s.argVal .n + 3) / 4 ∨
      (s.argVal .n ≤ s.argVal .valLen ∧ s.argVal .seed < 2 ^ elemBits v ∧
        s.argVal .dataLen < (encodeStream v (deltas (s.argVal .seed) (valElems v s (s.argVal .n)))).2.length)
  | .decode _ | .decodeScalar _ | .decodeVector _ | .decodeDeltas _ => s.argVal .valLen < s.argVal .n
  | .tagFor _ | .byteLen _ | .packCtrl _ | .unpackCtrl _ | .shufEntry _ | .skipDeltas _ | .dataLen _ => False

/-- TruncatedInput: an input region is too short (the Exceptions entries of R451, R502, R601 to R603, R651). -/
def truncatedInput (i : Instr) (s : State) : Prop :=
  match i with
  | .encode _ | .encodeDeltas _ => s.argVal .valLen < s.argVal .n
  | .decode v | .decodeScalar v | .decodeVector v | .decodeDeltas v | .skipDeltas v =>
    s.argVal .ctrlLen < (s.argVal .n + 3) / 4 ∨ s.argVal .dataLen < segLen v (s.argVal .n) (ctrlByte s)
  | .dataLen _ => s.argVal .ctrlLen < (s.argVal .n + 3) / 4
  | .tagFor _ | .byteLen _ | .packCtrl _ | .unpackCtrl _ | .shufEntry _ => False

/-- Overflow: a value or a seed does not fit the variant's width (R410, R600). -/
def tooWideOperand (i : Instr) (s : State) : Prop :=
  match i with
  | .tagFor v => 2 ^ elemBits v ≤ s.argVal .arg0
  | .encodeDeltas v | .decodeDeltas v | .skipDeltas v => 2 ^ elemBits v ≤ s.argVal .seed
  | .byteLen _ | .packCtrl _ | .unpackCtrl _ | .shufEntry _ | .encode _ | .decode _ | .decodeScalar _ | .decodeVector _
  | .dataLen _ => False

/-- InvalidCommand from the format of ARG0 (30_encoding.md R305). -/
def illFormedArg (i : Instr) (s : State) : Prop :=
  let a := s.argVal .arg0
  match i with
  | .byteLen _ => 3 < a
  | .packCtrl _ => s.blk.arg0.val &&& ~~~0x03030303 ≠ 0
  | .unpackCtrl _ => 0xFF < a
  | .shufEntry v => 2 ^ 9 ≤ a ∨ (a / 2 ^ 8 % 2 = 1 ∧ (v ≠ .v1248 ∨ a / 2 ^ 4 % 2 ^ 4 ≠ 0))
  | .tagFor _ | .encode _ | .decode _ | .decodeScalar _ | .decodeVector _ | .encodeDeltas _ | .decodeDeltas _
  | .skipDeltas _ | .dataLen _ => False

/-- A command may report the error `e`: its condition holds (the table of 60_exceptions.md R700). -/
def reportable (i : Instr) (s : State) : Status → Prop
  | .ok => False
  | .bufferTooSmall => bufferTooSmall i s
  | .truncatedInput => truncatedInput i s
  | .overflow => tooWideOperand i s
  | .capabilityMismatch => False
  | .invalidCommand => illFormedArg i s

/-- A descriptor padded with 0x00 to 32 bytes (43_vector_decoder.md R556). -/
def paddedDescriptor (d : List Byte) : List Byte := d ++ List.replicate (32 - d.length) 0

/-- The host names a new VAL region and changes nothing else. -/
def withValRegion (s : State) (base len : Word) : State :=
  { s with blk := (s.blk.writeArg .valBase base).writeArg .valLen len }

/-- What holds of every state a run reaches. -/
structure State.Inv (s : State) : Prop where
  memory : s.mem.wf = true
  addresses : s.memBacked = true
  statuses : s.statusesLegal = true
  strategies : s.strategiesLatched = true
  instances : s.instancesMatch = true

end Sys2Proof.Machine
end

