-- ==== Sys2Proof/Certificates/Slice0/Obligations.lean ====
section
/-! DEFINITION. The statements for the provers. Each says in its docstring which sentence of the spec it formalises, or what it
rests on. -/

open Sys2Proof Sys2Proof.Machine

/-! ### Command words -/

/-- A word decodes to a command exactly when it is the command's one word, `(VAR << 8) | OPC` (30_encoding.md section 1). -/
def Obligations.DecodeAndEncodeAgree : Prop :=
  ∀ (w : CmdWord) (i : Instr), decodeCmd w = .ok i ↔ i.wellFormed = true ∧ w = encodeCmd i

/-- The words `decodeCmd` accepts are exactly those with RSV = 0, VAR ≠ 3 and OPC in R303's map. -/
def Obligations.LegalWordsAreExactlyListed : Prop :=
  ∀ w : CmdWord,
    (∃ i, decodeCmd w = .ok i) ↔
      w.toNat / 2 ^ 10 = 0 ∧ w.toNat / 2 ^ 8 % 4 ≠ 3 ∧
        w.toNat % 2 ^ 8 ∈ [0x01, 0x02, 0x03, 0x04, 0x10, 0x20, 0x21, 0x22, 0x23, 0x30, 0x31, 0x32, 0x40]

/-- One word of each family, from the table of 95_test_vectors.md L2.1. -/
def Obligations.SampleWordsDecode : Prop :=
  decodeCmd 0x00000001 = .ok (.tagFor .v1234) ∧ decodeCmd 0x00000110 = .ok (.encode .v0124) ∧
    decodeCmd 0x00000221 = .ok (.decodeScalar .v1248) ∧ decodeCmd 0x00000123 = .ok (.shufEntry .v0124) ∧
    decodeCmd 0x00000231 = .ok (.decodeDeltas .v1248) ∧ decodeCmd 0x00000040 = .ok (.dataLen .v1234)

/-! ### Steps -/

/-- A CMD write stores its word and performs the command it encodes, in one transition; then the host moves on (R100, R107,
R110). A faulted state holds the word too, and its host has moved on, the model's reading, notes/assumptions/7.md. -/
def Obligations.StepRunsDecodedCommand : Prop :=
  ∀ (s : State) (h k : Nat) (w : CmdWord) (i : Instr),
    s.fault = none → s.nextAction = some (h, .writeCmd k w) → k < s.instances → decodeCmd w = .ok i →
      step s = mapNext (fun t => t.advance h) (exec i ((s.select k).storeCmd w))

/-- The very next step after `withFetchWord` performs the command placed, on the instance selected, in the state as it was but
for the host's move, with FAULT = none. That a program reaches the block as host writes of CMD, so that this is what placing a
word means, is the model's choice (notes/assumptions/5.md). -/
def Obligations.PlacedWordRunsNext : Prop :=
  ∀ (s : State) (nbits w : Nat) (i : Instr), decodeTableWord nbits w = some i →
    step (s.withFetchWord nbits w) =
      mapNext (fun t => t.advance 0)
        (exec i ((s.withFetchWord nbits w).storeCmd (BitVec.ofNat 32 (w % 2 ^ nbits)))) ∧
      (s.withFetchWord nbits w).blk = s.blk ∧ (s.withFetchWord nbits w).mem = s.mem ∧
      (s.withFetchWord nbits w).platform = s.platform

/-- An illegal command word ends with InvalidCommand: it reads no argument register and touches no memory, every result
register becomes unwritten, CMD keeps the word written, and no other instance changes (R304, R703). -/
def Obligations.IllegalWordEndsInvalidCommand : Prop :=
  ∀ (s : State) (h k : Nat) (w : CmdWord),
    s.fault = none → s.nextAction = some (h, .writeCmd k w) → k < s.instances →
    (w.toNat / 2 ^ 10 ≠ 0 ∨ w.toNat / 2 ^ 8 % 4 = 3 ∨ w.toNat % 2 ^ 8 ∉ listedOpcodes.map (·.toNat)) →
      ∃ t, step s = .next t ∧ t.selected = k ∧ t.blk.cmd = w ∧ t.blk.status = 5 ∧
        (∀ r, (t.blk.res r).wr = false) ∧ (∀ r, t.blk.arg r = (s.select k).blk.arg r) ∧
        t.blk.strategy = (s.select k).blk.strategy ∧ t.mem = s.mem ∧ t.platform = s.platform ∧ t.fault = none ∧
        ∀ j, j ≠ k → t.blocks[j]? = s.blocks[j]?

/-- Nothing but a host's action changes the machine. No agent steps once FAULT is set (R128), so nothing clears it, and a state
with FAULT set is not the end of a run; a turn at which no host acts changes nothing but the turn (R819; the stutter step is the
model's own, notes/assumptions/6.md). -/
def Obligations.OnlyHostActionsMoveTheMachine : Prop :=
  (∀ (s : State) (r : UB), s.fault = some r → step s = .fault (.faulted r) ∧ s.ended = false) ∧
  (∀ s : State, s.fault = none → s.nextAction = none → step s = .next { s with turns := s.turns.tail }) ∧
  ∀ s t : State, step s = .next t → s.fault = none

/-- A host's position index goes up by 1 after each action it takes, and by nothing else; no program changes (R110). That one
action is one write or one read, not a line of several writes, is the model's choice (notes/assumptions/18.md). -/
def Obligations.HostPositionAdvances : Prop :=
  ∀ (s t : State) (h : Nat) (a : HostAction), s.nextAction = some (h, a) → step s = .next t →
    t.turns = s.turns.tail ∧ t.hosts.length = s.hosts.length ∧
      ∀ (j : Nat) (x : HostProgram), s.hosts[j]? = some x →
        ∃ y, t.hosts[j]? = some y ∧ y.program = x.program ∧ y.p = if j = h then x.p + 1 else x.p

/-! ### The host's registers and memory -/

/-- The register map (R102): the twenty offsets, and every other one reserved. -/
def Obligations.RegisterMapIsComplete : Prop :=
  (∀ off, regAt off ≠ none ↔ off % 8 = 0 ∧ off < 0xA0) ∧
    [0x00, 0x08, 0x10, 0x18, 0x20, 0x28, 0x30, 0x38, 0x40, 0x48].map regAt =
      [some .cmd, some .status, some .caps, some .strategy, some (.arg .n), some (.arg .seed), some (.arg .arg0),
        some (.arg .ctrlBase), some (.arg .ctrlLen), some (.arg .dataBase)] ∧
    [0x50, 0x58, 0x60, 0x68, 0x70, 0x78, 0x80, 0x88, 0x90, 0x98].map regAt =
      [some (.arg .dataLen), some (.arg .valBase), some (.arg .valLen), some (.res .resCtrl), some (.res .resData),
        some (.res .resVal), some (.res .resDesc0), some (.res .resDesc1), some (.res .resDesc2), some (.res .resDesc3)]

/-- A host's write of an argument register stores the value, sets WR, and changes nothing else of any instance (R103, R106). -/
def Obligations.ArgumentWriteChangesOneRegister : Prop :=
  ∀ (s : State) (h k off : Nat) (v : Word) (r : ArgReg),
    s.fault = none → s.nextAction = some (h, .writeReg k off v) → k < s.instances → regAt off = some (.arg r) →
      ∃ t, step s = .next t ∧ t.selected = k ∧ t.blk.arg r = ⟨v, true⟩ ∧
        (∀ r', r' ≠ r → t.blk.arg r' = (s.select k).blk.arg r') ∧ (∀ q, t.blk.res q = (s.select k).blk.res q) ∧
        t.blk.cmd = (s.select k).blk.cmd ∧ t.blk.status = (s.select k).blk.status ∧
        t.blk.strategy = (s.select k).blk.strategy ∧ t.mem = s.mem ∧ t.platform = s.platform ∧
        ∀ j, j ≠ k → t.blocks[j]? = s.blocks[j]?

/-- A host access to an unlisted offset, and a host write of a read-only register, is UB(ReservedRegister) (R101): FAULT is set,
and no register, no memory and no observation changes. -/
def Obligations.ReservedAccessFaults : Prop :=
  ∀ (s : State) (h k off : Nat), s.fault = none → k < s.instances →
    (∀ v, s.nextAction = some (h, .writeReg k off v) → off ≠ 0 → (∀ r, regAt off ≠ some (.arg r)) →
      AccessFaults s .reservedRegister) ∧
    (s.nextAction = some (h, .readReg k off) → (off % 8 ≠ 0 ∨ 0xA0 ≤ off) →
      AccessFaults s .reservedRegister)

/-- What a host reads: CMD, STATUS, STRATEGY and CAPS, whose bit 0 is VEC_CAP and whose other bits are 0, and the value of a
written register, recorded as an observation; a read of a register with WR = 0 is a model fault and records nothing (R106 to
R109, R111). Neither changes a register or memory. -/
def Obligations.HostReadsRegisters : Prop :=
  ∀ (s : State) (h k off : Nat) (b : Block),
    s.fault = none → s.nextAction = some (h, .readReg k off) → s.blocks[k]? = some b →
    let sees (v : Word) : Prop :=
      ∃ t, step s = .next t ∧ t.blocks = s.blocks ∧ t.mem = s.mem ∧ t.platform = s.platform ∧
        ∀ j, (t.hosts[j]?).map (fun x => x.observed) =
          (s.hosts[j]?).map fun x => if j = h then x.observed ++ [.reg k off v] else x.observed
    (off = 0x00 → sees (b.cmd.setWidth 64)) ∧ (off = 0x08 → sees (b.status.setWidth 64)) ∧
      (off = 0x10 → sees (BitVec.ofNat 64 s.platform.vecCap.toNat)) ∧ (off = 0x18 → sees b.strategy) ∧
      (∀ r, regAt off = some (.arg r) →
        ((b.arg r).wr = true → sees (b.arg r).val) ∧
        ((b.arg r).wr = false → AccessFaults s .unwrittenArgument)) ∧
      ∀ r, regAt off = some (.res r) →
        ((b.res r).wr = true → sees (b.res r).val) ∧
        ((b.res r).wr = false → AccessFaults s .unwrittenResult)

/-- A host's write of memory stores its bytes and nothing else, and its read records what memory holds and changes none of it
(R126, R819). An access to a byte outside Backed faults, the model's choice, notes/assumptions/8.md. -/
def Obligations.HostMemoryAccess : Prop :=
  ∀ (s : State) (h : Nat) (a : Word), s.fault = none → s.mem.wf = true →
    (∀ bs, s.nextAction = some (h, .writeMem a bs) →
      ((∀ j, j < bs.length → backed s.platform (a.toNat + j) = true) →
        ∃ t, step s = .next t ∧ t.blocks = s.blocks ∧ t.platform = s.platform ∧
          (∀ x, (x < a.toNat ∨ a.toNat + bs.length ≤ x) → t.mem.read x = s.mem.read x) ∧
          ∀ j, j < bs.length → t.mem.read (a.toNat + j) = bs.getD j 0) ∧
      ((∃ j, j < bs.length ∧ backed s.platform (a.toNat + j) = false) → step s = .fault .hostUnbacked)) ∧
    ∀ k, s.nextAction = some (h, .readMem a k) →
      ((∀ j, j < k → backed s.platform (a.toNat + j) = true) →
        ∃ t, step s = .next t ∧ t.blocks = s.blocks ∧ t.platform = s.platform ∧ t.mem = s.mem ∧
          ∀ x, s.hosts[h]? = some x → (t.hosts[h]?).map (fun y => y.observed) =
            some (x.observed ++ [.bytes a ((List.range k).map fun j => s.mem.read (a.toNat + j))])) ∧
      ((∃ j, j < k ∧ backed s.platform (a.toNat + j) = false) → step s = .fault .hostUnbacked)

/-! ### The tag table -/

/-- R401: `minimalBytes x` is the smallest k ≥ 0 with x < 2^(8k). -/
def Obligations.MinimalBytesIsLeast : Prop :=
  ∀ x k : Nat, x < 2 ^ (8 * k) ↔ minimalBytes x ≤ k

/-- R402: the smallest tag whose length is at least minimal_bytes(x), and the ranges of its table. -/
def Obligations.TagIsSmallestThatFits : Prop :=
  (∀ (v : Variant) (x : Nat), x < 2 ^ elemBits v →
    minimalBytes x ≤ tagLen v (tagOf v x) ∧ ∀ t : Tag, minimalBytes x ≤ tagLen v t → (tagOf v x).toNat ≤ t.toNat) ∧
  (∀ x, x < 2 ^ 32 →
    tagOf .v1234 x = if x ≤ 0xFF then 0 else if x ≤ 0xFFFF then 1 else if x ≤ 0xFFFFFF then 2 else 3) ∧
  (∀ x, x < 2 ^ 32 → tagOf .v0124 x = if x = 0 then 0 else if x ≤ 0xFF then 1 else if x ≤ 0xFFFF then 2 else 3) ∧
  ∀ x, x < 2 ^ 64 →
    tagOf .v1248 x = if x ≤ 0xFF then 0 else if x ≤ 0xFFFF then 1 else if x ≤ 0xFFFFFFFF then 2 else 3

/-- R404: the length of a tag is its entry of LEN, and a value fits in the bytes of its tag. -/
def Obligations.ValueFitsItsTagLength : Prop :=
  (∀ (v : Variant) (t : Tag), (lens v)[t.toNat]? = some (tagLen v t)) ∧
    ∀ (v : Variant) (x : Nat), x < 2 ^ elemBits v → x < 2 ^ (8 * tagLen v (tagOf v x))

/-- R405 and R406: Pack's value, and that Pack and Unpack are mutually inverse. -/
def Obligations.PackAndUnpackAreInverse : Prop :=
  (∀ t0 t1 t2 t3 : Tag,
    (pack t0 t1 t2 t3).toNat = t0.toNat + 4 * t1.toNat + 16 * t2.toNat + 64 * t3.toNat ∧
      unpack (pack t0 t1 t2 t3) = [t0, t1, t2, t3]) ∧
  ∀ c : Byte, pack (laneTag c 0) (laneTag c 1) (laneTag c 2) (laneTag c 3) = c ∧
    unpack c = [c.extractLsb' 0 2, c.extractLsb' 2 2, c.extractLsb' 4 2, c.extractLsb' 6 2]

/-- R410, TAG_FOR: its encoding, the unwritten operand, the width check, and the result; nothing else changes. -/
def Obligations.TagForResult : Prop :=
  ∀ (v : Variant) (s : State),
    encodeCmd (.tagFor v) = BitVec.ofNat 32 (2 ^ 8 * v.code.toNat + 0x01) ∧
    (s.blk.arg0.wr = false → exec (.tagFor v) s = .next (s.setFault .unwrittenArgument)) ∧
    (s.blk.arg0.wr = true → 2 ^ elemBits v ≤ s.blk.arg0.val.toNat →
      exec (.tagFor v) s = .next (s.raise .overflow [])) ∧
    (s.blk.arg0.wr = true → s.blk.arg0.val.toNat < 2 ^ elemBits v →
      exec (.tagFor v) s = .next { s with blk := { s.blk with
        resVal := ⟨BitVec.ofNat 64 (tagOf v s.blk.arg0.val.toNat).toNat, true⟩, status := 0 } })

/-- R411, BYTE_LEN. -/
def Obligations.ByteLenResult : Prop :=
  ∀ (v : Variant) (s : State),
    encodeCmd (.byteLen v) = BitVec.ofNat 32 (2 ^ 8 * v.code.toNat + 0x02) ∧
    (s.blk.arg0.wr = false → exec (.byteLen v) s = .next (s.setFault .unwrittenArgument)) ∧
    (s.blk.arg0.wr = true → 3 < s.blk.arg0.val.toNat →
      exec (.byteLen v) s = .next (s.raise .invalidCommand [])) ∧
    (s.blk.arg0.wr = true → s.blk.arg0.val.toNat ≤ 3 →
      exec (.byteLen v) s = .next { s with blk := { s.blk with
        resVal := ⟨BitVec.ofNat 64 ((lens v).getD s.blk.arg0.val.toNat 0), true⟩, status := 0 } })

/-- R412, PACK_CTRL: the tags stand in bits 1:0, 9:8, 17:16 and 25:24 of ARG0, and every other bit must be 0. -/
def Obligations.PackCtrlResult : Prop :=
  ∀ (v : Variant) (s : State),
    encodeCmd (.packCtrl v) = BitVec.ofNat 32 (2 ^ 8 * v.code.toNat + 0x03) ∧
    (s.blk.arg0.wr = false → exec (.packCtrl v) s = .next (s.setFault .unwrittenArgument)) ∧
    (s.blk.arg0.wr = true → s.blk.arg0.val &&& ~~~0x03030303 ≠ 0 →
      exec (.packCtrl v) s = .next (s.raise .invalidCommand [])) ∧
    (s.blk.arg0.wr = true → s.blk.arg0.val &&& ~~~0x03030303 = 0 →
      exec (.packCtrl v) s = .next { s with blk := { s.blk with
        resVal := ⟨BitVec.ofNat 64 (s.blk.arg0.val.toNat % 4 + 4 * (s.blk.arg0.val.toNat / 2 ^ 8 % 4) +
          16 * (s.blk.arg0.val.toNat / 2 ^ 16 % 4) + 64 * (s.blk.arg0.val.toNat / 2 ^ 24 % 4)), true⟩, status := 0 } })

/-- R413, UNPACK_CTRL. -/
def Obligations.UnpackCtrlResult : Prop :=
  ∀ (v : Variant) (s : State),
    encodeCmd (.unpackCtrl v) = BitVec.ofNat 32 (2 ^ 8 * v.code.toNat + 0x04) ∧
    (s.blk.arg0.wr = false → exec (.unpackCtrl v) s = .next (s.setFault .unwrittenArgument)) ∧
    (s.blk.arg0.wr = true → 0xFF < s.blk.arg0.val.toNat →
      exec (.unpackCtrl v) s = .next (s.raise .invalidCommand [])) ∧
    (s.blk.arg0.wr = true → s.blk.arg0.val.toNat ≤ 0xFF →
      exec (.unpackCtrl v) s = .next { s with blk := { s.blk with
        resVal := ⟨BitVec.ofNat 64 (s.blk.arg0.val.toNat % 4 + 2 ^ 8 * (s.blk.arg0.val.toNat / 4 % 4) +
          2 ^ 16 * (s.blk.arg0.val.toNat / 16 % 4) + 2 ^ 24 * (s.blk.arg0.val.toNat / 64)), true⟩, status := 0 } })

/-! ### The shuffle tables and the engine -/

/-- R556, SHUF_ENTRY: HALF = 0 reads SHUF and LSUM at IDX, HALF = 1 reads SHUF2 and LSUM2. -/
def Obligations.ShufEntryResult : Prop :=
  ∀ (v : Variant) (s : State),
    let a := s.blk.arg0.val.toNat
    let d := if a / 2 ^ 8 % 2 = 0 then shuf v (BitVec.ofNat 8 a) else shuf2 (BitVec.ofNat 4 a)
    let sum := if a / 2 ^ 8 % 2 = 0 then lsum v (BitVec.ofNat 8 a) else lsum2 (BitVec.ofNat 4 a)
    let word : Nat → Reg64 := fun j => ⟨BitVec.ofNat 64 (leNat (((paddedDescriptor d).drop (8 * j)).take 8)), true⟩
    let illegal : Prop := 2 ^ 9 ≤ a ∨ (a / 2 ^ 8 % 2 = 1 ∧ (v ≠ .v1248 ∨ a / 2 ^ 4 % 2 ^ 4 ≠ 0))
    encodeCmd (.shufEntry v) = BitVec.ofNat 32 (2 ^ 8 * v.code.toNat + 0x23) ∧
    (s.blk.arg0.wr = false → exec (.shufEntry v) s = .next (s.setFault .unwrittenArgument)) ∧
    (s.blk.arg0.wr = true → illegal → exec (.shufEntry v) s = .next (s.raise .invalidCommand [])) ∧
    (s.blk.arg0.wr = true → ¬illegal →
      exec (.shufEntry v) s = .next { s with blk := { s.blk with
        resDesc0 := word 0, resDesc1 := word 1, resDesc2 := word 2, resDesc3 := word 3,
        resVal := ⟨BitVec.ofNat 64 sum, true⟩, status := 0 } })

/-- R555, R552 and R554: every descriptor entry is an index below the length sum or 0xFF, the length sums lie in their ranges,
and LSUM[V1248] is the sum of its two halves. -/
def Obligations.ShuffleTablesAreSound : Prop :=
  (∀ (v : Variant) (c : Byte), (shuf v c).length = 4 * elemBytes v ∧
    (∀ e ∈ shuf v c, e = 0xFF ∨ e.toNat < lsum v c) ∧ lsum v c ≤ windowBytes v) ∧
  (∀ h : BitVec 4, (shuf2 h).length = 16 ∧ (∀ e ∈ shuf2 h, e = 0xFF ∨ e.toNat < lsum2 h) ∧ 2 ≤ lsum2 h ∧
    lsum2 h ≤ 16) ∧
  (∀ c : Byte, 4 ≤ lsum .v1234 c ∧ 4 ≤ lsum .v1248 c) ∧
  ∀ c : Byte, lsum .v1248 c = lsum2 (c.extractLsb' 0 4) + lsum2 (c.extractLsb' 4 4)

/-- R558: on a full group, lane i of the permuted window is the value of the scalar accumulator of lane i, and the length sum is
the cursor advance; the same on a half group of V1248. -/
def Obligations.EngineDecodesOneGroup : Prop :=
  (∀ (v : Variant) (c : Byte) (D : Nat → Byte) (cur : Nat),
    ((List.range 4).map (permutedLane (elemBytes v) (permute (window D cur (windowBytes v)) (shuf v c))),
      cur + lsum v c) = scalarLanes v D (unpack c) cur) ∧
  ∀ (h : BitVec 4) (D : Nat → Byte) (cur : Nat),
    ((List.range 2).map (permutedLane 8 (permute (window D cur 16) (shuf2 h))), cur + lsum2 h) =
      scalarLanes .v1248 D [h.extractLsb' 0 2, h.extractLsb' 2 2] cur

/-- The vector procedure gives the values and the cursor of the scalar procedure, for every variant, granularity, element count,
control bytes, data bytes and DATA region length (43_vector_decoder.md section 3). -/
def Obligations.VectorEqualsScalarProcedure : Prop :=
  ∀ (v : Variant) (gran : Granularity) (n : Nat) (C D : Nat → Byte) (dataLen : Nat),
    vectorDecode v gran n C D dataLen = decodeStream v n C D

/-- R563: DECODE_VECTOR and DECODE_SCALAR have the same effect on every state; so has DECODE at either STRATEGY value, and none
depends on VEC_CAP or V1248_GRAN. -/
def Obligations.DecodeCommandsAgree : Prop :=
  ∀ (v : Variant) (s : State),
    exec (.decodeVector v) s = exec (.decodeScalar v) s ∧ exec (.decode v) s = exec (.decodeScalar v) s ∧
      ∀ (cap : Bool) (g : Granularity) (x : Word) (t : State),
        exec (.decodeScalar v) s = .next t →
          exec (.decodeVector v) { s with
              platform := { s.platform with vecCap := cap, gran := g }, blk := { s.blk with strategy := x } } =
            .next { t with platform := { t.platform with vecCap := cap, gran := g }, blk := { t.blk with strategy := x } }

/-! ### Streams -/

/-- R454: the sizes of an encoded stream, and the bound a host can size its regions by. -/
def Obligations.EncodedStreamSizes : Prop :=
  ∀ (v : Variant) (xs : List Nat),
    (encodeStream v xs).1.length = (xs.length + 3) / 4 ∧
      (encodeStream v xs).2.length = (xs.map fun x => tagLen v (tagOf v x)).sum ∧
      (encodeStream v xs).2.length ≤ xs.length * tagLen v 3

/-- R452: each element's length is the smallest length of the variant that holds it; the unused lanes of the last control byte
carry tag 0 (30_encoding.md section 3). -/
def Obligations.EncoderIsMinimal : Prop :=
  (∀ (v : Variant) (xs : List Nat), (∀ x ∈ xs, x < 2 ^ elemBits v) →
    ∀ (j : Nat) (h : j < xs.length),
      let L := tagLen v (elemTag (fun g => (encodeStream v xs).1.getD g 0) j)
      xs[j] < 2 ^ (8 * L) ∧ ∀ L' ∈ lens v, xs[j] < 2 ^ (8 * L') → L ≤ L') ∧
  ∀ (v : Variant) (xs : List Nat) (j : Nat), xs.length ≤ j → j < 4 * ((xs.length + 3) / 4) →
    elemTag (fun g => (encodeStream v xs).1.getD g 0) j = 0

/-- R504: decoding is lossless. -/
def Obligations.DecodeStreamInvertsEncodeStream : Prop :=
  ∀ (v : Variant) (xs : List Nat), (∀ x ∈ xs, x < 2 ^ elemBits v) →
    decodeStream v xs.length (fun g => (encodeStream v xs).1.getD g 0) (fun j => (encodeStream v xs).2.getD j 0) =
      (xs, (encodeStream v xs).2.length)

/-- R323 over the decoder: element j is the LEN[v][tag(j)] data bytes at the offset that is the sum of the lengths before it, and
nothing else; the decoder gives n values and consumes SegLen bytes. -/
def Obligations.ElementsAreSegmentedByTags : Prop :=
  ∀ (v : Variant) (n : Nat) (C D : Nat → Byte),
    (decodeStream v n C D).1.length = n ∧ (decodeStream v n C D).2 = segLen v n C ∧
      ∀ j, j < n → (decodeStream v n C D).1[j]? =
        some (leNat ((List.range (tagLen v (elemTag C j))).map fun k => D (segLen v j C + k)))

/-- What a decoder gives depends only on the valid lanes' tags and the data bytes they span: the unused lanes of the last control
byte, surplus control bytes and surplus data bytes have no effect (R325, R505 of the decoders). -/
def Obligations.UnusedLanesAndSurplusAreIgnored : Prop :=
  ∀ (v : Variant) (n : Nat) (C C' D D' : Nat → Byte),
    (∀ j, j < n → elemTag C j = elemTag C' j) → (∀ j, j < segLen v n C → D j = D' j) →
      decodeStream v n C D = decodeStream v n C' D' ∧ dataLenFn v n C = dataLenFn v n C'

/-- The length scan by groups gives the sum over the elements (46_length_scanner.md, the last sentence of its function's rule). -/
def Obligations.LengthScanEqualsSegLen : Prop :=
  ∀ (v : Variant) (n : Nat) (C : Nat → Byte), dataLenFn v n C = segLen v n C

/-- R604: the prefix sum undoes the differences of a non-decreasing sequence from the seed on, and every difference fits. -/
def Obligations.PrefixSumInvertsDeltas : Prop :=
  ∀ (v : Variant) (s : Nat) (xs : List Nat), (s :: xs).Pairwise (· ≤ ·) → (∀ x ∈ xs, x < 2 ^ elemBits v) →
    prefixSum s (deltas s xs) = xs ∧ (∀ d ∈ deltas s xs, d < 2 ^ elemBits v) ∧
      ∀ (j : Nat) (h : j < xs.length), (deltas s xs)[j]? = some (xs[j] - (s :: xs).getD j 0)

/-- Decoding can resume at a group boundary, with the control bytes and the data bytes moved on and the running sum as seed
(45_delta.md section 3). -/
def Obligations.ResumeAtGroupBoundary : Prop :=
  ∀ (v : Variant) (n m s : Nat) (C D : Nat → Byte), 4 * m ≤ n →
    let skipped := (decodeStream v (4 * m) C D).1
    let rest := decodeStream v (n - 4 * m) (fun g => C (m + g)) (fun j => D (segLen v (4 * m) C + j))
    decodeStream v n C D = (skipped ++ rest.1, segLen v (4 * m) C + rest.2) ∧
      (prefixSum s (decodeStream v n C D).1).drop (4 * m) = prefixSum (s + skipped.sum) rest.1

/-! ### The commands over memory -/

/-- ENCODE completes when the host has done its duty and the regions are large enough: the whole next state (41_encoder.md). -/
def Obligations.EncodeCompletes : Prop :=
  ∀ (v : Variant) (s : State), Ready (.encode v) s →
    let n := s.argVal .n
    let CD := encodeStream v (valElems v s n)
    n ≤ s.argVal .valLen → (n + 3) / 4 ≤ s.argVal .ctrlLen → CD.2.length ≤ s.argVal .dataLen →
      exec (.encode v) s = .next { s with
        mem := (s.mem.writeBytes (s.argVal .ctrlBase) CD.1).writeBytes (s.argVal .dataBase) CD.2
        blk := { s.blk with
          resCtrl := ⟨BitVec.ofNat 64 ((n + 3) / 4), true⟩, resData := ⟨BitVec.ofNat 64 CD.2.length, true⟩, status := 0 } }

/-- What ENCODE and ENCODE_DELTAS store, byte by byte: the control bytes from CTRL_BASE, the data bytes from DATA_BASE, and
nothing else (41_encoder.md; 45_delta.md; 20_memory.md section 4). -/
def Obligations.EncodersStoreExactlyTheStream : Prop :=
  ∀ (v : Variant) (i : Instr) (s t : State) (xs : List Nat),
    (i = .encode v ∧ xs = valElems v s (s.argVal .n)) ∨
      (i = .encodeDeltas v ∧ xs = deltas (s.argVal .seed) (valElems v s (s.argVal .n))) →
    s.mem.wf = true → EndsOk i s t →
      let CD := encodeStream v xs
      (∀ g, g < CD.1.length → t.mem.read (s.argVal .ctrlBase + g) = CD.1.getD g 0) ∧
      (∀ k, k < CD.2.length → t.mem.read (s.argVal .dataBase + k) = CD.2.getD k 0) ∧
      ∀ a, (a < s.argVal .ctrlBase ∨ s.argVal .ctrlBase + CD.1.length ≤ a) →
        (a < s.argVal .dataBase ∨ s.argVal .dataBase + CD.2.length ≤ a) → t.mem.read a = s.mem.read a

/-- DECODE_SCALAR, DECODE and DECODE_VECTOR complete when the host has done its duty and the regions are large enough: the whole
next state (42_scalar_decoder.md, 43_vector_decoder.md). -/
def Obligations.DecodeCommandsComplete : Prop :=
  ∀ (v : Variant) (i : Instr) (s : State), i ∈ [.decodeScalar v, .decode v, .decodeVector v] → Ready i s →
    let n := s.argVal .n
    n ≤ s.argVal .valLen → (n + 3) / 4 ≤ s.argVal .ctrlLen → segLen v n (ctrlByte s) ≤ s.argVal .dataLen →
      exec i s = .next { s with
        mem := s.mem.writeBytes (s.argVal .valBase)
          ((decodeStream v n (ctrlByte s) (dataByte s)).1.flatMap (leBytes (elemBytes v)))
        blk := { s.blk with
          resCtrl := ⟨BitVec.ofNat 64 ((n + 3) / 4), true⟩
          resData := ⟨BitVec.ofNat 64 (segLen v n (ctrlByte s)), true⟩
          status := 0 } }

/-- What the decode commands store, element by element: the decoded values, or for DECODE_DELTAS their running sums from the seed
on, and nothing else (42_scalar_decoder.md; 45_delta.md; 20_memory.md section 4). -/
def Obligations.DecodersStoreExactlyTheValues : Prop :=
  ∀ (v : Variant) (i : Instr) (s t : State) (xs : List Nat),
    (i ∈ [.decodeScalar v, .decode v, .decodeVector v] ∧
        xs = (decodeStream v (s.argVal .n) (ctrlByte s) (dataByte s)).1) ∨
      (i = .decodeDeltas v ∧
        xs = prefixSum (s.argVal .seed) (decodeStream v (s.argVal .n) (ctrlByte s) (dataByte s)).1) →
    s.mem.wf = true → EndsOk i s t →
      valElems v t (s.argVal .n) = xs ∧
      ∀ a, (a < s.argVal .valBase ∨ s.argVal .valBase + s.argVal .n * elemBytes v ≤ a) → t.mem.read a = s.mem.read a

/-- ENCODE_DELTAS completes on a non-decreasing sequence from a seed that fits: the whole next state (45_delta.md). -/
def Obligations.EncodeDeltasCompletes : Prop :=
  ∀ (v : Variant) (s : State), Ready (.encodeDeltas v) s →
    let n := s.argVal .n
    let xs := valElems v s n
    let CD := encodeStream v (deltas (s.argVal .seed) xs)
    s.argVal .seed < 2 ^ elemBits v → n ≤ s.argVal .valLen → (s.argVal .seed :: xs).Pairwise (· ≤ ·) →
    (n + 3) / 4 ≤ s.argVal .ctrlLen → CD.2.length ≤ s.argVal .dataLen →
      exec (.encodeDeltas v) s = .next { s with
        mem := (s.mem.writeBytes (s.argVal .ctrlBase) CD.1).writeBytes (s.argVal .dataBase) CD.2
        blk := { s.blk with
          resCtrl := ⟨BitVec.ofNat 64 ((n + 3) / 4), true⟩
          resData := ⟨BitVec.ofNat 64 CD.2.length, true⟩
          resVal := ⟨BitVec.ofNat 64 (xs.getLast?.getD (s.argVal .seed)), true⟩
          status := 0 } }

/-- DECODE_DELTAS completes when no running sum reaches 2^W: the whole next state (45_delta.md). -/
def Obligations.DecodeDeltasCompletes : Prop :=
  ∀ (v : Variant) (s : State), Ready (.decodeDeltas v) s →
    let n := s.argVal .n
    let seed := s.argVal .seed
    let ds := (decodeStream v n (ctrlByte s) (dataByte s)).1
    seed < 2 ^ elemBits v → n ≤ s.argVal .valLen → (n + 3) / 4 ≤ s.argVal .ctrlLen →
    segLen v n (ctrlByte s) ≤ s.argVal .dataLen → seed + ds.sum < 2 ^ elemBits v →
      exec (.decodeDeltas v) s = .next { s with
        mem := s.mem.writeBytes (s.argVal .valBase) ((prefixSum seed ds).flatMap (leBytes (elemBytes v)))
        blk := { s.blk with
          resCtrl := ⟨BitVec.ofNat 64 ((n + 3) / 4), true⟩
          resData := ⟨BitVec.ofNat 64 (segLen v n (ctrlByte s)), true⟩
          resVal := ⟨BitVec.ofNat 64 (seed + ds.sum), true⟩
          status := 0 } }

/-- SKIP_DELTAS completes when no running sum reaches 2^W: the whole next state; it writes no memory (45_delta.md). -/
def Obligations.SkipDeltasCompletes : Prop :=
  ∀ (v : Variant) (s : State), Ready (.skipDeltas v) s →
    let n := s.argVal .n
    let seed := s.argVal .seed
    let ds := (decodeStream v n (ctrlByte s) (dataByte s)).1
    seed < 2 ^ elemBits v → (n + 3) / 4 ≤ s.argVal .ctrlLen → segLen v n (ctrlByte s) ≤ s.argVal .dataLen →
    seed + ds.sum < 2 ^ elemBits v →
      exec (.skipDeltas v) s = .next { s with
        blk := { s.blk with
          resCtrl := ⟨BitVec.ofNat 64 ((n + 3) / 4), true⟩
          resData := ⟨BitVec.ofNat 64 (segLen v n (ctrlByte s)), true⟩
          resVal := ⟨BitVec.ofNat 64 (seed + ds.sum), true⟩
          status := 0 } }

/-- A command that may run (`Ready`) and whose contract is broken ends with the model fault its rule names, whatever errors it
could report otherwise (R605; 46_length_scanner.md; 60_exceptions.md section 2). DATA_LEN over a control region that is too short
breaks no contract here, the model's reading of R651 beside R702 (notes/assumptions/9.md). -/
def Obligations.BrokenContractFaults : Prop :=
  ∀ (i : Instr) (s : State), Ready i s → contractBroken i s →
    ∃ r, exec i s = .next (s.setFault r) ∧
      ((∃ v, i = .encodeDeltas v ∧ r = .nonMonotone) ∨
        (∃ v, i ∈ [.decodeDeltas v, .skipDeltas v] ∧ r = .prefixOverflow) ∨ ∃ v, i = .dataLen v ∧ r = .lengthOverflow)

/-- A command that may run and keeps its contract reports one error whose condition holds, if there is one, and ends with
STATUS = OK otherwise (the table of 60_exceptions.md section 1; section 2; 46_length_scanner.md). DATA_LEN over a control region
that is too short reports TruncatedInput whatever its total, where R702 lists LengthOverflow first: the model's reading of R651
beside R702 (notes/assumptions/9.md). -/
def Obligations.ReportedErrorsAreThoseOfTheRules : Prop :=
  ∀ (i : Instr) (s : State), Ready i s → ¬contractBroken i s →
    ((∃ e, reportable i s e) → ∃ e, reportable i s e ∧ exec i s = .next (s.raise e (usesOf i s))) ∧
    ((∀ e, ¬reportable i s e) → ∃ t, exec i s = .next t ∧ t.fault = s.fault ∧ t.blk.status = 0)

/-- A command ends without a model fault exactly when its arguments are written, its regions are in order, and its contract holds.
It has no step exactly when it would only be stuck, and no command is refused (60_exceptions.md sections 2 and 3). DATA_LEN over a
control region that is too short always ends without a fault, the model's reading of 46_length_scanner.md R651 beside R702
(notes/assumptions/9.md). -/
def Obligations.CommandsEndExactlyWhen : Prop :=
  ∀ (i : Instr) (s : State),
    (s.fault = none → ((∃ t, exec i s = .next t ∧ t.fault = none) ↔ Ready i s ∧ ¬contractBroken i s)) ∧
    (exec i s = .fault .stuck ↔
      (∀ r ∈ argsRead i, (s.blk.arg r).wr = true) ∧ regionFaults (usesOf i s) = [] ∧
        ∃ u ∈ usesOf i s, ∃ a, u.base ≤ a ∧ a < u.base + u.size ∧ backed s.platform a = false) ∧
    (∀ f, exec i s = .fault f → f = .stuck) ∧ ∀ r, exec i s ≠ .refused r

/-- R651, DATA_LEN: the short control region, the total that does not fit, and the result; no memory is written. That a control
region that is too short reports TruncatedInput whatever the total is the model's reading of R651's lines beside R702's step 6
(notes/assumptions/9.md). -/
def Obligations.DataLenResult : Prop :=
  ∀ (v : Variant) (s : State),
    encodeCmd (.dataLen v) = BitVec.ofNat 32 (2 ^ 8 * v.code.toNat + 0x40) ∧
    ((s.blk.n.wr = false ∨ s.blk.ctrlBase.wr = false ∨ s.blk.ctrlLen.wr = false) →
      exec (.dataLen v) s = .next (s.setFault .unwrittenArgument)) ∧
    (Ready (.dataLen v) s →
      let n := s.argVal .n
      (s.argVal .ctrlLen < (n + 3) / 4 →
        exec (.dataLen v) s = .next (s.raise .truncatedInput (usesOf (.dataLen v) s))) ∧
      ((n + 3) / 4 ≤ s.argVal .ctrlLen → 2 ^ 64 ≤ segLen v n (ctrlByte s) →
        exec (.dataLen v) s = .next (s.setFault .lengthOverflow)) ∧
      ((n + 3) / 4 ≤ s.argVal .ctrlLen → segLen v n (ctrlByte s) < 2 ^ 64 →
        exec (.dataLen v) s = .next { s with
          blk := { s.blk with
            resData := ⟨BitVec.ofNat 64 (segLen v n (ctrlByte s)), true⟩
            resCtrl := ⟨BitVec.ofNat 64 ((n + 3) / 4), true⟩
            status := 0 } }))

/-- R652: DATA_LEN gives the number of data bytes a decode of the same elements reports. -/
def Obligations.DataLenMatchesDecoders : Prop :=
  ∀ (v : Variant) (i : Instr) (s t : State),
    i ∈ [.decodeScalar v, .decodeVector v, .decodeDeltas v, .skipDeltas v] →
    EndsOk i s t → ∃ u, EndsOk (.dataLen v) s u ∧ u.blk.resData = t.blk.resData

/-! ### Whole-machine round trips -/

/-- The round trip through memory: a stream ENCODE wrote decodes into any VAL region that is large enough to the values ENCODE
read, by each decode command (41_encoder.md, 42_scalar_decoder.md). -/
def Obligations.EncodeThenDecodeRestoresValues : Prop :=
  ∀ (v : Variant) (i : Instr) (s t : State) (base len : Word),
    i ∈ [.decodeScalar v, .decode v, .decodeVector v] → s.mem.wf = true →
    EndsOk (.encode v) s t → Ready i (withValRegion t base len) → s.argVal .n ≤ len.toNat →
      ∃ u, EndsOk i (withValRegion t base len) u ∧
        valElems v u (s.argVal .n) = valElems v s (s.argVal .n) ∧ u.blk.resData = t.blk.resData ∧
        u.blk.resCtrl = t.blk.resCtrl

/-- R606: the delta round trip through memory, and SKIP_DELTAS over the same stream. -/
def Obligations.DeltaRoundTripThroughMemory : Prop :=
  ∀ (v : Variant) (s t : State) (base len : Word), s.mem.wf = true →
    EndsOk (.encodeDeltas v) s t →
    Ready (.decodeDeltas v) (withValRegion t base len) → s.argVal .n ≤ len.toNat →
      ∃ u w, EndsOk (.decodeDeltas v) (withValRegion t base len) u ∧
        valElems v u (s.argVal .n) = valElems v s (s.argVal .n) ∧
        EndsOk (.skipDeltas v) (withValRegion t base len) w ∧
        w.blk.resVal = ⟨BitVec.ofNat 64 ((valElems v s (s.argVal .n)).getLast?.getD (s.argVal .seed)), true⟩ ∧
        w.blk.resData = u.blk.resData

/-- SKIP_DELTAS gives the final value and the byte count of a full DECODE_DELTAS (45_delta.md section 3). -/
def Obligations.SkipMatchesDecodeDeltas : Prop :=
  ∀ (v : Variant) (s t : State), EndsOk (.decodeDeltas v) s t →
    ∃ u, EndsOk (.skipDeltas v) s u ∧ u.blk.resVal = t.blk.resVal ∧
      u.blk.resData = t.blk.resData ∧ u.blk.resCtrl = t.blk.resCtrl ∧ u.mem = s.mem

/-! ### Frames, errors and faults of every command -/

/-- No command changes an argument register, CMD, STRATEGY, the parameters, another instance or a host, and FAULT changes only by
a model fault, which changes nothing else (10_state.md sections 2, 3 and 5). -/
def Obligations.CommandsLeaveTheRestAlone : Prop :=
  ∀ (i : Instr) (s t : State), exec i s = .next t →
    (∀ r, t.blk.arg r = s.blk.arg r) ∧ t.blk.cmd = s.blk.cmd ∧ t.blk.strategy = s.blk.strategy ∧
      t.platform = s.platform ∧ t.below = s.below ∧ t.above = s.above ∧ t.hosts = s.hosts ∧
      t.turns = s.turns ∧ (t.fault = s.fault ∨ ∃ r, t = s.setFault r)

/-- R105: a command that ends with STATUS = OK writes exactly the result registers its rule names; one that ends with a reported
error makes every one unwritten; no other action of a host changes one, though it fault. -/
def Obligations.ResultRegistersWritten : Prop :=
  (∀ (i : Instr) (s t : State), EndsOk i s t →
    (∀ r ∈ resultsOf i, (t.blk.res r).wr = true) ∧ ∀ r, r ∉ resultsOf i → t.blk.res r = s.blk.res r) ∧
  (∀ (i : Instr) (s t : State), exec i s = .next t → t.fault = none → t.blk.status ≠ 0 →
    ∀ r, (t.blk.res r).wr = false) ∧
  ∀ (s t : State) (h : Nat) (a : HostAction), s.nextAction = some (h, a) → (∀ k w, a ≠ .writeCmd k w) →
    step s = .next t → ∀ (k : Nat) (r : ResReg),
      (t.blocks[k]?).map (fun b : Block => b.res r) = (s.blocks[k]?).map (fun b : Block => b.res r)

/-- No command writes a byte outside its output regions, and SHUF_ENTRY, DATA_LEN, SKIP_DELTAS and the tag-table commands write
no byte at all (20_memory.md section 4). -/
def Obligations.CommandsStoreOnlyToOutputs : Prop :=
  (∀ (i : Instr) (s t : State), exec i s = .next t → ∀ a, ¬inOutput (usesOf i s) a → t.mem.read a = s.mem.read a) ∧
  ∀ (v : Variant) (i : Instr) (s t : State),
    i ∈ [.tagFor v, .byteLen v, .packCtrl v, .unpackCtrl v, .shufEntry v, .skipDeltas v, .dataLen v] →
    exec i s = .next t → t.mem = s.mem

/-- R703: all that a reported error does. STATUS holds the code, every result register is unwritten, each byte of each output
region is a draw of its own, and nothing else changes; no byte changes when the error is InvalidCommand. -/
def Obligations.ReportedErrorEffect : Prop :=
  (∀ (i : Instr) (s t : State), s.mem.wf = true → exec i s = .next t → t.fault = none → t.blk.status ≠ 0 →
    (∃ e : Status, e ≠ .ok ∧ e ≠ .capabilityMismatch ∧ t.blk.status = e.code) ∧
    (∀ r, (t.blk.res r).wr = false) ∧
    (t.blk.status = Status.invalidCommand.code → t.mem = s.mem) ∧
    (t.blk.status ≠ Status.invalidCommand.code → ∃ draw : Nat → Nat,
      (∀ a b, inOutput (usesOf i s) a → inOutput (usesOf i s) b → draw a = draw b → a = b) ∧
      ∀ a, inOutput (usesOf i s) a → s.draws ≤ draw a ∧ draw a < t.draws ∧ t.mem.read a = Config.drawByte (draw a)) ∧
    (∀ a, ¬inOutput (usesOf i s) a → t.mem.read a = s.mem.read a) ∧
    (∀ r, t.blk.arg r = s.blk.arg r) ∧ t.blk.cmd = s.blk.cmd ∧ t.blk.strategy = s.blk.strategy ∧
    t.platform = s.platform ∧ t.fault = s.fault ∧ t.below = s.below ∧ t.above = s.above ∧ t.hosts = s.hosts ∧
    t.turns = s.turns) ∧
  ∀ (s t : State) (w : CmdWord), (∀ i, decodeCmd w ≠ .ok i) → commandWrite exec s w = .next t →
    t.blk.status = Status.invalidCommand.code ∧ (∀ r, (t.blk.res r).wr = false) ∧ t.mem = s.mem ∧
      (∀ r, t.blk.arg r = s.blk.arg r) ∧ t.blk.cmd = w ∧ t.blk.strategy = s.blk.strategy ∧ t.platform = s.platform ∧
      t.fault = s.fault ∧ t.below = s.below ∧ t.above = s.above ∧ t.hosts = s.hosts ∧ t.turns = s.turns

/-- R710: a model fault, of a command or of a host's access, sets FAULT where it was none and writes no register and no memory; no
agent takes a step after it, and the faulted state is not the end of a run. CMD holds the word of a command that faulted, the
model's reading of R107 (notes/assumptions/7.md). -/
def Obligations.ModelFaultEffect : Prop :=
  (∀ (i : Instr) (s t : State), exec i s = .next t → t.fault ≠ s.fault →
    ∃ r, s.fault = none ∧ t = { s with fault := some r }) ∧
  ∀ s t : State, step s = .next t → t.fault ≠ none →
    ∃ (h : Nat) (a : HostAction) (r : UB), s.nextAction = some (h, a) ∧ t.fault = some r ∧
      (t.blocks = match a with
        | .writeCmd k w => s.blocks.modify k fun b => b.setCmd w
        | _ => s.blocks) ∧
      t.mem = s.mem ∧ t.platform = s.platform ∧
      (∀ j : Nat, (t.hosts[j]?).map HostProgram.observed = (s.hosts[j]?).map HostProgram.observed) ∧
      t.ended = false ∧ step t = .fault (.faulted r)

/-- A command that reads an argument register with WR = 0 faults, before any other check (10_state.md section 2). -/
def Obligations.UnwrittenArgumentFaults : Prop :=
  ∀ (i : Instr) (s : State) (r : ArgReg), r ∈ argsRead i → (s.blk.arg r).wr = false →
    exec i s = .next (s.setFault .unwrittenArgument)

/-- R205, R207 and R208: when the regions of a command fault, and for which reasons. An output region overlaps another region
exactly when the two share a byte; of a region that wraps, the bytes are counted without wrapping, the model's choice
(notes/assumptions/11.md). -/
def Obligations.RegionFaultReasons : Prop :=
  ∀ uses : List RegionUse,
    (.regionWrap ∈ regionFaults uses ↔ ∃ u ∈ uses, 2 ^ 64 < u.base + u.size) ∧
    (.misalignedValues ∈ regionFaults uses ↔ ∃ u ∈ uses, u.base % u.align ≠ 0) ∧
    (.overlap ∈ regionFaults uses ↔
      ∃ (p q : Nat) (u w : RegionUse), p < q ∧ uses[p]? = some u ∧ uses[q]? = some w ∧
        (u.output = true ∨ w.output = true) ∧ ∃ a, (u.base ≤ a ∧ a < u.base + u.size) ∧ w.base ≤ a ∧ a < w.base + w.size) ∧
    ∀ r ∈ regionFaults uses, r = .regionWrap ∨ r = .misalignedValues ∨ r = .overlap

/-- A command whose regions fault ends with one of the reasons; one with a byte outside Backed has no step, and no byte of a
register block is in Backed (20_memory.md section 3; 60_exceptions.md section 2). A register block near 2^64 is counted without
wrapping, the model's choice (notes/assumptions/17.md). -/
def Obligations.RegionChecksStopCommands : Prop :=
  (∀ (i : Instr) (s : State), (∀ r ∈ argsRead i, (s.blk.arg r).wr = true) →
    (regionFaults (usesOf i s) ≠ [] →
      ∃ r ∈ regionFaults (usesOf i s), exec i s = .next (s.setFault r)) ∧
    (regionFaults (usesOf i s) = [] →
      (∃ u ∈ usesOf i s, ∃ a, u.base ≤ a ∧ a < u.base + u.size ∧ backed s.platform a = false) →
        exec i s = .fault .stuck)) ∧
  ∀ (P : Platform) (a : Nat),
    (∃ base ∈ P.regBase0 :: P.moreBases, base.toNat ≤ a ∧ a < base.toNat + 0xA0) ∨ 2 ^ 64 ≤ a → backed P a = false

/-! ### Reset and the invariant -/

/-- R800: what reset leaves, at every launch, and that `State.reset` is a launch, on no memory cell, no host and no turn (the
model's choice, notes/assumptions/2.md and 5.md). -/
def Obligations.ResetValues : Prop :=
  (∀ (P : Platform) (mem : Memory) (programs : List (List HostAction)) (turns : List Nat),
    let s := State.launch P mem programs turns
    (∀ b ∈ s.blocks, b.cmd = 0 ∧ b.status = 0 ∧ b.strategy = BitVec.ofNat 64 P.vecCap.toNat ∧
      (∀ r, (b.arg r).wr = false) ∧ ∀ r, (b.res r).wr = false) ∧
    capsValue s.platform = BitVec.ofNat 64 P.vecCap.toNat ∧ s.fault = none ∧ s.mem = mem ∧
    s.instances = P.moreBases.length + 1) ∧
  State.reset = State.launch Config.platform [] [] []

/-- The invariant holds at every launch whose memory is in canonical form and at Backed addresses (R800, R126), and so at
`State.reset`. -/
def Obligations.ResetKeepsInvariant : Prop :=
  (∀ (P : Platform) (mem : Memory) (programs : List (List HostAction)) (turns : List Nat),
    mem.wf = true → (∀ c ∈ mem, backed P c.1 = true) → (State.launch P mem programs turns).Inv) ∧
  State.reset.Inv

/-- Every step keeps the invariant: memory stays in its canonical form and at Backed addresses, STATUS holds a code of R700 that
is ever written, STRATEGY holds what reset latched, and the instances stay those of the platform. -/
def Obligations.StepKeepsInvariant : Prop :=
  ∀ s t : State, s.Inv → step s = .next t → t.Inv ∧ t.platform = s.platform
end

