-- ==== Sys2Proof/Laws/Memory.lean ====
section
/-! SUPPORT. The laws of memory and of little-endian byte sequences: read after write, the frame of a write, and that every
operation keeps the canonical form. -/

namespace Sys2Proof.Machine

/-! ### One byte -/

@[simp] theorem Memory.read_nil (a : Nat) : Memory.read [] a = Memory.unlisted := rfl

theorem Memory.read_head (a a' : Nat) (b : Byte) (m : Memory) :
    Memory.read ((a, b) :: m) a' = if a = a' then b else Memory.read m a' := rfl

/-- An address below or between the cells reads as unlisted. -/
theorem Memory.read_below (m : Memory) (a : Nat) (h : ∀ c ∈ m, a < c.1) : m.read a = Memory.unlisted := by
  induction m with
  | nil => rfl
  | cons c m ih =>
    have hc := h c List.mem_cons_self
    rw [Memory.read, if_neg (by omega), ih fun d hd => h d (List.mem_cons_of_mem _ hd)]

theorem Memory.wf_cons_iff (c : Host.Cell) (m : Memory) :
    Memory.wf (c :: m) = true ↔ c.2 ≠ Memory.unlisted ∧ (∀ d ∈ m, c.1 < d.1) ∧ Memory.wf m = true := by
  simp [Memory.wf, and_assoc]

/-- A write leaves every other address alone, whatever the form of the memory. -/
theorem Memory.read_write_other (m : Memory) (a a' : Nat) (b : Byte) (h : a' ≠ a) :
    (m.write a b).read a' = m.read a' := by
  induction m with
  | nil =>
    unfold Memory.write Memory.cons
    split
    · rfl
    · rw [Memory.read_head, if_neg (Ne.symm h)]
  | cons c m ih =>
    unfold Memory.write
    split
    · simp only [Memory.read, ih]
    · split
      · rename_i hc
        unfold Memory.cons
        split
        · simp only [Memory.read, hc, if_neg (Ne.symm h)]
        · simp only [Memory.read, hc, if_neg (Ne.symm h)]
      · unfold Memory.cons
        split
        · rfl
        · rw [Memory.read_head, if_neg (Ne.symm h)]

/-- A read after a write to the same address gives the byte written. -/
theorem Memory.read_write_same (m : Memory) (a : Nat) (b : Byte) (h : m.wf = true) : (m.write a b).read a = b := by
  induction m with
  | nil =>
    unfold Memory.write Memory.cons
    split
    · rename_i e; rw [e]; rfl
    · simp [Memory.read]
  | cons c m ih =>
    obtain ⟨_, hlt, hm⟩ := (Memory.wf_cons_iff c m).mp h
    unfold Memory.write
    split
    · simp only [Memory.read, ih hm]
      rw [if_neg (by omega)]
    · split
      · rename_i hc
        unfold Memory.cons
        split
        · rename_i e; rw [e, Memory.read_below _ _ fun d hd => hc ▸ hlt d hd]
        · simp [Memory.read]
      · unfold Memory.cons
        split
        · rename_i e
          rw [e, Memory.read_below]
          intro d hd
          rcases List.mem_cons.mp hd with rfl | hd
          · omega
          · have := hlt d hd; omega
        · simp [Memory.read]

/-- Every cell of a written memory is the byte written or was there before. -/
theorem Memory.mem_write (m : Memory) (a : Nat) (b : Byte) (d : Host.Cell) (h : d ∈ m.write a b) :
    d.1 = a ∨ d ∈ m := by
  induction m with
  | nil =>
    unfold Memory.write Memory.cons at h
    split at h
    · cases h
    · exact .inl (by rw [List.mem_singleton.mp h])
  | cons c m ih =>
    unfold Memory.write at h
    split at h
    · rcases List.mem_cons.mp h with rfl | h
      · exact .inr List.mem_cons_self
      · exact (ih h).imp id (List.mem_cons_of_mem _)
    · split at h <;>
      · unfold Memory.cons at h
        split at h
        · first
            | exact .inr (List.mem_cons_of_mem _ h)
            | exact .inr h
        · rcases List.mem_cons.mp h with rfl | h
          · exact .inl rfl
          · first
              | exact .inr (List.mem_cons_of_mem _ h)
              | exact .inr h

/-- A write keeps the canonical form. -/
theorem Memory.wf_write (m : Memory) (a : Nat) (b : Byte) (h : m.wf = true) : (m.write a b).wf = true := by
  induction m with
  | nil =>
    unfold Memory.write Memory.cons
    split
    · rfl
    · rename_i e; simp [Memory.wf, e]
  | cons c m ih =>
    obtain ⟨hne, hlt, hm⟩ := (Memory.wf_cons_iff c m).mp h
    unfold Memory.write
    split
    · rename_i hca
      refine (Memory.wf_cons_iff _ _).mpr ⟨hne, fun d hd => ?_, ih hm⟩
      rcases Memory.mem_write m a b d hd with hd | hd
      · omega
      · exact hlt d hd
    · split
      · rename_i hc
        unfold Memory.cons
        split
        · exact hm
        · rename_i e
          exact (Memory.wf_cons_iff _ _).mpr ⟨e, fun d hd => hc ▸ hlt d hd, hm⟩
      · unfold Memory.cons
        split
        · exact h
        · rename_i e
          refine (Memory.wf_cons_iff _ _).mpr ⟨e, fun d hd => ?_, h⟩
          rcases List.mem_cons.mp hd with rfl | hd
          · simp only; omega
          · have := hlt d hd; simp only; omega

/-! ### Byte sequences -/

@[simp] theorem Memory.writeBytes_nil (m : Memory) (a : Nat) : m.writeBytes a [] = m := rfl

theorem Memory.wf_writeBytes (m : Memory) (a : Nat) (bs : List Byte) (h : m.wf = true) :
    (m.writeBytes a bs).wf = true := by
  induction bs generalizing m a with
  | nil => exact h
  | cons b bs ih => exact ih _ _ (Memory.wf_write m a b h)

/-- Storing a sequence leaves every address outside it alone. -/
theorem Memory.read_writeBytes_outside (m : Memory) (a a' : Nat) (bs : List Byte)
    (h : a' < a ∨ a + bs.length ≤ a') : (m.writeBytes a bs).read a' = m.read a' := by
  induction bs generalizing m a with
  | nil => rfl
  | cons b bs ih =>
    rw [List.length_cons] at h
    rw [Memory.writeBytes, ih _ _ (by omega), Memory.read_write_other _ _ _ _ (by omega)]

/-- A stored sequence is read back byte by byte. -/
theorem Memory.read_writeBytes_inside (m : Memory) (a j : Nat) (bs : List Byte) (h : m.wf = true) (hj : j < bs.length) :
    (m.writeBytes a bs).read (a + j) = bs[j] := by
  induction bs generalizing m a j with
  | nil => simp at hj
  | cons b bs ih =>
    cases j with
    | zero =>
      rw [Memory.writeBytes, Memory.read_writeBytes_outside _ _ _ _ (by omega)]
      simpa using Memory.read_write_same m a b h
    | succ j =>
      have := ih (m.write a b) (a + 1) j (Memory.wf_write m a b h) (by simpa using hj)
      rw [Memory.writeBytes, show a + (j + 1) = a + 1 + j by omega, this]
      rfl

/-- Every cell after a sequence is stored lies in the sequence or was there before. -/
theorem Memory.mem_writeBytes (m : Memory) (a : Nat) (bs : List Byte) (d : Host.Cell) (h : d ∈ m.writeBytes a bs) :
    (a ≤ d.1 ∧ d.1 < a + bs.length) ∨ d ∈ m := by
  induction bs generalizing m a with
  | nil => exact .inr h
  | cons b bs ih =>
    rw [List.length_cons]
    rcases ih _ _ h with h | h
    · exact .inl (by omega)
    · rcases Memory.mem_write _ _ _ _ h with h | h
      · exact .inl (by omega)
      · exact .inr h

@[simp] theorem Memory.length_bytes (m : Memory) (a k : Nat) : (m.bytes a k).length = k := by simp [Memory.bytes]

/-! ### Little-endian sequences -/

@[simp] theorem length_leBytes (k x : Nat) : (leBytes k x).length = k := by
  induction k generalizing x with
  | zero => rfl
  | succ k ih => simp [leBytes, ih]

/-- LE_k(x) spells x. -/
theorem leNat_leBytes (k x : Nat) (h : x < 2 ^ (8 * k)) : leNat (leBytes k x) = x := by
  induction k generalizing x with
  | zero => simp at h; simp [leBytes, leNat, h]
  | succ k ih =>
    have hq : x / 256 < 2 ^ (8 * k) := by
      rw [Nat.div_lt_iff_lt_mul (by decide)]
      calc x < 2 ^ (8 * (k + 1)) := h
        _ = 2 ^ (8 * k) * 256 := by rw [show 8 * (k + 1) = 8 * k + 8 by omega, Nat.pow_add]
    simp only [leBytes, leNat, ih _ hq, BitVec.toNat_ofNat]
    omega

/-- A k-byte sequence spells a number below 2^(8k). -/
theorem leNat_lt (bs : List Byte) : leNat bs < 2 ^ (8 * bs.length) := by
  induction bs with
  | nil => simp [leNat]
  | cons b bs ih =>
    have hb := b.isLt
    rw [List.length_cons, show 8 * (bs.length + 1) = 8 * bs.length + 8 by omega, Nat.pow_add]
    simp only [leNat]
    omega

/-- The sequence that spells a number is LE_k of it. -/
theorem leBytes_leNat (bs : List Byte) : leBytes bs.length (leNat bs) = bs := by
  induction bs with
  | nil => rfl
  | cons b bs ih =>
    have hb := b.isLt
    have h1 : (b.toNat + 256 * leNat bs) / 256 = leNat bs := by omega
    have h2 : BitVec.ofNat 8 (b.toNat + 256 * leNat bs) = b := by
      apply BitVec.eq_of_toNat_eq
      rw [BitVec.toNat_ofNat]; omega
    simp only [List.length_cons, leBytes, leNat, h1, h2, ih]

/-- The number a sequence spells, cut in two. -/
theorem leNat_append (xs ys : List Byte) : leNat (xs ++ ys) = leNat xs + 2 ^ (8 * xs.length) * leNat ys := by
  induction xs with
  | nil => simp [leNat]
  | cons x xs ih =>
    rw [List.cons_append, leNat, ih, leNat, List.length_cons, show 8 * (xs.length + 1) = 8 * xs.length + 8 by omega,
      Nat.pow_add]
    ring

theorem Memory.readLE_lt (m : Memory) (a k : Nat) : m.readLE a k < 2 ^ (8 * k) := by
  have := leNat_lt (m.bytes a k)
  rwa [Memory.length_bytes] at this

end Sys2Proof.Machine
end

