-- ==== Sys2Proof/Laws/State.lean ====
section
/-! SUPPORT. What each named update does to each field of the state: true by unfolding the update once. -/

namespace Sys2Proof.Machine

/-! ### Registers -/

theorem Block.arg_writeArg (b : Block) (r r' : ArgReg) (v : Word) :
    (b.writeArg r v).arg r' = if r = r' then .written v else b.arg r' := by
  cases r <;> cases r' <;> rfl

@[simp] theorem Block.arg_writeArg_same (b : Block) (r : ArgReg) (v : Word) : (b.writeArg r v).arg r = .written v := by
  cases r <;> rfl

@[simp] theorem Block.res_writeArg (b : Block) (r : ArgReg) (r' : ResReg) (v : Word) :
    (b.writeArg r v).res r' = b.res r' := by cases r <;> cases r' <;> rfl

@[simp] theorem Block.cmd_writeArg (b : Block) (r : ArgReg) (v : Word) : (b.writeArg r v).cmd = b.cmd := by cases r <;> rfl

@[simp] theorem Block.status_writeArg (b : Block) (r : ArgReg) (v : Word) : (b.writeArg r v).status = b.status := by
  cases r <;> rfl

@[simp] theorem Block.strategy_writeArg (b : Block) (r : ArgReg) (v : Word) : (b.writeArg r v).strategy = b.strategy := by
  cases r <;> rfl

theorem Block.res_writeRes (b : Block) (r r' : ResReg) (v : Word) :
    (b.writeRes r v).res r' = if r = r' then .written v else b.res r' := by
  cases r <;> cases r' <;> rfl

@[simp] theorem Block.arg_writeRes (b : Block) (r : ResReg) (r' : ArgReg) (v : Word) :
    (b.writeRes r v).arg r' = b.arg r' := by cases r <;> cases r' <;> rfl

@[simp] theorem Block.cmd_writeRes (b : Block) (r : ResReg) (v : Word) : (b.writeRes r v).cmd = b.cmd := by cases r <;> rfl

@[simp] theorem Block.status_writeRes (b : Block) (r : ResReg) (v : Word) : (b.writeRes r v).status = b.status := by
  cases r <;> rfl

@[simp] theorem Block.strategy_writeRes (b : Block) (r : ResReg) (v : Word) : (b.writeRes r v).strategy = b.strategy := by
  cases r <;> rfl

@[simp] theorem Block.arg_writeResults (b : Block) (rs : List (ResReg × Nat)) (r : ArgReg) :
    (b.writeResults rs).arg r = b.arg r := by
  induction rs generalizing b with
  | nil => rfl
  | cons x xs ih => simp [Block.writeResults, ih]

@[simp] theorem Block.cmd_writeResults (b : Block) (rs : List (ResReg × Nat)) : (b.writeResults rs).cmd = b.cmd := by
  induction rs generalizing b with
  | nil => rfl
  | cons x xs ih => simp [Block.writeResults, ih]

@[simp] theorem Block.strategy_writeResults (b : Block) (rs : List (ResReg × Nat)) :
    (b.writeResults rs).strategy = b.strategy := by
  induction rs generalizing b with
  | nil => rfl
  | cons x xs ih => simp [Block.writeResults, ih]

/-- A result register no entry names keeps its value and its WR bit. -/
theorem Block.res_writeResults_other (b : Block) (rs : List (ResReg × Nat)) (r : ResReg) (h : ∀ x ∈ rs, x.1 ≠ r) :
    (b.writeResults rs).res r = b.res r := by
  induction rs generalizing b with
  | nil => rfl
  | cons x xs ih =>
    rw [Block.writeResults, ih _ fun y hy => h y (List.mem_cons_of_mem _ hy), Block.res_writeRes,
      if_neg (h x List.mem_cons_self)]

@[simp] theorem Block.arg_clearResults (b : Block) (r : ArgReg) : b.clearResults.arg r = b.arg r := by cases r <;> rfl

@[simp] theorem Block.res_clearResults (b : Block) (r : ResReg) : b.clearResults.res r = (b.res r).clear := by
  cases r <;> rfl

@[simp] theorem Block.cmd_clearResults (b : Block) : b.clearResults.cmd = b.cmd := rfl
@[simp] theorem Block.strategy_clearResults (b : Block) : b.clearResults.strategy = b.strategy := rfl
@[simp] theorem Reg64.clear_wr (r : Reg64) : r.clear.wr = false := rfl
@[simp] theorem Reg64.clear_val (r : Reg64) : r.clear.val = r.val := rfl
@[simp] theorem Reg64.written_wr (v : Word) : (Reg64.written v).wr = true := rfl
@[simp] theorem Reg64.written_val (v : Word) : (Reg64.written v).val = v := rfl

@[simp] theorem Block.arg_setStatus (b : Block) (x : BitVec 8) (r : ArgReg) : (b.setStatus x).arg r = b.arg r := by
  cases r <;> rfl

@[simp] theorem Block.res_setStatus (b : Block) (x : BitVec 8) (r : ResReg) : (b.setStatus x).res r = b.res r := by
  cases r <;> rfl

@[simp] theorem Block.cmd_setStatus (b : Block) (x : BitVec 8) : (b.setStatus x).cmd = b.cmd := rfl
@[simp] theorem Block.status_setStatus (b : Block) (x : BitVec 8) : (b.setStatus x).status = x := rfl
@[simp] theorem Block.strategy_setStatus (b : Block) (x : BitVec 8) : (b.setStatus x).strategy = b.strategy := rfl

@[simp] theorem Block.arg_setCmd (b : Block) (w : CmdWord) (r : ArgReg) : (b.setCmd w).arg r = b.arg r := by
  cases r <;> rfl

@[simp] theorem Block.res_setCmd (b : Block) (w : CmdWord) (r : ResReg) : (b.setCmd w).res r = b.res r := by
  cases r <;> rfl

@[simp] theorem Block.cmd_setCmd (b : Block) (w : CmdWord) : (b.setCmd w).cmd = w := rfl
@[simp] theorem Block.status_setCmd (b : Block) (w : CmdWord) : (b.setCmd w).status = b.status := rfl
@[simp] theorem Block.strategy_setCmd (b : Block) (w : CmdWord) : (b.setCmd w).strategy = b.strategy := rfl

/-! ### The CMD store -/

@[simp] theorem State.storeCmd_cmd (s : State) (w : CmdWord) : (s.storeCmd w).blk.cmd = w := rfl
@[simp] theorem State.storeCmd_status (s : State) (w : CmdWord) : (s.storeCmd w).blk.status = s.blk.status := rfl
@[simp] theorem State.storeCmd_strategy (s : State) (w : CmdWord) : (s.storeCmd w).blk.strategy = s.blk.strategy := rfl
@[simp] theorem State.storeCmd_platform (s : State) (w : CmdWord) : (s.storeCmd w).platform = s.platform := rfl
@[simp] theorem State.storeCmd_below (s : State) (w : CmdWord) : (s.storeCmd w).below = s.below := rfl
@[simp] theorem State.storeCmd_above (s : State) (w : CmdWord) : (s.storeCmd w).above = s.above := rfl
@[simp] theorem State.storeCmd_mem (s : State) (w : CmdWord) : (s.storeCmd w).mem = s.mem := rfl
@[simp] theorem State.storeCmd_fault (s : State) (w : CmdWord) : (s.storeCmd w).fault = s.fault := rfl
@[simp] theorem State.storeCmd_hosts (s : State) (w : CmdWord) : (s.storeCmd w).hosts = s.hosts := rfl
@[simp] theorem State.storeCmd_turns (s : State) (w : CmdWord) : (s.storeCmd w).turns = s.turns := rfl
@[simp] theorem State.storeCmd_draws (s : State) (w : CmdWord) : (s.storeCmd w).draws = s.draws := rfl

/-! ### STATUS = OK -/

section
variable (s : State) (rs : List (ResReg × Nat)) (m : Memory)

@[simp] theorem State.complete_status : (s.complete rs m).blk.status = 0 := rfl
@[simp] theorem State.complete_mem : (s.complete rs m).mem = m := rfl
@[simp] theorem State.complete_platform : (s.complete rs m).platform = s.platform := rfl
@[simp] theorem State.complete_below : (s.complete rs m).below = s.below := rfl
@[simp] theorem State.complete_above : (s.complete rs m).above = s.above := rfl
@[simp] theorem State.complete_fault : (s.complete rs m).fault = s.fault := rfl
@[simp] theorem State.complete_hosts : (s.complete rs m).hosts = s.hosts := rfl
@[simp] theorem State.complete_turns : (s.complete rs m).turns = s.turns := rfl
@[simp] theorem State.complete_draws : (s.complete rs m).draws = s.draws := rfl
@[simp] theorem State.complete_cmd : (s.complete rs m).blk.cmd = s.blk.cmd := by simp [State.complete]
@[simp] theorem State.complete_strategy : (s.complete rs m).blk.strategy = s.blk.strategy := by simp [State.complete]
@[simp] theorem State.complete_arg (r : ArgReg) : (s.complete rs m).blk.arg r = s.blk.arg r := by simp [State.complete]
@[simp] theorem State.complete_res (r : ResReg) : (s.complete rs m).blk.res r = (s.blk.writeResults rs).res r := by
  simp [State.complete]

end

/-! ### A reported error -/

section
variable (s : State) (e : Status) (us : List RegionUse)

@[simp] theorem State.raise_status : (s.raise e us).blk.status = e.code := rfl
@[simp] theorem State.raise_mem : (s.raise e us).mem = drawOutputs us (s.draws + 1) s.mem := rfl
@[simp] theorem State.raise_draws : (s.raise e us).draws = s.draws + 1 + outputBytes us := rfl
@[simp] theorem State.raise_platform : (s.raise e us).platform = s.platform := rfl
@[simp] theorem State.raise_below : (s.raise e us).below = s.below := rfl
@[simp] theorem State.raise_above : (s.raise e us).above = s.above := rfl
@[simp] theorem State.raise_fault : (s.raise e us).fault = s.fault := rfl
@[simp] theorem State.raise_hosts : (s.raise e us).hosts = s.hosts := rfl
@[simp] theorem State.raise_turns : (s.raise e us).turns = s.turns := rfl
@[simp] theorem State.raise_cmd : (s.raise e us).blk.cmd = s.blk.cmd := rfl
@[simp] theorem State.raise_strategy : (s.raise e us).blk.strategy = s.blk.strategy := rfl
@[simp] theorem State.raise_arg (r : ArgReg) : (s.raise e us).blk.arg r = s.blk.arg r := by simp [State.raise]
@[simp] theorem State.raise_res (r : ResReg) : (s.raise e us).blk.res r = (s.blk.res r).clear := by simp [State.raise]

end

/-! ### A model fault -/

section
variable (s : State) (r : UB)

@[simp] theorem State.setFault_fault : (s.setFault r).fault = s.fault.or (some r) := rfl
@[simp] theorem State.setFault_platform : (s.setFault r).platform = s.platform := rfl
@[simp] theorem State.setFault_below : (s.setFault r).below = s.below := rfl
@[simp] theorem State.setFault_blk : (s.setFault r).blk = s.blk := rfl
@[simp] theorem State.setFault_above : (s.setFault r).above = s.above := rfl
@[simp] theorem State.setFault_blocks : (s.setFault r).blocks = s.blocks := rfl
@[simp] theorem State.setFault_mem : (s.setFault r).mem = s.mem := rfl
@[simp] theorem State.setFault_hosts : (s.setFault r).hosts = s.hosts := rfl
@[simp] theorem State.setFault_turns : (s.setFault r).turns = s.turns := rfl
@[simp] theorem State.setFault_draws : (s.setFault r).draws = s.draws := rfl

/-- After a model fault FAULT is set. -/
theorem State.setFault_ne_none : (s.setFault r).fault ≠ none := by
  cases h : s.fault <;> simp [h]

end

/-! ### Hosts -/

section
variable (s : State) (h : Nat) (o : Observation)

@[simp] theorem State.observe_platform : (s.observe h o).platform = s.platform := rfl
@[simp] theorem State.observe_below : (s.observe h o).below = s.below := rfl
@[simp] theorem State.observe_blk : (s.observe h o).blk = s.blk := rfl
@[simp] theorem State.observe_above : (s.observe h o).above = s.above := rfl
@[simp] theorem State.observe_mem : (s.observe h o).mem = s.mem := rfl
@[simp] theorem State.observe_fault : (s.observe h o).fault = s.fault := rfl
@[simp] theorem State.observe_turns : (s.observe h o).turns = s.turns := rfl
@[simp] theorem State.observe_draws : (s.observe h o).draws = s.draws := rfl
@[simp] theorem State.advance_platform : (s.advance h).platform = s.platform := rfl
@[simp] theorem State.advance_below : (s.advance h).below = s.below := rfl
@[simp] theorem State.advance_blk : (s.advance h).blk = s.blk := rfl
@[simp] theorem State.advance_above : (s.advance h).above = s.above := rfl
@[simp] theorem State.advance_mem : (s.advance h).mem = s.mem := rfl
@[simp] theorem State.advance_fault : (s.advance h).fault = s.fault := rfl
@[simp] theorem State.advance_turns : (s.advance h).turns = s.turns.tail := rfl
@[simp] theorem State.advance_draws : (s.advance h).draws = s.draws := rfl
@[simp] theorem State.skipTurn_platform : s.skipTurn.platform = s.platform := rfl
@[simp] theorem State.skipTurn_below : s.skipTurn.below = s.below := rfl
@[simp] theorem State.skipTurn_blk : s.skipTurn.blk = s.blk := rfl
@[simp] theorem State.skipTurn_above : s.skipTurn.above = s.above := rfl
@[simp] theorem State.skipTurn_mem : s.skipTurn.mem = s.mem := rfl
@[simp] theorem State.skipTurn_fault : s.skipTurn.fault = s.fault := rfl
@[simp] theorem State.skipTurn_hosts : s.skipTurn.hosts = s.hosts := rfl
@[simp] theorem State.skipTurn_turns : s.skipTurn.turns = s.turns.tail := rfl
@[simp] theorem State.skipTurn_draws : s.skipTurn.draws = s.draws := rfl

end

/-! ### Selecting an instance -/

section
variable (s : State) (k : Nat)

@[simp] theorem State.select_platform : (s.select k).platform = s.platform := by unfold State.select; split <;> rfl
@[simp] theorem State.select_mem : (s.select k).mem = s.mem := by unfold State.select; split <;> rfl
@[simp] theorem State.select_fault : (s.select k).fault = s.fault := by unfold State.select; split <;> rfl
@[simp] theorem State.select_hosts : (s.select k).hosts = s.hosts := by unfold State.select; split <;> rfl
@[simp] theorem State.select_turns : (s.select k).turns = s.turns := by unfold State.select; split <;> rfl
@[simp] theorem State.select_draws : (s.select k).draws = s.draws := by unfold State.select; split <;> rfl

/-- Selecting changes no register of any instance. -/
@[simp] theorem State.select_blocks : (s.select k).blocks = s.blocks := by
  unfold State.select
  split
  · rfl
  · rename_i b rest h
    change s.blocks.take k ++ b :: rest = s.blocks
    rw [← h, List.take_append_drop]

theorem State.length_blocks : s.blocks.length = s.instances := by
  simp [State.blocks, State.instances]; omega

@[simp] theorem State.select_instances : (s.select k).instances = s.instances := by
  rw [← State.length_blocks, ← State.length_blocks, State.select_blocks]

/-- An instance that exists is the one selected. -/
theorem State.select_selected (h : k < s.instances) : (s.select k).selected = k := by
  have hb : k < s.blocks.length := by rw [State.length_blocks]; exact h
  unfold State.select
  split
  · rename_i e; exact absurd (List.drop_eq_nil_iff.mp e) (by omega)
  · simp [State.selected]; omega

/-- The selected instance is instance `k`. -/
theorem State.select_blk (h : k < s.instances) : s.blocks[k]? = some (s.select k).blk := by
  have hb : k < s.blocks.length := by rw [State.length_blocks]; exact h
  unfold State.select
  split
  · rename_i e; exact absurd (List.drop_eq_nil_iff.mp e) (by omega)
  · rename_i b rest e
    have := congrArg List.head? e
    simpa [List.head?_drop] using this

/-- Selecting the selected instance changes nothing. -/
@[simp] theorem State.select_self : s.select s.selected = s := by
  cases s with
  | mk p bl b ab => simp [State.select, State.selected, State.blocks]

end

end Sys2Proof.Machine
end

