-- ==== Sys2Proof/Laws/Ops.lean ====
section
/-! SUPPORT. One lemma per shared operation that says what it can answer. -/

namespace Sys2Proof.Machine

/-! ### Error sets and draws -/

theorem mem_errIf (c : Bool) (e x : Status) (E : List Status) : x ∈ errIf c e E ↔ (c = true ∧ x = e) ∨ x ∈ E := by
  unfold errIf
  by_cases hc : c = true <;> by_cases hm : e ∈ E <;> simp [hc, hm]
  rintro rfl
  exact hm

theorem errIf_eq_nil (c : Bool) (e : Status) (E : List Status) : errIf c e E = [] ↔ c = false ∧ E = [] := by
  unfold errIf
  cases c <;> cases E <;> simp
  split <;> simp

/-- What `pick` answers is a member of the set. -/
theorem pick_mem {α : Type} (a : α) (more : List α) (d : Nat) : pick a more d ∈ a :: more := by
  cases more with
  | nil => simp [pick]
  | cons b rest =>
    have h : d % (rest.length + 2) < (a :: b :: rest).length := by
      simp only [List.length_cons]
      exact Nat.mod_lt d (by omega)
    show (a :: b :: rest).getD (d % (rest.length + 2)) a ∈ a :: b :: rest
    rw [List.getD_eq_getElem _ _ h]
    exact List.getElem_mem h

/-! ### The checks of a command

Each check ends in a model fault or a reported error, or goes on with its body: the `_next` lemmas say which, the `_fault` lemmas
that only a region outside Backed leaves no step. -/

/-- `t` is what a model fault leaves of `s`. -/
def Faulted (s t : State) : Prop := ∃ r, t = s.setFault r

theorem Faulted.fault_ne_none {s t : State} (h : Faulted s t) : t.fault ≠ none := by
  obtain ⟨r, rfl⟩ := h; exact s.setFault_ne_none r

section
variable {s t : State} {r : UB} {f : Fault} {body : Host.Outcome State Fault Refusal}

theorem modelFault_next (h : modelFault r s = .next t) : Faulted s t := by
  simp only [modelFault, Host.Outcome.next.injEq] at h; exact ⟨r, h.symm⟩

theorem withArgs_ready {rs : List ArgReg} (h : ∀ a ∈ rs, (s.blk.arg a).wr = true) : withArgs rs s body = body := by
  have : argsWritten s.blk rs = true := by simpa [argsWritten] using h
  simp [withArgs, this]

theorem withArgs_unwritten {rs : List ArgReg} (h : ∃ a ∈ rs, (s.blk.arg a).wr = false) :
    withArgs rs s body = .next (s.setFault .unwrittenArgument) := by
  have : argsWritten s.blk rs = false := by simpa [argsWritten] using h
  simp [withArgs, this, modelFault]

theorem withArgs_next {rs : List ArgReg} (h : withArgs rs s body = .next t) :
    Faulted s t ∨ ((∀ a ∈ rs, (s.blk.arg a).wr = true) ∧ body = .next t) := by
  unfold withArgs at h
  split at h
  · rename_i e; exact .inr ⟨by simpa [argsWritten] using e, h⟩
  · exact .inl (modelFault_next h)

theorem withArgs_fault {rs : List ArgReg} (h : withArgs rs s body = .fault f) : body = .fault f := by
  unfold withArgs at h
  split at h
  · exact h
  · cases h

theorem withFormat_next {c : Bool} (h : withFormat c s body = .next t) :
    (c = true ∧ t = s.raise .invalidCommand []) ∨ (c = false ∧ body = .next t) := by
  unfold withFormat at h
  cases c
  · exact .inr ⟨rfl, h⟩
  · simp only [if_true, Host.Outcome.next.injEq] at h; exact .inl ⟨rfl, h.symm⟩

theorem withFormat_fault {c : Bool} (h : withFormat c s body = .fault f) : body = .fault f := by
  unfold withFormat at h
  cases c
  · exact h
  · simp at h

theorem withRegions_ready {uses : List RegionUse} (hf : regionFaults uses = [])
    (hb : ∀ w ∈ uses, ∀ a, w.base ≤ a → a < w.base + w.size → backed s.platform a = true) :
    withRegions uses s body = body := by
  have hall : (uses.all fun w => allBacked s.platform w.base w.size) = true := by
    simp only [List.all_eq_true, allBacked, List.mem_range]
    intro w hw j hj
    exact hb w hw _ (by omega) (by omega)
  simp [withRegions, hf, hall]

theorem withRegions_next {uses : List RegionUse} (h : withRegions uses s body = .next t) :
    Faulted s t ∨ (regionFaults uses = [] ∧
      (∀ w ∈ uses, ∀ a, w.base ≤ a → a < w.base + w.size → backed s.platform a = true) ∧ body = .next t) := by
  unfold withRegions at h
  split at h
  · exact .inl (modelFault_next h)
  · rename_i hf
    split at h
    · rename_i hall
      refine .inr ⟨hf, fun w hw a h1 h2 => ?_, h⟩
      simp only [List.all_eq_true, allBacked, List.mem_range] at hall
      have := hall w hw (a - w.base) (by omega)
      rwa [show w.base + (a - w.base) = a by omega] at this
    · cases h

theorem withRegions_fault {uses : List RegionUse} (h : withRegions uses s body = .fault f) :
    (f = .stuck ∧ regionFaults uses = [] ∧
      ∃ w ∈ uses, ∃ a, w.base ≤ a ∧ a < w.base + w.size ∧ backed s.platform a = false) ∨ body = .fault f := by
  unfold withRegions at h
  split at h
  · cases h
  · rename_i hf
    split at h
    · exact .inr h
    · rename_i hall
      simp only [Host.Outcome.fault.injEq] at h
      refine .inl ⟨h.symm, hf, ?_⟩
      simp only [List.all_eq_true, allBacked, List.mem_range, not_forall, Bool.not_eq_true] at hall
      obtain ⟨w, hw, j, hj, hb⟩ := hall
      exact ⟨w, hw, _, Nat.le_add_right _ j, by omega, hb⟩

theorem withContract_next {c : Bool} (h : withContract c r s body = .next t) :
    Faulted s t ∨ (c = false ∧ body = .next t) := by
  unfold withContract at h
  cases c
  · exact .inr ⟨rfl, h⟩
  · exact .inl (modelFault_next h)

theorem withContract_fault {c : Bool} (h : withContract c r s body = .fault f) : body = .fault f := by
  unfold withContract at h
  cases c
  · exact h
  · cases h

theorem reportErrors_next {E : List Status} {uses : List RegionUse} (h : reportErrors E uses s body = .next t) :
    (∃ e ∈ E, t = s.raise e uses) ∨ (E = [] ∧ body = .next t) := by
  unfold reportErrors at h
  split at h
  · simp only [Host.Outcome.next.injEq] at h
    exact .inl ⟨_, pick_mem _ _ _, h.symm⟩
  · exact .inr ⟨rfl, h⟩

theorem reportErrors_fault {E : List Status} {uses : List RegionUse} (h : reportErrors E uses s body = .fault f) :
    body = .fault f := by
  unfold reportErrors at h
  split at h
  · cases h
  · exact h

end

/-! ### Draws of output bytes -/

theorem wf_drawOutputs (us : List RegionUse) (d : Nat) (m : Memory) (h : m.wf = true) :
    (drawOutputs us d m).wf = true := by
  induction us generalizing d m with
  | nil => exact h
  | cons u us ih =>
    unfold drawOutputs
    split
    · exact ih _ _ (Memory.wf_writeBytes _ _ _ h)
    · exact ih _ _ h

/-- The draws leave every byte outside the output regions alone. -/
theorem read_drawOutputs_outside (us : List RegionUse) (d : Nat) (m : Memory) (a : Nat) (h : ¬inOutput us a) :
    (drawOutputs us d m).read a = m.read a := by
  induction us generalizing d m with
  | nil => rfl
  | cons u us ih =>
    have htail : ¬inOutput us a := fun ⟨w, hw, ho⟩ => h ⟨w, List.mem_cons_of_mem _ hw, ho⟩
    unfold drawOutputs
    split
    · rename_i ho
      rw [ih _ _ htail, Memory.read_writeBytes_outside]
      have : ¬(u.base ≤ a ∧ a < u.base + u.size) := fun hin => h ⟨u, List.mem_cons_self, ho, hin⟩
      simp only [List.length_map, List.length_range]
      omega
    · exact ih _ _ htail

/-- Every cell after the draws lies in an output region or was there before. -/
theorem mem_drawOutputs (us : List RegionUse) (d : Nat) (m : Memory) (c : Host.Cell) (h : c ∈ drawOutputs us d m) :
    inOutput us c.1 ∨ c ∈ m := by
  induction us generalizing d m with
  | nil => exact .inr h
  | cons u us ih =>
    unfold drawOutputs at h
    split at h
    · rename_i ho
      rcases ih _ _ h with ⟨w, hw, hin⟩ | h
      · exact .inl ⟨w, List.mem_cons_of_mem _ hw, hin⟩
      · rcases Memory.mem_writeBytes _ _ _ _ h with h | h
        · simp only [List.length_map, List.length_range] at h
          exact .inl ⟨u, List.mem_cons_self, ho, h⟩
        · exact .inr h
    · rcases ih _ _ h with ⟨w, hw, hin⟩ | h
      · exact .inl ⟨w, List.mem_cons_of_mem _ hw, hin⟩
      · exact .inr h

/-! ### Outcomes -/

theorem mapNext_next {f : State → State} {o : Host.Outcome State Fault Refusal} {t : State} :
    mapNext f o = .next t ↔ ∃ u, o = .next u ∧ t = f u := by
  cases o <;> simp [mapNext, eq_comm]

theorem mapNext_fault {f : State → State} {o : Host.Outcome State Fault Refusal} {r : Fault} :
    mapNext f o = .fault r ↔ o = .fault r := by
  cases o <;> simp [mapNext]

end Sys2Proof.Machine
end

