-- ==== Sys2Proof/Laws/Exec.lean ====
section
/-! SUPPORT. One inversion lemma per command: what its meaning answers when it answers a next state, a model fault among it. Every
later fact about a command follows from these, without unfolding the meaning again. -/

namespace Sys2Proof.Machine

variable {v : Variant} {s t : State}

/-- The two ends of a command that reports errors from `E` and otherwise completes in `done`. -/
def EndsWith (E : List Status) (uses : List RegionUse) (done : State) (s t : State) : Prop :=
  (∃ e ∈ E, t = s.raise e uses) ∨ (E = [] ∧ t = done)

theorem endsWith_of_report {E : List Status} {uses : List RegionUse} {d : State}
    (h : reportErrors E uses s (.next d) = .next t) : EndsWith E uses d s t := by
  rcases reportErrors_next h with h | ⟨hE, h⟩
  · exact .inl h
  · exact .inr ⟨hE, by simpa [eq_comm] using h⟩

theorem execTagFor_next (h : execTagFor v s = .next t) :
    Faulted s t ∨ EndsWith (errIf (tooWide v (s.argVal .arg0)) .overflow []) []
      (s.complete [(.resVal, (tagOf v (s.argVal .arg0)).toNat)] s.mem) s t :=
  (withArgs_next h).imp_right fun h => endsWith_of_report h.2

/-- A command that checks the format of ARG0 and otherwise completes. -/
theorem format_next {c : Bool} {d : State} (h : withFormat c s (.next d) = .next t) :
    (c = true ∧ t = s.raise .invalidCommand []) ∨ (c = false ∧ t = d) :=
  (withFormat_next h).imp id fun ⟨hc, h⟩ => ⟨hc, by simpa [eq_comm] using h⟩

theorem execByteLen_next (h : execByteLen v s = .next t) :
    Faulted s t ∨ (reservedBitSet s.blk.arg0.val fieldsOfByteLen = true ∧ t = s.raise .invalidCommand []) ∨
      (reservedBitSet s.blk.arg0.val fieldsOfByteLen = false ∧
        t = s.complete [(.resVal, tagLen v (s.blk.arg0.val.extractLsb' 0 2))] s.mem) :=
  (withArgs_next h).imp_right fun h => format_next h.2

theorem execPackCtrl_next (h : execPackCtrl v s = .next t) :
    Faulted s t ∨ (reservedBitSet s.blk.arg0.val fieldsOfPackCtrl = true ∧ t = s.raise .invalidCommand []) ∨
      (reservedBitSet s.blk.arg0.val fieldsOfPackCtrl = false ∧ ∃ x, t = s.complete [(.resVal, x)] s.mem) :=
  (withArgs_next h).imp_right fun h => (format_next h.2).imp id fun ⟨hc, h⟩ => ⟨hc, _, h⟩

theorem execUnpackCtrl_next (h : execUnpackCtrl v s = .next t) :
    Faulted s t ∨ (reservedBitSet s.blk.arg0.val fieldsOfUnpackCtrl = true ∧ t = s.raise .invalidCommand []) ∨
      (reservedBitSet s.blk.arg0.val fieldsOfUnpackCtrl = false ∧ ∃ x, t = s.complete [(.resVal, x)] s.mem) :=
  (withArgs_next h).imp_right fun h => (format_next h.2).imp id fun ⟨hc, h⟩ => ⟨hc, _, h⟩

theorem execShufEntry_next (h : execShufEntry v s = .next t) :
    Faulted s t ∨ (shufArgIllegal v s.blk.arg0.val = true ∧ t = s.raise .invalidCommand []) ∨
      (shufArgIllegal v s.blk.arg0.val = false ∧
        ∃ x0 x1 x2 x3 x, t = s.complete
          [(.resDesc0, x0), (.resDesc1, x1), (.resDesc2, x2), (.resDesc3, x3), (.resVal, x)] s.mem) :=
  (withArgs_next h).imp_right fun h => (format_next h.2).imp id fun ⟨hc, h⟩ => ⟨hc, _, _, _, _, _, h⟩

/-- The stream ENCODE makes. -/
def encodedStream (v : Variant) (s : State) : List Byte × List Byte :=
  encodeStream v (valElems v s (min (s.argVal .n) (s.argVal .valLen)))

theorem execEncode_next (h : execEncode v s = .next t) :
    Faulted s t ∨ (regionFaults (encodeUses v s) = [] ∧
      EndsWith
        (encodeErrors s (s.argVal .n) (s.argVal .n ≤ s.argVal .valLen) (encodedStream v s).2 [])
        (encodeUses v s)
        (s.complete [(.resCtrl, (encodedStream v s).1.length), (.resData, (encodedStream v s).2.length)]
          (writeStream s (encodedStream v s))) s t) :=
  (withArgs_next h).elim .inl fun h => (withRegions_next h.2).imp_right fun h => ⟨h.1, endsWith_of_report h.2.2⟩

theorem decodeCommand_next {engine : Bool} (h : decodeCommand engine v s = .next t) :
    Faulted s t ∨ (regionFaults (decodeUses v s) = [] ∧
      EndsWith (decodeErrors v s (s.argVal .n) []) (decodeUses v s)
        (s.complete
          [(.resCtrl, groupCount (s.argVal .n)), (.resData, (decodeBy engine v s (s.argVal .n)).2)]
          (writeVals v s (decodeBy engine v s (s.argVal .n)).1)) s t) :=
  (withArgs_next h).elim .inl fun h => (withRegions_next h.2).imp_right fun h => ⟨h.1, endsWith_of_report h.2.2⟩

/-- A command that checks its arguments, its regions and its contract, and then reports errors or completes. -/
theorem contract_next {rs : List ArgReg} {uses : List RegionUse} {wide broken : Bool} {r : UB} {E : List Status} {d : State}
    (h : withArgs rs s (withRegions uses s (withContract (!wide && broken) r s (reportErrors E uses s (.next d)))) = .next t) :
    Faulted s t ∨ (regionFaults uses = [] ∧ (wide = false → broken = false) ∧ EndsWith E uses d s t) := by
  refine (withArgs_next h).elim .inl fun h => (withRegions_next h.2).elim .inl fun ⟨hf, _, h⟩ =>
    (withContract_next h).imp_right fun ⟨hc, h⟩ => ⟨hf, fun hw => ?_, endsWith_of_report h⟩
  simpa [hw] using hc

/-- The values ENCODE_DELTAS reads. -/
def deltaInput (v : Variant) (s : State) : List Nat := valElems v s (min (s.argVal .n) (s.argVal .valLen))

/-- The stream ENCODE_DELTAS makes. -/
def deltaStream (v : Variant) (s : State) : List Byte × List Byte :=
  encodeStream v (deltas (s.argVal .seed) (deltaInput v s))

theorem execEncodeDeltas_next (h : execEncodeDeltas v s = .next t) :
    Faulted s t ∨ (regionFaults (encodeUses v s) = [] ∧
      (tooWide v (s.argVal .seed) = false → nonMonotone (s.argVal .seed) (deltaInput v s) = false) ∧
      EndsWith
        (encodeErrors s (s.argVal .n) (!tooWide v (s.argVal .seed) && s.argVal .n ≤ s.argVal .valLen)
          (deltaStream v s).2 (errIf (tooWide v (s.argVal .seed)) .overflow []))
        (encodeUses v s)
        (s.complete
          [(.resCtrl, (deltaStream v s).1.length), (.resData, (deltaStream v s).2.length),
            (.resVal, lastOr (s.argVal .seed) (deltaInput v s))]
          (writeStream s (deltaStream v s))) s t) :=
  contract_next h

/-- The differences DECODE_DELTAS decodes: those of its decodable prefix. -/
def decodedDeltas (v : Variant) (s : State) : List Nat :=
  (decodeBy (strategyVec s) v s (decodablePrefix v s (s.argVal .n))).1

theorem execDecodeDeltas_next (h : execDecodeDeltas v s = .next t) :
    Faulted s t ∨ (regionFaults (decodeUses v s) = [] ∧
      (tooWide v (s.argVal .seed) = false → prefixOverflow v (s.argVal .seed) (decodedDeltas v s) = false) ∧
      EndsWith (decodeErrors v s (s.argVal .n) (errIf (tooWide v (s.argVal .seed)) .overflow [])) (decodeUses v s)
        (s.complete
          [(.resCtrl, groupCount (s.argVal .n)), (.resData, segLen v (s.argVal .n) (ctrlByte s)),
            (.resVal, lastOr (s.argVal .seed) (prefixSum (s.argVal .seed) (decodedDeltas v s)))]
          (writeVals v s (prefixSum (s.argVal .seed) (decodedDeltas v s)))) s t) :=
  contract_next h

/-- The differences SKIP_DELTAS decodes. -/
def skippedDeltas (v : Variant) (s : State) : List Nat :=
  (decodeStream v (decodablePrefix v s (s.argVal .n)) (ctrlByte s) (dataByte s)).1

theorem execSkipDeltas_next (h : execSkipDeltas v s = .next t) :
    Faulted s t ∨ (regionFaults (skipUses s) = [] ∧
      (tooWide v (s.argVal .seed) = false → prefixOverflow v (s.argVal .seed) (skippedDeltas v s) = false) ∧
      EndsWith
        (errIf (truncated v s (s.argVal .n)) .truncatedInput (errIf (tooWide v (s.argVal .seed)) .overflow []))
        (skipUses s)
        (s.complete
          [(.resVal, s.argVal .seed + (skippedDeltas v s).sum), (.resData, segLen v (s.argVal .n) (ctrlByte s)),
            (.resCtrl, groupCount (s.argVal .n))] s.mem) s t) :=
  contract_next h

theorem execDataLen_next (h : execDataLen v s = .next t) :
    Faulted s t ∨ (regionFaults (dataLenUses s) = [] ∧
      ((s.argVal .ctrlLen < groupCount (s.argVal .n) ∧ t = s.raise .truncatedInput (dataLenUses s)) ∨
        (groupCount (s.argVal .n) ≤ s.argVal .ctrlLen ∧ dataLenFn v (s.argVal .n) (ctrlByte s) < 2 ^ 64 ∧
          t = s.complete
            [(.resData, dataLenFn v (s.argVal .n) (ctrlByte s)), (.resCtrl, groupCount (s.argVal .n))] s.mem))) := by
  refine (withArgs_next h).elim .inl fun h => (withRegions_next h.2).elim .inl fun ⟨hf, _, h⟩ => ?_
  rcases reportErrors_next h with ⟨e, he, ht⟩ | ⟨hE, ht⟩
  · rcases (mem_errIf _ _ _ _).mp he with ⟨hc, rfl⟩ | he
    · exact .inr ⟨hf, .inl ⟨by simpa using hc, ht⟩⟩
    · simp at he
  · have hc := ((errIf_eq_nil _ _ _).mp hE).1
    simp only at ht
    split at ht
    · exact .inl (modelFault_next ht)
    · exact .inr ⟨hf, .inr ⟨by simpa using hc, by omega, by simpa [eq_comm] using ht⟩⟩

end Sys2Proof.Machine
end

