-- ==== Sys2Proof/Laws/PerInstr.lean ====
section
/-! SUPPORT. The family EncodingLegal: the one word of every command is a legal command word (30_encoding.md R301 to R304). -/

namespace Sys2Proof.Laws.EncodingLegal

/-- The word of `i` has RSV = 0, a VAR that names a variant and an OPC of R303's map. -/
def Statement (i : Instr) : Prop := wordWellFormed (encodeCmd i) = true

theorem tagFor (v : Variant) : Statement (.tagFor v) := by cases v <;> (unfold Statement; decide)
theorem byteLen (v : Variant) : Statement (.byteLen v) := by cases v <;> (unfold Statement; decide)
theorem packCtrl (v : Variant) : Statement (.packCtrl v) := by cases v <;> (unfold Statement; decide)
theorem unpackCtrl (v : Variant) : Statement (.unpackCtrl v) := by cases v <;> (unfold Statement; decide)
theorem encode (v : Variant) : Statement (.encode v) := by cases v <;> (unfold Statement; decide)
theorem decode (v : Variant) : Statement (.decode v) := by cases v <;> (unfold Statement; decide)
theorem decodeScalar (v : Variant) : Statement (.decodeScalar v) := by cases v <;> (unfold Statement; decide)
theorem decodeVector (v : Variant) : Statement (.decodeVector v) := by cases v <;> (unfold Statement; decide)
theorem shufEntry (v : Variant) : Statement (.shufEntry v) := by cases v <;> (unfold Statement; decide)
theorem encodeDeltas (v : Variant) : Statement (.encodeDeltas v) := by cases v <;> (unfold Statement; decide)
theorem decodeDeltas (v : Variant) : Statement (.decodeDeltas v) := by cases v <;> (unfold Statement; decide)
theorem skipDeltas (v : Variant) : Statement (.skipDeltas v) := by cases v <;> (unfold Statement; decide)
theorem dataLen (v : Variant) : Statement (.dataLen v) := by cases v <;> (unfold Statement; decide)

end Sys2Proof.Laws.EncodingLegal
end

