-- ==== Sys2Proof/Laws/Ready.lean ====
section
/-! SUPPORT. What each command does once its operands are in order (`Ready`): the checks of 60_exceptions.md R702 steps 2, 4 and 5
are behind it, and its contract conditions, its error set and its writes are left. -/

namespace Sys2Proof.Machine

variable {v : Variant} {s : State}

/-- A register list whose members a command reads is written. -/
theorem Ready.written {i : Instr} {rs : List ArgReg} (h : Ready i s) (hrs : ∀ r ∈ rs, r ∈ argsRead i) :
    ∀ r ∈ rs, (s.blk.arg r).wr = true := fun r hr => h.args r (hrs r hr)

/-- `Ready`, computed. -/
def readyCheck (i : Instr) (s : State) : Bool :=
  (argsRead i).all (fun r => (s.blk.arg r).wr) && (regionFaults (usesOf i s)).isEmpty &&
    (usesOf i s).all fun u => allBacked s.platform u.base u.size

theorem Ready.of_check {i : Instr} (h : readyCheck i s = true) : Ready i s := by
  simp only [readyCheck, Bool.and_eq_true, List.all_eq_true, List.isEmpty_iff, allBacked, List.mem_range] at h
  refine ⟨h.1.1, h.1.2, fun u hu a h1 h2 => ?_⟩
  have := h.2 u hu (a - u.base) (by omega)
  rwa [show u.base + (a - u.base) = a by omega] at this

theorem execTagFor_ready (h : Ready (.tagFor v) s) :
    execTagFor v s =
      reportErrors (errIf (tooWide v (s.argVal .arg0)) .overflow []) [] s
        (.next (s.complete [(.resVal, (tagOf v (s.argVal .arg0)).toNat)] s.mem)) := by
  unfold execTagFor
  rw [withArgs_ready (h.written (by simp only [argsRead]; decide))]

theorem execEncode_ready (h : Ready (.encode v) s) :
    execEncode v s =
      reportErrors
        (encodeErrors s (s.argVal .n) (s.argVal .n ≤ s.argVal .valLen) (encodedStream v s).2 []) (encodeUses v s) s
        (.next (s.complete [(.resCtrl, (encodedStream v s).1.length), (.resData, (encodedStream v s).2.length)]
          (writeStream s (encodedStream v s)))) := by
  unfold execEncode
  rw [withArgs_ready (h.written (by simp only [argsRead, valArgs, ctrlArgs, dataArgs]; decide)),
    withRegions_ready (uses := encodeUses v s) h.regions h.backedAll]
  rfl

/-- The three decode commands read the same operands and use the same regions. -/
theorem decodeCommand_ready {i : Instr} (engine : Bool) (ha : argsRead i = argsRead (.decode v))
    (hu : usesOf i s = decodeUses v s) (h : Ready i s) :
    decodeCommand engine v s =
      reportErrors (decodeErrors v s (s.argVal .n) []) (decodeUses v s) s
        (.next (s.complete
          [(.resCtrl, groupCount (s.argVal .n)), (.resData, (decodeBy engine v s (s.argVal .n)).2)]
          (writeVals v s (decodeBy engine v s (s.argVal .n)).1))) := by
  unfold decodeCommand
  rw [withArgs_ready (h.written (by rw [ha]; simp only [argsRead, decodeArgs, valArgs, ctrlArgs, dataArgs]; decide)),
    withRegions_ready (hu ▸ h.regions) (hu ▸ h.backedAll)]

theorem execEncodeDeltas_ready (h : Ready (.encodeDeltas v) s) :
    execEncodeDeltas v s =
      withContract (!tooWide v (s.argVal .seed) && nonMonotone (s.argVal .seed) (deltaInput v s)) .nonMonotone s
        (reportErrors
          (encodeErrors s (s.argVal .n) (!tooWide v (s.argVal .seed) && s.argVal .n ≤ s.argVal .valLen)
            (deltaStream v s).2 (errIf (tooWide v (s.argVal .seed)) .overflow []))
          (encodeUses v s) s
          (.next (s.complete
            [(.resCtrl, (deltaStream v s).1.length), (.resData, (deltaStream v s).2.length),
              (.resVal, lastOr (s.argVal .seed) (deltaInput v s))]
            (writeStream s (deltaStream v s))))) := by
  unfold execEncodeDeltas
  rw [withArgs_ready (h.written (by simp only [argsRead, valArgs, ctrlArgs, dataArgs]; decide)),
    withRegions_ready (uses := encodeUses v s) h.regions h.backedAll]
  rfl

theorem execDecodeDeltas_ready (h : Ready (.decodeDeltas v) s) :
    execDecodeDeltas v s =
      withContract (!tooWide v (s.argVal .seed) && prefixOverflow v (s.argVal .seed) (decodedDeltas v s)) .prefixOverflow s
        (reportErrors (decodeErrors v s (s.argVal .n) (errIf (tooWide v (s.argVal .seed)) .overflow [])) (decodeUses v s) s
          (.next (s.complete
            [(.resCtrl, groupCount (s.argVal .n)), (.resData, segLen v (s.argVal .n) (ctrlByte s)),
              (.resVal, lastOr (s.argVal .seed) (prefixSum (s.argVal .seed) (decodedDeltas v s)))]
            (writeVals v s (prefixSum (s.argVal .seed) (decodedDeltas v s)))))) := by
  unfold execDecodeDeltas
  rw [withArgs_ready (h.written (by simp only [argsRead, decodeArgs, valArgs, ctrlArgs, dataArgs]; decide)),
    withRegions_ready (uses := decodeUses v s) h.regions h.backedAll]
  rfl

theorem execSkipDeltas_ready (h : Ready (.skipDeltas v) s) :
    execSkipDeltas v s =
      withContract (!tooWide v (s.argVal .seed) && prefixOverflow v (s.argVal .seed) (skippedDeltas v s)) .prefixOverflow s
        (reportErrors
          (errIf (truncated v s (s.argVal .n)) .truncatedInput (errIf (tooWide v (s.argVal .seed)) .overflow []))
          (skipUses s) s
          (.next (s.complete
            [(.resVal, s.argVal .seed + (skippedDeltas v s).sum), (.resData, segLen v (s.argVal .n) (ctrlByte s)),
              (.resCtrl, groupCount (s.argVal .n))] s.mem))) := by
  unfold execSkipDeltas
  rw [withArgs_ready (h.written (by simp only [argsRead, ctrlArgs, dataArgs]; decide)),
    withRegions_ready (uses := skipUses s) h.regions h.backedAll]
  rfl

theorem execDataLen_ready (h : Ready (.dataLen v) s) :
    execDataLen v s =
      reportErrors (errIf (s.argVal .ctrlLen < groupCount (s.argVal .n)) .truncatedInput []) (dataLenUses s) s
        (if 2 ^ 64 ≤ dataLenFn v (s.argVal .n) (ctrlByte s) then modelFault .lengthOverflow s
        else .next (s.complete
          [(.resData, dataLenFn v (s.argVal .n) (ctrlByte s)), (.resCtrl, groupCount (s.argVal .n))] s.mem)) := by
  unfold execDataLen
  rw [withArgs_ready (h.written (by simp only [argsRead, ctrlArgs]; decide)),
    withRegions_ready (uses := dataLenUses s) h.regions h.backedAll]

end Sys2Proof.Machine
end

