-- ==== Sys2Proof/Laws/Step.lean ====
section
/-! SUPPORT. What one step can do, said once: the inversion lemmas of `step` and of a host's action. -/

namespace Sys2Proof.Machine

variable {s t : State}

/-- With FAULT = none, a step is the next action of the host whose turn it is. -/
theorem step_act {h : Nat} {a : HostAction} (hf : s.fault = none) (hn : s.nextAction = some (h, a)) :
    step s = act exec h a s := by
  unfold step stepWith
  rw [hf]
  simp only [hn]

theorem act_wellFormed {run : Instr → State → Host.Outcome State Fault Refusal} {h : Nat} {a : HostAction}
    (hw : a.wellFormed s.instances = true) : act run h a s = mapNext (·.advance h) (perform run h s a) := by
  unfold act
  rw [if_pos hw]

/-- A step that answers a next state was an idle turn, or a host's well-formed action followed by its move. -/
theorem step_next (h : step s = .next t) :
    s.fault = none ∧
      ((s.nextAction = none ∧ t = s.skipTurn) ∨
        ∃ k a u, s.nextAction = some (k, a) ∧ a.wellFormed s.instances = true ∧ perform exec k s a = .next u ∧
          t = u.advance k) := by
  unfold step stepWith at h
  split at h
  · cases h
  · rename_i hf
    refine ⟨hf, ?_⟩
    split at h
    · rename_i hn
      simp only [Host.Outcome.next.injEq] at h
      exact .inl ⟨hn, h.symm⟩
    · rename_i k a hn
      unfold act at h
      split at h
      · rename_i hw
        obtain ⟨u, hu, ht⟩ := mapNext_next.mp h
        exact .inr ⟨k, a, u, hn, hw, hu, ht⟩
      · cases h

/-- A CMD write that answers a next state ran the command it encodes, or ended with InvalidCommand. -/
theorem commandWrite_next {w : CmdWord} (h : commandWrite exec s w = .next t) :
    (∃ i, decodeCmd w = .ok i ∧ exec i (s.storeCmd w) = .next t) ∨
      ((∃ e, decodeCmd w = .error e) ∧ t = (s.storeCmd w).raise .invalidCommand []) := by
  unfold commandWrite at h
  split at h
  · rename_i i hd; exact .inl ⟨i, hd, h⟩
  · rename_i e hd
    simp only [illegalCommand, Host.Outcome.next.injEq] at h
    exact .inr ⟨⟨e, hd⟩, h.symm⟩

theorem writeRegister_next {off : Nat} {x : Word} (h : writeRegister s off x = .next t) :
    Faulted s t ∨ ∃ r, regAt off = some (.arg r) ∧ t = { s with blk := s.blk.writeArg r x } := by
  unfold writeRegister at h
  split at h
  · rename_i r hr
    simp only [Host.Outcome.next.injEq] at h
    exact .inr ⟨r, hr, h.symm⟩
  · cases h
  · exact .inl (modelFault_next h)

theorem allBacked_iff (P : Platform) (a k : Nat) :
    allBacked P a k = true ↔ ∀ j, j < k → backed P (a + j) = true := by simp [allBacked]

end Sys2Proof.Machine
end

