-- ==== Sys2Proof/Laws/Streams.lean ====
section
/-! SUPPORT. What the stream functions answer: segmentation, groups, tags, running sums and the decodable prefix. Rule numbers
without a file are those of 41_encoder.md, 42_scalar_decoder.md and 45_delta.md. -/

namespace Sys2Proof.Machine

/-- A length of the table is at most the element width (R3). -/
theorem tagLen_le (v : Variant) (t : Tag) : tagLen v t ≤ elemBytes v := by revert t; cases v <;> decide

/-- The scalar lane steps over a list of tags: the cursor, the number of values, and each value (R501). -/
theorem scalarLanes_spec (v : Variant) (D : Nat → Byte) (ts : List Tag) (cur : Nat) :
    (scalarLanes v D ts cur).2 = cur + (ts.map (tagLen v)).sum ∧
    (scalarLanes v D ts cur).1.length = ts.length ∧
    ∀ j, j < ts.length → (scalarLanes v D ts cur).1[j]? =
      some (laneValue D (cur + ((ts.take j).map (tagLen v)).sum) (tagLen v (ts.getD j 0))) := by
  induction ts generalizing cur with
  | nil => simp [scalarLanes]
  | cons t ts ih =>
    obtain ⟨h1, h2, h3⟩ := ih (cur + tagLen v t)
    refine ⟨?_, ?_, ?_⟩
    · simp [scalarLanes, h1]; omega
    · simp [scalarLanes, h2]
    · intro j hj
      cases j with
      | zero => simp [scalarLanes]
      | succ j =>
        have := h3 j (by simpa using hj)
        simp [scalarLanes, this, Nat.add_assoc]

/-- The tag of element 4g + i is tag i of control byte g (30_encoding.md R321). -/
theorem elemTag_block (C : Nat → Byte) (g i : Nat) (hi : i < 4) : elemTag C (4 * g + i) = laneTag (C g) i := by
  unfold elemTag
  rw [show (4 * g + i) / 4 = g by omega, show (4 * g + i) % 4 = i by omega]

theorem segLen_succ (v : Variant) (n : Nat) (C : Nat → Byte) : segLen v (n + 1) C = segLen v n C + tagLen v (elemTag C n) := by
  simp [segLen, List.range_succ]

theorem segLen_add (v : Variant) (n k : Nat) (C : Nat → Byte) :
    segLen v (n + k) C = segLen v n C + ((List.range k).map fun i => tagLen v (elemTag C (n + i))).sum := by
  induction k with
  | zero => simp
  | succ k ih => rw [← Nat.add_assoc, segLen_succ, ih, List.range_succ]; simp; omega

/-- A sequence has ceil(n / 4) groups (30_encoding.md R324). -/
theorem length_groupsOf4 {α : Type} (xs : List α) : (groupsOf4 xs).length = (xs.length + 3) / 4 := by
  induction xs using groupsOf4.induct with
  | case1 => simp [groupsOf4]
  | case2 => simp [groupsOf4]
  | case3 => simp [groupsOf4]
  | case4 => simp [groupsOf4]
  | case5 a b c d rest ih => simp [groupsOf4, ih]; omega

/-- Lane i of group g is element 4g + i. -/
theorem groupsOf4_getElem {α : Type} (xs : List α) (g i : Nat) (hi : i < 4) :
    ((groupsOf4 xs).getD g [])[i]? = xs[4 * g + i]? := by
  induction xs using groupsOf4.induct generalizing g with
  | case1 => simp [groupsOf4]
  | case2 a =>
    match g, i, hi with
    | 0, 0, _ => rfl
    | 0, j + 1, _ => simp [groupsOf4]
    | g + 1, j, _ => simp [groupsOf4]
  | case3 a b =>
    match g, i, hi with
    | 0, 0, _ => rfl
    | 0, 1, _ => rfl
    | 0, j + 2, _ => simp [groupsOf4]
    | g + 1, j, _ => simp [groupsOf4]; omega
  | case4 a b c =>
    match g, i, hi with
    | 0, 0, _ => rfl
    | 0, 1, _ => rfl
    | 0, 2, _ => rfl
    | 0, j + 3, _ => simp [groupsOf4]
    | g + 1, j, _ => simp [groupsOf4]; omega
  | case5 a b c d rest ih =>
    match g, i, hi with
    | 0, 0, _ => rfl
    | 0, 1, _ => rfl
    | 0, 2, _ => rfl
    | 0, 3, _ => rfl
    | g + 1, j, hj =>
      simp only [groupsOf4, List.getD_cons_succ]
      rw [ih g, show 4 * (g + 1) + j = (4 * g + j) + 4 by omega]; rfl

/-- Unpacking a packed control byte lane by lane (40_tagtable.md R405, R406). -/
theorem laneTag_pack (t0 t1 t2 t3 : Tag) : laneTag (pack t0 t1 t2 t3) 0 = t0 ∧ laneTag (pack t0 t1 t2 t3) 1 = t1 ∧
    laneTag (pack t0 t1 t2 t3) 2 = t2 ∧ laneTag (pack t0 t1 t2 t3) 3 = t3 := by
  revert t0 t1 t2 t3; decide

/-- The data bytes of a stream, without the grouping (R450). -/
theorem encodeStream_data (v : Variant) (xs : List Nat) : (encodeStream v xs).2 = xs.flatMap (encodeValue v) := by
  unfold encodeStream
  simp only
  induction xs using groupsOf4.induct with
  | case1 => rfl
  | case2 => simp [groupsOf4]
  | case3 => simp [groupsOf4]
  | case4 => simp [groupsOf4]
  | case5 a b c d rest ih => simp [groupsOf4, ih]

theorem laneTag_encodeStream (v : Variant) (xs : List Nat) (g : Nat) (i : Nat) (hi : i < 4) (hg : g < (xs.length + 3) / 4) :
    laneTag ((encodeStream v xs).1.getD g 0) i = (match xs[4 * g + i]? with | some x => tagOf v x | none => 0) := by
  have hl : g < (groupsOf4 xs).length := by rw [length_groupsOf4]; exact hg
  have hc : (encodeStream v xs).1.getD g 0 = encodeCtrl v ((groupsOf4 xs).getD g []) := by
    simp [encodeStream, List.getD_eq_getElem?_getD, hl]
  rw [hc]
  have := laneTag_pack (encodeTag v ((groupsOf4 xs).getD g []) 0) (encodeTag v ((groupsOf4 xs).getD g []) 1)
    (encodeTag v ((groupsOf4 xs).getD g []) 2) (encodeTag v ((groupsOf4 xs).getD g []) 3)
  let tag : Option Nat → Tag := fun o => match o with | some x => tagOf v x | none => 0
  match i, hi with
  | 0, _ => exact this.1.trans (congrArg tag (groupsOf4_getElem xs g 0 (by omega)))
  | 1, _ => exact this.2.1.trans (congrArg tag (groupsOf4_getElem xs g 1 (by omega)))
  | 2, _ => exact this.2.2.1.trans (congrArg tag (groupsOf4_getElem xs g 2 (by omega)))
  | 3, _ => exact this.2.2.2.trans (congrArg tag (groupsOf4_getElem xs g 3 (by omega)))

/-- The tags an encoded stream holds: the elements' own, then tag 0 (R450, 30_encoding.md R325). -/
theorem elemTag_encodeStream (v : Variant) (xs : List Nat) (j : Nat) (hj : j < 4 * ((xs.length + 3) / 4)) :
    elemTag (fun g => (encodeStream v xs).1.getD g 0) j = (match xs[j]? with | some x => tagOf v x | none => 0) := by
  unfold elemTag
  simp only []
  rw [laneTag_encodeStream v xs (j / 4) (j % 4) (by omega) (by omega), show 4 * (j / 4) + j % 4 = j by omega]

theorem prefixSum_append (s : Nat) (a b : List Nat) : prefixSum s (a ++ b) = prefixSum s a ++ prefixSum (s + a.sum) b := by
  induction a generalizing s with
  | nil => simp [prefixSum]
  | cons d a ih => simp [prefixSum, ih, Nat.add_assoc]

theorem length_prefixSum (s : Nat) (a : List Nat) : (prefixSum s a).length = a.length := by
  induction a generalizing s with
  | nil => rfl
  | cons d a ih => simp [prefixSum, ih]

theorem length_deltas (s : Nat) (xs : List Nat) : (deltas s xs).length = xs.length := by
  induction xs generalizing s with
  | nil => rfl
  | cons x xs ih => simp [deltas, ih]

theorem tooWide_iff (v : Variant) (x : Nat) : tooWide v x = true ↔ 2 ^ elemBits v ≤ x := by simp [tooWide]

theorem tooWide_eq_false (v : Variant) (x : Nat) : tooWide v x = false ↔ x < 2 ^ elemBits v := by simp [tooWide]

/-- NonMonotone (R605). -/
theorem nonMonotone_iff (s : Nat) (xs : List Nat) : nonMonotone s xs = true ↔ ¬(s :: xs).Pairwise (· ≤ ·) := by
  induction xs generalizing s with
  | nil => simp [nonMonotone]
  | cons x xs ih =>
    simp only [nonMonotone, Bool.or_eq_true, decide_eq_true_eq, ih]
    constructor
    · rintro (h | h) hp
      · have := (List.pairwise_cons.mp hp).1 x List.mem_cons_self; omega
      · exact h (List.pairwise_cons.mp hp).2
    · intro h
      by_contra hc
      simp only [not_or, not_not, Nat.not_lt] at hc
      apply h
      refine List.pairwise_cons.mpr ⟨?_, hc.2⟩
      intro y hy
      rcases List.mem_cons.mp hy with rfl | hy
      · exact hc.1
      · exact hc.1.trans ((List.pairwise_cons.mp hc.2).1 y hy)

/-- PrefixOverflow (R605): some running sum of one or more differences reaches 2^W. -/
theorem prefixOverflow_iff (v : Variant) (s : Nat) (ds : List Nat) :
    prefixOverflow v s ds = true ↔ ∃ j, j ≤ ds.length ∧ j ≠ 0 ∧ 2 ^ elemBits v ≤ s + (ds.take j).sum := by
  unfold prefixOverflow
  induction ds generalizing s with
  | nil => simp [prefixSum]
  | cons d ds ih =>
    simp only [prefixSum, List.any_cons, Bool.or_eq_true, ih, tooWide_iff]
    constructor
    · rintro (h | ⟨j, h1, h2, h3⟩)
      · exact ⟨1, by simp, by simp, by simpa using h⟩
      · exact ⟨j + 1, by simpa using h1, by simp, by simpa [Nat.add_assoc] using h3⟩
    · rintro ⟨j, h1, h2, h3⟩
      cases j with
      | zero => simp at h2
      | succ j =>
        by_cases hj : j = 0
        · subst hj; left; simpa using h3
        · right; exact ⟨j, by simpa using h1, hj, by simpa [Nat.add_assoc] using h3⟩

/-- What the bounded search answers. -/
theorem largestUpTo_spec (p : Nat → Bool) (m : Nat) (h0 : p 0 = true) :
    p (largestUpTo p m) = true ∧ largestUpTo p m ≤ m ∧ ∀ k, k ≤ m → p k = true → k ≤ largestUpTo p m := by
  induction m with
  | zero => exact ⟨h0, le_rfl, fun k hk _ => hk⟩
  | succ m ih =>
    unfold largestUpTo
    split
    · rename_i h; exact ⟨h, le_rfl, fun k hk _ => hk⟩
    · rename_i h
      refine ⟨ih.1, ih.2.1.trans (by omega), fun k hk hp => ?_⟩
      rcases Nat.lt_or_ge m k with hlt | hle
      · obtain rfl : k = m + 1 := by omega
        exact absurd hp h
      · exact ih.2.2 k hle hp

/-- The decodable prefix is the largest k ≤ n whose control bytes and data bytes are all there (R602). -/
theorem decodablePrefix_spec (v : Variant) (s : State) (n : Nat) :
    groupCount (decodablePrefix v s n) ≤ s.argVal .ctrlLen ∧
      segLen v (decodablePrefix v s n) (ctrlByte s) ≤ s.argVal .dataLen ∧ decodablePrefix v s n ≤ n ∧
      ∀ k, k ≤ n → groupCount k ≤ s.argVal .ctrlLen → segLen v k (ctrlByte s) ≤ s.argVal .dataLen →
        k ≤ decodablePrefix v s n := by
  have h := largestUpTo_spec (fun k => groupCount k ≤ s.argVal .ctrlLen && segLen v k (ctrlByte s) ≤ s.argVal .dataLen)
    (min n (4 * s.argVal .ctrlLen)) (by simp [groupCount, segLen])
  obtain ⟨h1, h2, h3⟩ := h
  simp only [Bool.and_eq_true, decide_eq_true_eq] at h1 h3
  refine ⟨h1.1, h1.2, h2.trans (Nat.min_le_left _ _), fun k hk hg hd => h3 k ?_ ⟨hg, hd⟩⟩
  unfold groupCount at hg; omega

@[simp] theorem length_valElems (v : Variant) (s : State) (n : Nat) : (valElems v s n).length = n := by simp [valElems]

end Sys2Proof.Machine
end

