-- ==== Sys2Proof/Tests/Slice0.lean ====
section
/-! SUPPORT. Tests. Expected words, values and bytes are those of 95_test_vectors.md, row by row as each comment says; the words of
the decode tests are written out bit by bit from 30_encoding.md R301 to R303. -/

namespace Sys2Proof.Tests

open Sys2Proof.Machine

/-! ### Words and actions that are not well formed (L2.1, the table of illegal words) -/

theorem test_rsv_bit_is_refused : wordWellFormed 0x00000410 = false ∧ rsvIsZero 0x80000020 = false := by decide

theorem test_reserved_variant_is_refused : wordWellFormed 0x00000303 = false ∧ varIsNamed 0x00000310 = false := by decide

theorem test_reserved_opcode_is_refused : wordWellFormed 0x00000005 = false ∧ opcIsListed 0x000000FF = false := by decide

theorem test_legal_word_is_accepted : wordWellFormed 0x00000240 = true := by decide

theorem test_missing_instance_is_refused :
    (HostAction.writeCmd 1 1).wellFormed 1 = false ∧ (HostAction.readReg 2 8).wellFormed 2 = false := by decide

theorem test_wide_cmd_write_is_refused : (HostAction.writeReg 0 0 1).wellFormed 1 = false := by decide

theorem test_instr_is_well_formed : (Instr.encode .v1234).wellFormed = true := by decide

theorem test_refusals_are_named :
    decodeCmd 0x00000410 = .error .reservedBits ∧ decodeCmd 0x00000303 = .error .reservedVariant ∧
      decodeCmd 0x00000000 = .error .reservedOpcode := by decide

/-! ### Decoding, word by word: RSV (22 bits), VAR (2 bits), OPC (8 bits) -/

theorem test_decode_tagFor : decodeCmd 0b0000000000000000000000_00_00000001 = .ok (.tagFor .v1234) := by decide
theorem test_decode_byteLen : decodeCmd 0b0000000000000000000000_01_00000010 = .ok (.byteLen .v0124) := by decide
theorem test_decode_packCtrl : decodeCmd 0b0000000000000000000000_10_00000011 = .ok (.packCtrl .v1248) := by decide
theorem test_decode_unpackCtrl : decodeCmd 0b0000000000000000000000_00_00000100 = .ok (.unpackCtrl .v1234) := by decide
theorem test_decode_encode : decodeCmd 0b0000000000000000000000_01_00010000 = .ok (.encode .v0124) := by decide
theorem test_decode_decode : decodeCmd 0b0000000000000000000000_10_00100000 = .ok (.decode .v1248) := by decide
theorem test_decode_decodeScalar : decodeCmd 0b0000000000000000000000_00_00100001 = .ok (.decodeScalar .v1234) := by decide
theorem test_decode_decodeVector : decodeCmd 0b0000000000000000000000_01_00100010 = .ok (.decodeVector .v0124) := by decide
theorem test_decode_shufEntry : decodeCmd 0b0000000000000000000000_10_00100011 = .ok (.shufEntry .v1248) := by decide
theorem test_decode_encodeDeltas : decodeCmd 0b0000000000000000000000_00_00110000 = .ok (.encodeDeltas .v1234) := by decide
theorem test_decode_decodeDeltas : decodeCmd 0b0000000000000000000000_01_00110001 = .ok (.decodeDeltas .v0124) := by decide
theorem test_decode_skipDeltas : decodeCmd 0b0000000000000000000000_10_00110010 = .ok (.skipDeltas .v1248) := by decide
theorem test_decode_dataLen : decodeCmd 0b0000000000000000000000_00_01000000 = .ok (.dataLen .v1234) := by decide

theorem test_table_word : decodeTableWord 32 0x132 = some (.skipDeltas .v0124) ∧ decodeTableWord 32 0x332 = none := by decide

/-! ### Small states -/

/-- The launch parameters of L3: the engine is present, granularity FULL, memory at [0x1000, 0x10000); two instances. -/
def platform : Platform := ⟨true, .full, 0x100000, [0x200000], [(0x1000, 0x10000)]⟩

/-- A machine at launch whose selected instance has the listed arguments written. -/
def machine (args : List (ArgReg × Word)) (mem : Memory) : State :=
  { State.launch platform mem [] [] with
    blk := args.foldl (fun b a => b.writeArg a.1 a.2) (Block.reset true) }

/-- One host whose next action is `a`. -/
def hostState (a : HostAction) : State :=
  { machine [(.arg0, 70000)] [(0x1000, 5)] with hosts := [⟨[a], 0, []⟩], turns := [0] }

/-- Something holds of the next state an outcome has. -/
def next? (p : State → Bool) : Host.Outcome State Fault Refusal → Bool
  | .next t => p t
  | _ => false

/-- FAULT holds the reason `r`. -/
def faults (r : UB) (t : State) : Bool := t.fault == some r

theorem of_next? {p : State → Bool} {o : Host.Outcome State Fault Refusal} (h : next? p o = true) :
    ∃ t, o = .next t ∧ p t = true := by
  cases o with
  | next t => exact ⟨t, rfl, h⟩
  | _ => cases h

/-- The values [5, 300, 70000, 1] of L1 at 0x1000, each 4 bytes little-endian. -/
def valuesL1 : Memory := [(0x1000, 5), (0x1004, 0x2C), (0x1005, 1), (0x1008, 0x70), (0x1009, 0x11), (0x100A, 1), (0x100C, 1)]

/-- The stream of L1: control byte 0x24 at 0x2000, data bytes from 0x3000. -/
def streamL1 : Memory :=
  [(0x2000, 0x24), (0x3000, 5), (0x3001, 0x2C), (0x3002, 1), (0x3003, 0x70), (0x3004, 0x11), (0x3005, 1), (0x3006, 1)]

/-- Encoding arguments for the values of L1, with `d` bytes of DATA. -/
def encodeState (d : Word) : State :=
  machine [(.n, 4), (.valBase, 0x1000), (.valLen, 4), (.ctrlBase, 0x2000), (.ctrlLen, 1), (.dataBase, 0x3000), (.dataLen, d)]
    valuesL1

/-- Decoding arguments for the stream of L1, with `d` bytes of DATA, SEED and VAL_LEN as given. -/
def decodeState (d seed len : Word) : State :=
  machine [(.n, 4), (.seed, seed), (.ctrlBase, 0x2000), (.ctrlLen, 1), (.dataBase, 0x3000), (.dataLen, d), (.valBase, 0x4000),
    (.valLen, len)] streamL1

/-- Arguments to encode the deltas of ED1, [105, 405, 70405, 70406] from the given seed. -/
def deltaState (seed : Word) : State :=
  machine [(.n, 4), (.seed, seed), (.valBase, 0x1000), (.valLen, 4), (.ctrlBase, 0x2000), (.ctrlLen, 1), (.dataBase, 0x3000),
    (.dataLen, 7)]
    [(0x1000, 105), (0x1004, 0x95), (0x1005, 1), (0x1008, 0x05), (0x1009, 0x13), (0x100A, 1), (0x100C, 0x06), (0x100D, 0x13),
      (0x100E, 1)]

/-- What the results of a command with STATUS = OK are. -/
def gives (rs : List (ResReg × Word)) (t : State) : Bool :=
  t.blk.status == 0 && rs.all fun r => t.blk.res r.1 == ⟨r.2, true⟩

/-! ### One command each, from the spec's vectors -/

/-- R410's example. -/
theorem test_tagFor : next? (gives [(.resVal, 2)]) (exec (.tagFor .v1234) (machine [(.arg0, 70000)] [])) = true := by decide
/-- L2.2: 0x100000000 is Overflow in V0124. -/
theorem test_tagFor_overflow :
    next? (fun t => t.blk.status == 3 && !t.blk.resVal.wr) (exec (.tagFor .v0124) (machine [(.arg0, 0x100000000)] [])) = true := by
  decide
/-- R411's example. -/
theorem test_byteLen : next? (gives [(.resVal, 4)]) (exec (.byteLen .v1248) (machine [(.arg0, 2)] [])) = true := by decide
/-- L2.2: ARG0 = 4. -/
theorem test_byteLen_reserved : next? (fun t => t.blk.status == 5) (exec (.byteLen .v1234) (machine [(.arg0, 4)] [])) = true := by
  decide
/-- L2.2. -/
theorem test_packCtrl :
    next? (gives [(.resVal, 0x24)]) (exec (.packCtrl .v1234) (machine [(.arg0, 0x00020100)] [])) = true := by decide
/-- L2.2. -/
theorem test_packCtrl_reserved :
    next? (fun t => t.blk.status == 5) (exec (.packCtrl .v1248) (machine [(.arg0, 0x04000000)] [])) = true := by decide
/-- L2.2. -/
theorem test_unpackCtrl :
    next? (gives [(.resVal, 0x00010203)]) (exec (.unpackCtrl .v1234) (machine [(.arg0, 0x1B)] [])) = true := by decide
/-- L2.2. -/
theorem test_unpackCtrl_reserved :
    next? (fun t => t.blk.status == 5) (exec (.unpackCtrl .v0124) (machine [(.arg0, 0x100)] [])) = true := by decide
/-- S1. -/
theorem test_shufEntry :
    next? (gives [(.resDesc0, 0xFFFF0201FFFFFF00), (.resDesc1, 0xFFFFFF06FF050403), (.resDesc2, 0), (.resDesc3, 0), (.resVal, 7)])
      (exec (.shufEntry .v1234) (machine [(.arg0, 0x24)] [])) = true := by decide
/-- S9. -/
theorem test_shufEntry_half :
    next? (gives [(.resDesc0, 0xFFFFFFFFFFFFFF00), (.resDesc1, 0xFFFFFFFFFFFF0201), (.resDesc2, 0), (.resDesc3, 0), (.resVal, 3)])
      (exec (.shufEntry .v1248) (machine [(.arg0, 0x104)] [])) = true := by decide
/-- E3. -/
theorem test_encode :
    next? (fun t => gives [(.resCtrl, 1), (.resData, 7)] t && t.mem.bytes 0x2000 1 == [0x24] &&
      t.mem.bytes 0x3000 8 == [0x05, 0x2C, 0x01, 0x70, 0x11, 0x01, 0x01, 0x00])
        (exec (.encode .v1234) (encodeState 16)) = true := by
  decide
/-- EE2. -/
theorem test_encode_small : next? (fun t => t.blk.status == 1) (exec (.encode .v1234) (encodeState 6)) = true := by decide
/-- D2. -/
theorem test_decodeScalar :
    next? (fun t => gives [(.resCtrl, 1), (.resData, 7)] t && valElems .v1234 t 4 == [5, 300, 70000, 1])
      (exec (.decodeScalar .v1234) (decodeState 7 0 4)) = true := by decide
/-- DE1. -/
theorem test_decodeScalar_truncated :
    next? (fun t => t.blk.status == 2) (exec (.decodeScalar .v1234) (decodeState 6 0 4)) = true := by decide
/-- D2, by the strategy of the platform, the vector engine, which takes scalar steps here (V1). -/
theorem test_decode :
    next? (fun t => gives [(.resCtrl, 1), (.resData, 7)] t && valElems .v1234 t 4 == [5, 300, 70000, 1])
      (exec (.decode .v1234) (decodeState 7 0 4)) = true := by decide
/-- DE3. -/
theorem test_decode_small : next? (fun t => t.blk.status == 1) (exec (.decode .v1234) (decodeState 7 0 3)) = true := by decide
/-- V2: with 16 bytes of DATA the group goes through SHUF[V1234][0x24]. -/
theorem test_decodeVector :
    next? (fun t => gives [(.resCtrl, 1), (.resData, 7)] t && valElems .v1234 t 4 == [5, 300, 70000, 1])
      (exec (.decodeVector .v1234) (decodeState 16 0 4)) = true := by decide
/-- ED1. -/
theorem test_encodeDeltas :
    next? (fun t => gives [(.resCtrl, 1), (.resData, 7), (.resVal, 70406)] t && t.mem.bytes 0x2000 1 == [0x24] &&
      t.mem.bytes 0x3000 7 == [0x05, 0x2C, 0x01, 0x70, 0x11, 0x01, 0x01])
        (exec (.encodeDeltas .v1234) (deltaState 100)) = true := by
  decide
/-- ED8: a first value below the seed. -/
theorem test_encodeDeltas_nonMonotone :
    next? (faults .nonMonotone) (exec (.encodeDeltas .v1234) (deltaState 106)) = true := by decide
/-- DD1. -/
theorem test_decodeDeltas :
    next? (fun t => gives [(.resCtrl, 1), (.resData, 7), (.resVal, 70406)] t &&
      valElems .v1234 t 4 == [105, 405, 70405, 70406]) (exec (.decodeDeltas .v1234) (decodeState 7 100 4)) = true := by decide
/-- DD9's case: a running sum reaches 2^32. -/
theorem test_decodeDeltas_overflow :
    next? (faults .prefixOverflow) (exec (.decodeDeltas .v1234) (decodeState 7 0xFFFFFFFF 4)) = true := by decide
/-- DD2. -/
theorem test_skipDeltas :
    next? (fun t => gives [(.resCtrl, 1), (.resData, 7), (.resVal, 70406)] t && t.mem == streamL1)
      (exec (.skipDeltas .v1234) (decodeState 7 100 4)) = true := by decide
/-- DD11: two elements are decodable, their sum does not overflow, and the reported error stands. -/
theorem test_skipDeltas_truncated :
    next? (fun t => t.blk.status == 2) (exec (.skipDeltas .v1234) (decodeState 3 0 4)) = true := by decide
/-- L3: the tail group counts its one valid lane, and the second control byte, 0x00, has it at length 1. -/
theorem test_dataLen :
    next? (gives [(.resCtrl, 2), (.resData, 5)])
      (exec (.dataLen .v1234) (machine [(.n, 5), (.ctrlBase, 0x2000), (.ctrlLen, 2)] [])) = true := by decide
/-- L11. -/
theorem test_dataLen_truncated :
    next? (fun t => t.blk.status == 2)
      (exec (.dataLen .v1234) (machine [(.n, 5), (.ctrlBase, 0x2000), (.ctrlLen, 1)] streamL1)) = true := by decide

/-! ### Steps -/

/-- The first step of a reset machine with a word placed runs that word's command: an argument no host has written is the model
fault of 10_state.md R106. -/
theorem test_reset_runs_the_placed_word :
    next? (faults .unwrittenArgument) (step (State.reset.withFetchWord 32 0x01)) = true := by decide

/-- The illegal word 0 at reset ends with InvalidCommand (L2.1). -/
theorem test_reset_illegal_word : next? (fun t => t.blk.status == 5) (step (State.reset.withFetchWord 32 0)) = true := by decide

/-- A region past the backed range has no step (EE-style row of 60_exceptions.md R712). -/
theorem test_unbacked_region_is_stuck :
    (match exec (.dataLen .v1234) (machine [(.n, 0), (.ctrlBase, 0xFFFF), (.ctrlLen, 2)] []) with
      | .fault .stuck => true
      | _ => false) = true := by decide

/-! ### Witnesses: for each statement with hypotheses, a state that meets them, clause by clause, at the ends of their ranges -/

/-- STATUS = OK and no model fault. -/
def ok (t : State) : Bool := t.fault.isNone && t.blk.status == 0

theorem of_ok {i : Instr} {s : State} (h : next? ok (exec i s) = true) : ∃ t, EndsOk i s t := by
  obtain ⟨t, h1, h2⟩ := of_next? h
  exact ⟨t, h1, by simpa [ok] using h2⟩

/-- Every argument register written, so that every command completes. -/
def fullState : State :=
  machine [(.n, 4), (.seed, 0), (.arg0, 1), (.ctrlBase, 0x2000), (.ctrlLen, 1), (.dataBase, 0x3000), (.dataLen, 16),
    (.valBase, 0x4000), (.valLen, 4)] streamL1

/-- Every command of a variant. -/
def commands (v : Variant) : List Instr :=
  [.tagFor v, .byteLen v, .packCtrl v, .unpackCtrl v, .encode v, .decode v, .decodeScalar v, .decodeVector v, .shufEntry v,
    .encodeDeltas v, .decodeDeltas v, .skipDeltas v, .dataLen v]

/-- CommandsEndExactlyWhen, CommandsLeaveTheRestAlone, ResultRegistersWritten and CommandsStoreOnlyToOutputs: every command ends
with STATUS = OK somewhere, from FAULT = none. -/
theorem witness_every_command_completes : fullState.fault = none ∧
    ∀ v ∈ [Variant.v1234, .v0124, .v1248], ∀ i ∈ commands v, ∃ t, EndsOk i fullState t :=
  ⟨by decide, fun v hv i hi => of_ok ((by decide : ∀ v ∈ [Variant.v1234, .v0124, .v1248], ∀ i ∈ commands v,
    next? ok (exec i fullState) = true) v hv i hi)⟩

/-- CommandsEndExactlyWhen: a command that is stuck, its last byte the only one outside Backed. -/
theorem witness_CommandsEndExactlyWhen :
    let s := machine [(.n, 0), (.ctrlBase, 0xFFFF), (.ctrlLen, 2)] []
    (∀ r ∈ argsRead (.dataLen .v1234), (s.blk.arg r).wr = true) ∧ regionFaults (usesOf (.dataLen .v1234) s) = [] ∧
      ∃ u ∈ usesOf (.dataLen .v1234) s, u.base ≤ 0x10000 ∧ 0x10000 < u.base + u.size ∧
        backed s.platform 0x10000 = false := by decide

theorem witness_StepRunsDecodedCommand :
    ∀ k ∈ [0, 1], (hostState (.writeCmd k 1)).fault = none ∧
      (hostState (.writeCmd k 1)).nextAction = some (0, .writeCmd k 1) ∧ k < (hostState (.writeCmd k 1)).instances ∧
      decodeCmd 1 = .ok (.tagFor .v1234) := by decide

theorem witness_PlacedWordRunsNext :
    decodeTableWord 32 0x001 = some (.tagFor .v1234) ∧ decodeTableWord 32 0x240 = some (.dataLen .v1248) := by decide

theorem witness_IllegalWordEndsInvalidCommand :
    ∀ k ∈ [0, 1], ∀ w ∈ [(0x00000401 : CmdWord), 0x00000301, 0x00000000, 0x000000FF],
      (hostState (.writeCmd k w)).fault = none ∧ (hostState (.writeCmd k w)).nextAction = some (0, .writeCmd k w) ∧
      k < (hostState (.writeCmd k w)).instances ∧
      (w.toNat / 2 ^ 10 ≠ 0 ∨ w.toNat / 2 ^ 8 % 4 = 3 ∨ w.toNat % 2 ^ 8 ∉ listedOpcodes.map (·.toNat)) := by
  simp only [List.forall_mem_cons, List.not_mem_nil, false_implies, implies_true, and_true]
  constructorm* _ ∧ _ <;> decide

theorem witness_OnlyHostActionsMoveTheMachine :
    (hostState (.readReg 0 0x08) |>.setFault .overlap).fault = some .overlap ∧
      (State.launch platform [] [] []).nextAction = none ∧ (State.launch platform [] [[]] [0]).nextAction = none ∧
      (State.launch platform [] [] [1]).nextAction = none ∧ (State.launch platform [] [] [1]).fault = none ∧
      ∃ t, step (hostState (.readReg 0 0x08)) = .next t ∧ t.fault.isNone = true :=
  ⟨by decide, by decide, by decide, by decide, by decide, of_next? (p := fun t => t.fault.isNone) (by decide)⟩

theorem witness_HostPositionAdvances :
    (hostState (.readReg 0 0x08)).nextAction = some (0, .readReg 0 0x08) ∧
      ∃ t, step (hostState (.readReg 0 0x08)) = .next t ∧ (t.hosts.all fun x => x.p == 1) = true :=
  ⟨by decide, of_next? (by decide)⟩

theorem witness_ArgumentWriteChangesOneRegister :
    ∀ k ∈ [0, 1], ∀ off ∈ [0x20, 0x60], (hostState (.writeReg k off 7)).fault = none ∧
      (hostState (.writeReg k off 7)).nextAction = some (0, .writeReg k off 7) ∧
      k < (hostState (.writeReg k off 7)).instances ∧ regAt 0x20 = some (.arg .n) ∧ regAt 0x60 = some (.arg .valLen) := by
  decide

theorem witness_ReservedAccessFaults :
    (∀ off ∈ [0x08, 0x10, 0x18, 0x68, 0x98, 0xA0, 0x21], (hostState (.writeReg 1 off 7)).fault = none ∧
      (hostState (.writeReg 1 off 7)).nextAction = some (0, .writeReg 1 off 7) ∧
      1 < (hostState (.writeReg 1 off 7)).instances ∧ off ≠ 0 ∧
      ∀ r ∈ [ArgReg.n, .seed, .arg0, .ctrlBase, .ctrlLen, .dataBase, .dataLen, .valBase, .valLen],
        regAt off ≠ some (.arg r)) ∧
    ∀ off ∈ [0x01, 0x9F, 0xA0], (hostState (.readReg 1 off)).fault = none ∧
      (hostState (.readReg 1 off)).nextAction = some (0, .readReg 1 off) ∧ (off % 8 ≠ 0 ∨ 0xA0 ≤ off) := by decide

theorem witness_HostReadsRegisters :
    (∀ off ∈ [0x00, 0x08, 0x10, 0x18, 0x20, 0x30, 0x68, 0x98], (hostState (.readReg 0 off)).fault = none ∧
      (hostState (.readReg 0 off)).nextAction = some (0, .readReg 0 off) ∧
      ((hostState (.readReg 0 off)).blocks[0]?).isSome = true) ∧
    regAt 0x30 = some (.arg .arg0) ∧ (hostState (.readReg 0 0x30)).blk.arg0.wr = true ∧
    regAt 0x20 = some (.arg .n) ∧ (hostState (.readReg 0 0x20)).blk.n.wr = false ∧
    regAt 0x98 = some (.res .resDesc3) ∧ (hostState (.readReg 0 0x98)).blk.resDesc3.wr = false ∧
    regAt 0x68 = some (.res .resCtrl) ∧
    ((hostState (.readReg 0 0x68)).complete [(.resCtrl, 1)] []).blk.resCtrl.wr = true := by decide

theorem witness_HostMemoryAccess :
    (∀ a ∈ [(0x1000 : Word), 0xFFFE], (hostState (.writeMem a [1, 2])).fault = none ∧
      (hostState (.writeMem a [1, 2])).mem.wf = true ∧
      (hostState (.writeMem a [1, 2])).nextAction = some (0, .writeMem a [1, 2]) ∧
      (hostState (.readMem a 2)).nextAction = some (0, .readMem a 2) ∧
      ∀ j, j < 2 → backed (hostState (.writeMem a [1, 2])).platform (a.toNat + j) = true) ∧
    ∀ a ∈ [(0x0FFF : Word), 0xFFFF], (hostState (.writeMem a [1, 2])).nextAction = some (0, .writeMem a [1, 2]) ∧
      (hostState (.readMem a 2)).nextAction = some (0, .readMem a 2) ∧
      ∃ j, j < 2 ∧ backed (hostState (.writeMem a [1, 2])).platform (a.toNat + j) = false := by
  simp only [List.forall_mem_cons, List.not_mem_nil, false_implies, implies_true, and_true]
  constructorm* _ ∧ _ <;> decide

theorem witness_TagIsSmallestThatFits :
    ∀ v ∈ [Variant.v1234, .v0124, .v1248], 0 < 2 ^ elemBits v ∧ 2 ^ elemBits v - 1 < 2 ^ elemBits v ∧
      minimalBytes (2 ^ elemBits v - 1) ≤ tagLen v 3 := by decide

theorem witness_ValueFitsItsTagLength :
    ∀ v ∈ [Variant.v1234, .v0124, .v1248], 0 < 2 ^ elemBits v ∧ 2 ^ elemBits v - 1 < 2 ^ elemBits v := by decide

/-- A machine with ARG0 = `a`. -/
def argState (a : Word) : State := machine [(.arg0, a)] []

/-- TagForResult, ByteLenResult, PackCtrlResult, UnpackCtrlResult and ShufEntryResult: ARG0 unwritten. -/
theorem witness_unwritten_arg0 : (machine [] []).blk.arg0.wr = false := by decide

theorem witness_TagForResult :
    ∀ v ∈ [Variant.v1234, .v0124], (argState 0x100000000).blk.arg0.wr = true ∧
      2 ^ elemBits v ≤ (argState 0x100000000).blk.arg0.val.toNat ∧
      (argState 0xFFFFFFFF).blk.arg0.wr = true ∧ (argState 0xFFFFFFFF).blk.arg0.val.toNat < 2 ^ elemBits v := by decide

theorem witness_ByteLenResult :
    (argState 4).blk.arg0.wr = true ∧ 3 < (argState 4).blk.arg0.val.toNat ∧ (argState 3).blk.arg0.wr = true ∧
      (argState 3).blk.arg0.val.toNat ≤ 3 := by decide

theorem witness_PackCtrlResult :
    (argState 4).blk.arg0.wr = true ∧ (argState 4).blk.arg0.val &&& ~~~0x03030303 ≠ 0 ∧
      (argState 0x03030303).blk.arg0.wr = true ∧ (argState 0x03030303).blk.arg0.val &&& ~~~0x03030303 = 0 := by decide

theorem witness_UnpackCtrlResult :
    (argState 0x100).blk.arg0.wr = true ∧ 0xFF < (argState 0x100).blk.arg0.val.toNat ∧
      (argState 0xFF).blk.arg0.wr = true ∧ (argState 0xFF).blk.arg0.val.toNat ≤ 0xFF := by decide

/-- ARG0 at each end: 0x200 and 0x110 are illegal for V1248, 0x100 for the others; 0x10F is legal for V1248, 0xFF for all. -/
theorem witness_ShufEntryResult :
    let illegal (v : Variant) (a : Nat) : Prop := 2 ^ 9 ≤ a ∨ (a / 2 ^ 8 % 2 = 1 ∧ (v ≠ .v1248 ∨ a / 2 ^ 4 % 2 ^ 4 ≠ 0))
    (∀ a ∈ [(0x200 : Word), 0x110, 0x100, 0x10F, 0xFF], (argState a).blk.arg0.wr = true) ∧
      illegal .v1248 (argState 0x200).blk.arg0.val.toNat ∧ illegal .v1248 (argState 0x110).blk.arg0.val.toNat ∧
      illegal .v1234 (argState 0x100).blk.arg0.val.toNat ∧ ¬illegal .v1248 (argState 0x10F).blk.arg0.val.toNat ∧
      ¬illegal .v0124 (argState 0xFF).blk.arg0.val.toNat := by
  simp only [List.forall_mem_cons, List.not_mem_nil, false_implies, implies_true, and_true]
  constructorm* _ ∧ _ <;> decide

theorem witness_DecodeCommandsAgree :
    ∃ t, EndsOk (.decodeScalar .v1234) (decodeState 7 0 4) t := of_ok (by decide)

/-- EncoderIsMinimal and DecodeStreamInvertsEncodeStream: values at both ends of the range, five of them, so that three lanes of
the last control byte are unused. -/
theorem witness_values_in_range :
    (∀ x ∈ [0, 0xFF, 0x100, 0xFFFF, 2 ^ 32 - 1], x < 2 ^ elemBits .v0124) ∧
      4 < [0, 0xFF, 0x100, 0xFFFF, 2 ^ 32 - 1].length ∧ [0, 0xFF, 0x100, 0xFFFF, 2 ^ 32 - 1].length ≤ 5 ∧
      7 < 4 * (([0, 0xFF, 0x100, 0xFFFF, 2 ^ 32 - 1].length + 3) / 4) := by decide

theorem witness_ElementsAreSegmentedByTags : 0 < 5 ∧ 4 < 5 := by decide

/-- The unused lanes of the control byte and the data byte past the one the element spans differ. -/
theorem witness_UnusedLanesAndSurplusAreIgnored :
    (∀ j, j < 1 → elemTag (fun _ => 0x00) j = elemTag (fun _ => 0xFC) j) ∧
      ∀ j, j < segLen .v1234 1 (fun _ => 0x00) → (7 : Byte) = if j = 0 then 7 else 9 := by decide

/-- A first value equal to the seed, a value that repeats, and the largest value. -/
theorem witness_PrefixSumInvertsDeltas :
    (100 :: [100, 405, 405, 2 ^ 32 - 1]).Pairwise (· ≤ ·) ∧
      (∀ x ∈ [100, 405, 405, 2 ^ 32 - 1], x < 2 ^ elemBits .v1234) ∧ 3 < [100, 405, 405, 2 ^ 32 - 1].length := by decide

theorem witness_ResumeAtGroupBoundary : 4 * 0 ≤ 0 ∧ 4 * 1 ≤ 4 ∧ 4 * 1 ≤ 5 := by decide

/-- DATA of exactly the length of the stream. -/
theorem witness_EncodeCompletes :
    Ready (.encode .v1234) (encodeState 7) ∧ (encodeState 7).argVal .n ≤ (encodeState 7).argVal .valLen ∧
      ((encodeState 7).argVal .n + 3) / 4 ≤ (encodeState 7).argVal .ctrlLen ∧
      (encodeStream .v1234 (valElems .v1234 (encodeState 7) 4)).2.length ≤ (encodeState 7).argVal .dataLen :=
  ⟨Ready.of_check (by decide), by decide, by decide, by decide⟩

theorem witness_EncodersStoreExactlyTheStream :
    (encodeState 7).mem.wf = true ∧ (∃ t, EndsOk (.encode .v1234) (encodeState 7) t) ∧
      (deltaState 105).mem.wf = true ∧ ∃ t, EndsOk (.encodeDeltas .v1234) (deltaState 105) t :=
  ⟨by decide, of_ok (by decide), by decide, of_ok (by decide)⟩

theorem witness_DecodeCommandsComplete :
    ∀ i ∈ [Instr.decodeScalar .v1234, .decode .v1234, .decodeVector .v1234], Ready i (decodeState 7 0 4) ∧
      (decodeState 7 0 4).argVal .n ≤ (decodeState 7 0 4).argVal .valLen ∧
      ((decodeState 7 0 4).argVal .n + 3) / 4 ≤ (decodeState 7 0 4).argVal .ctrlLen ∧
      segLen .v1234 4 (ctrlByte (decodeState 7 0 4)) ≤ (decodeState 7 0 4).argVal .dataLen :=
  fun i hi => ⟨Ready.of_check ((by decide : ∀ i ∈ [Instr.decodeScalar .v1234, .decode .v1234, .decodeVector .v1234],
    readyCheck i (decodeState 7 0 4) = true) i hi), by decide, by decide, by decide⟩

/-- DecodersStoreExactlyTheValues and DataLenMatchesDecoders. -/
theorem witness_decoders_end_ok :
    (decodeState 7 0 4).mem.wf = true ∧
      ∀ i ∈ [Instr.decodeScalar .v1234, .decode .v1234, .decodeVector .v1234, .decodeDeltas .v1234, .skipDeltas .v1234],
        ∃ t, EndsOk i (decodeState 7 0 4) t :=
  ⟨by decide, fun i hi => of_ok ((by decide : ∀ i ∈ [Instr.decodeScalar .v1234, .decode .v1234, .decodeVector .v1234,
    .decodeDeltas .v1234, .skipDeltas .v1234], next? ok (exec i (decodeState 7 0 4)) = true) i hi)⟩

/-- A first value equal to the seed, and DATA of exactly the length of the stream. -/
theorem witness_EncodeDeltasCompletes :
    let s := deltaState 105
    Ready (.encodeDeltas .v1234) s ∧ s.argVal .seed < 2 ^ elemBits .v1234 ∧ s.argVal .n ≤ s.argVal .valLen ∧
      (s.argVal .seed :: valElems .v1234 s 4).Pairwise (· ≤ ·) ∧ (s.argVal .n + 3) / 4 ≤ s.argVal .ctrlLen ∧
      (encodeStream .v1234 (deltas (s.argVal .seed) (valElems .v1234 s 4))).2.length ≤ s.argVal .dataLen :=
  ⟨Ready.of_check (by decide), by decide, by decide, by decide, by decide, by decide⟩

/-- The last running sum is 2^32 - 1. -/
theorem witness_DecodeDeltasCompletes :
    let s := decodeState 7 4294896989 4
    Ready (.decodeDeltas .v1234) s ∧ s.argVal .seed < 2 ^ elemBits .v1234 ∧ s.argVal .n ≤ s.argVal .valLen ∧
      (s.argVal .n + 3) / 4 ≤ s.argVal .ctrlLen ∧ segLen .v1234 4 (ctrlByte s) ≤ s.argVal .dataLen ∧
      s.argVal .seed + (decodeStream .v1234 4 (ctrlByte s) (dataByte s)).1.sum + 1 = 2 ^ elemBits .v1234 :=
  ⟨Ready.of_check (by decide), by decide, by decide, by decide, by decide, by decide⟩

theorem witness_SkipDeltasCompletes :
    let s := decodeState 7 4294896989 4
    Ready (.skipDeltas .v1234) s ∧ s.argVal .seed < 2 ^ elemBits .v1234 ∧ (s.argVal .n + 3) / 4 ≤ s.argVal .ctrlLen ∧
      segLen .v1234 4 (ctrlByte s) ≤ s.argVal .dataLen ∧
      s.argVal .seed + (decodeStream .v1234 4 (ctrlByte s) (dataByte s)).1.sum + 1 = 2 ^ elemBits .v1234 :=
  ⟨Ready.of_check (by decide), by decide, by decide, by decide, by decide⟩

/-- A DATA_LEN whose total is exactly 2^64: 2^64 - 1 elements of V1248, the first of 2 bytes and all others of 1. The control
region is memory above 2^32, of 2^62 bytes. -/
def hugeState : State :=
  { machine [(.n, 0xFFFFFFFFFFFFFFFF), (.ctrlBase, 0x100000000), (.ctrlLen, 0x4000000000000000)] [(0x100000000, 1)] with
    platform := ⟨true, .full, 0x100000, [0x200000], [(0, 2 ^ 64)]⟩ }

theorem hugeState_ctrlByte (g : Nat) : ctrlByte hugeState g = if g = 0 then 1 else 0 := by
  show (if (0x100000000 : Nat) = 0x100000000 + g then (1 : Byte) else 0) = _
  by_cases h : g = 0 <;> simp [h]

theorem hugeState_segLen (n : Nat) : segLen .v1248 (n + 1) (ctrlByte hugeState) = n + 2 := by
  induction n with
  | zero => decide
  | succ n ih =>
    have step : segLen .v1248 (n + 2) (ctrlByte hugeState) =
        segLen .v1248 (n + 1) (ctrlByte hugeState) + tagLen .v1248 (elemTag (ctrlByte hugeState) (n + 1)) := by
      simp [segLen, List.range_succ, Nat.add_assoc]
    have tag : elemTag (ctrlByte hugeState) (n + 1) = 0 := by
      rw [elemTag, hugeState_ctrlByte]
      split
      · have : (n + 1) % 4 = 1 ∨ (n + 1) % 4 = 2 ∨ (n + 1) % 4 = 3 := by omega
        obtain h | h | h := this <;> rw [h] <;> decide
      · simp [laneTag]
    rw [step, ih, tag]
    rfl

theorem hugeState_ready : Ready (.dataLen .v1248) hugeState where
  args := by decide
  regions := by decide
  backedAll := by
    intro u hu a h1 h2
    obtain rfl : u = ⟨0x100000000, 0x4000000000000000, false, 1⟩ := by
      have h : usesOf (.dataLen .v1248) hugeState = [⟨0x100000000, 0x4000000000000000, false, 1⟩] := by decide
      simpa [h] using hu
    simp only [backed, inRegBlock, hugeState, addrSpace, Bool.and_eq_true, Bool.not_eq_true', List.any_cons, List.any_nil,
      Bool.or_false, decide_eq_true_eq, Bool.or_eq_false_iff, Bool.and_eq_false_iff, decide_eq_false_iff_not]
    change 0x100000000 ≤ a at h1
    change a < 0x100000000 + 0x4000000000000000 at h2
    have below : (0x100000 : Word).toNat = 0x100000 ∧ (0x200000 : Word).toNat = 0x200000 := by decide
    rw [below.1, below.2]
    exact ⟨⟨decide_eq_true (by omega), by omega, by omega⟩, .inr (by omega), .inr (by omega)⟩

theorem witness_DataLenResult :
    Ready (.dataLen .v1234) (decodeState 7 0 4) ∧
      ((decodeState 7 0 4).argVal .n + 3) / 4 ≤ (decodeState 7 0 4).argVal .ctrlLen ∧
      segLen .v1234 4 (ctrlByte (decodeState 7 0 4)) < 2 ^ 64 ∧
      (let s := machine [(.n, 5), (.ctrlBase, 0x2000), (.ctrlLen, 1)] streamL1
       Ready (.dataLen .v1234) s ∧ s.argVal .ctrlLen < (s.argVal .n + 3) / 4) ∧
      ((machine [(.ctrlBase, 0), (.ctrlLen, 0)] []).blk.n.wr = false ∧
        (machine [(.n, 0), (.ctrlLen, 0)] []).blk.ctrlBase.wr = false ∧
        (machine [(.n, 0), (.ctrlBase, 0)] []).blk.ctrlLen.wr = false) ∧
      Ready (.dataLen .v1248) hugeState ∧ (hugeState.argVal .n + 3) / 4 ≤ hugeState.argVal .ctrlLen ∧
      2 ^ 64 ≤ segLen .v1248 (hugeState.argVal .n) (ctrlByte hugeState) :=
  ⟨Ready.of_check (by decide), by decide, by decide, ⟨Ready.of_check (by decide), by decide⟩, by decide, hugeState_ready,
    by decide, (hugeState_segLen 0xFFFFFFFFFFFFFFFE).ge⟩

/-- The four commands that have a contract, each broken by 1. -/
theorem witness_BrokenContractFaults :
    (Ready (.encodeDeltas .v1234) (deltaState 106) ∧ contractBroken (.encodeDeltas .v1234) (deltaState 106)) ∧
      (Ready (.decodeDeltas .v1234) (decodeState 7 4294896990 4) ∧
        contractBroken (.decodeDeltas .v1234) (decodeState 7 4294896990 4)) ∧
      (Ready (.skipDeltas .v1234) (decodeState 7 4294896990 4) ∧
        contractBroken (.skipDeltas .v1234) (decodeState 7 4294896990 4)) ∧
      Ready (.dataLen .v1248) hugeState ∧ contractBroken (.dataLen .v1248) hugeState :=
  ⟨⟨Ready.of_check (by decide), by decide, by decide⟩,
    ⟨Ready.of_check (by decide), by decide, 4, 4, by decide⟩, ⟨Ready.of_check (by decide), by decide, 4, 4, by decide⟩,
    hugeState_ready, by decide, (hugeState_segLen 0xFFFFFFFFFFFFFFFE).ge⟩

/-- Each reported error, and no error: ENCODE with DATA one byte too short, and of the length of the stream; DATA_LEN with CTRL
one byte too short; ENCODE_DELTAS, DECODE_DELTAS and SKIP_DELTAS from the seed 2^32; TAG_FOR of 2^32; BYTE_LEN of 4. -/
theorem witness_ReportedErrorsAreThoseOfTheRules :
    (Ready (.encode .v1234) (encodeState 6) ∧ ¬contractBroken (.encode .v1234) (encodeState 6) ∧
      reportable (.encode .v1234) (encodeState 6) .bufferTooSmall) ∧
    (let s := machine [(.n, 5), (.ctrlBase, 0x2000), (.ctrlLen, 1)] streamL1
     Ready (.dataLen .v1234) s ∧ ¬contractBroken (.dataLen .v1234) s ∧ reportable (.dataLen .v1234) s .truncatedInput) ∧
    (Ready (.encodeDeltas .v1234) (deltaState 0x100000000) ∧
      ¬contractBroken (.encodeDeltas .v1234) (deltaState 0x100000000) ∧
      reportable (.encodeDeltas .v1234) (deltaState 0x100000000) .overflow) ∧
    (∀ i ∈ [Instr.decodeDeltas .v1234, .skipDeltas .v1234], Ready i (decodeState 7 0x100000000 4) ∧
      ¬contractBroken i (decodeState 7 0x100000000 4) ∧ reportable i (decodeState 7 0x100000000 4) .overflow) ∧
    (Ready (.tagFor .v1234) (argState 0x100000000) ∧ ¬contractBroken (.tagFor .v1234) (argState 0x100000000) ∧
      reportable (.tagFor .v1234) (argState 0x100000000) .overflow) ∧
    (Ready (.byteLen .v1234) (argState 4) ∧ ¬contractBroken (.byteLen .v1234) (argState 4) ∧
      reportable (.byteLen .v1234) (argState 4) .invalidCommand) ∧
    (Ready (.encode .v1234) (encodeState 7) ∧ ¬contractBroken (.encode .v1234) (encodeState 7) ∧
      ∀ e, ¬reportable (.encode .v1234) (encodeState 7) e) := by
  refine ⟨⟨Ready.of_check (by decide), id, .inr (by decide)⟩,
    ⟨Ready.of_check (by decide), fun h => absurd h.1 (by decide),
      show (machine [(.n, 5), (.ctrlBase, 0x2000), (.ctrlLen, 1)] streamL1).argVal .ctrlLen < _ by decide⟩,
    ⟨Ready.of_check (by decide), fun h => absurd h.1 (by decide),
      show 2 ^ elemBits .v1234 ≤ (deltaState 0x100000000).argVal .seed by decide⟩,
    fun i hi => ?_,
    ⟨Ready.of_check (by decide), id, show 2 ^ elemBits .v1234 ≤ (argState 0x100000000).argVal .arg0 by decide⟩,
    ⟨Ready.of_check (by decide), id, show 3 < (argState 4).argVal .arg0 by decide⟩,
    Ready.of_check (by decide), id, fun e => ?_⟩
  · have seedTooWide : 2 ^ elemBits .v1234 ≤ (decodeState 7 0x100000000 4).argVal .seed := by decide
    simp only [List.mem_cons, List.not_mem_nil, or_false] at hi
    obtain rfl | rfl := hi
    · exact ⟨Ready.of_check (by decide), fun h => absurd h.1 (by decide), seedTooWide⟩
    · exact ⟨Ready.of_check (by decide), fun h => absurd h.1 (by decide), seedTooWide⟩
  · cases e with
    | ok => exact id
    | bufferTooSmall => rintro (h | h) <;> revert h <;> decide
    | truncatedInput => exact (show ¬((encodeState 7).argVal .valLen < (encodeState 7).argVal .n) by decide)
    | overflow => exact id
    | capabilityMismatch => exact id
    | invalidCommand => exact id

/-- The VAL region of exactly the length of the sequence. -/
theorem witness_EncodeThenDecodeRestoresValues :
    ∀ i ∈ [Instr.decodeScalar .v1234, .decode .v1234, .decodeVector .v1234], (encodeState 7).mem.wf = true ∧
      (∃ t, exec (.encode .v1234) (encodeState 7) = .next t ∧
        (ok t && readyCheck i (withValRegion t 0x5000 4)) = true) ∧ (encodeState 7).argVal .n ≤ (4 : Word).toNat :=
  fun i hi => ⟨by decide, of_next? ((by decide : ∀ i ∈ [Instr.decodeScalar .v1234, .decode .v1234, .decodeVector .v1234],
    next? (fun t => ok t && readyCheck i (withValRegion t 0x5000 4)) (exec (.encode .v1234) (encodeState 7)) = true) i hi),
    by decide⟩

theorem witness_DeltaRoundTripThroughMemory :
    (deltaState 105).mem.wf = true ∧
      (∃ t, exec (.encodeDeltas .v1234) (deltaState 105) = .next t ∧
        (ok t && readyCheck (.decodeDeltas .v1234) (withValRegion t 0x5000 4)) = true) ∧
      (deltaState 105).argVal .n ≤ (4 : Word).toNat :=
  ⟨by decide, of_next? (by decide), by decide⟩

theorem witness_SkipMatchesDecodeDeltas :
    ∃ t, EndsOk (.decodeDeltas .v1234) (decodeState 7 100 4) t := of_ok (by decide)

/-- The clauses of ResultRegistersWritten on a reported error and on a host's other actions. -/
theorem witness_ResultRegistersWritten :
    (∃ t, exec (.byteLen .v1234) (argState 4) = .next t ∧ (t.fault.isNone && t.blk.status != 0) = true) ∧
      (hostState (.writeReg 0 0x20 1)).nextAction = some (0, .writeReg 0 0x20 1) ∧
      ∃ t, step (hostState (.writeReg 0 0x20 1)) = .next t ∧ (t.blk.n == ⟨1, true⟩) = true :=
  ⟨of_next? (by decide), by decide, of_next? (by decide)⟩

/-- The error `e` is reported, without a model fault. -/
def reports (e : Status) (t : State) : Bool := t.fault.isNone && t.blk.status == e.code

/-- Each error that can be reported, and an illegal word. -/
theorem witness_ReportedErrorEffect :
    ((encodeState 6).mem.wf = true ∧
      ∃ t, exec (.encode .v1234) (encodeState 6) = .next t ∧ reports .bufferTooSmall t = true) ∧
    ((decodeState 6 0 4).mem.wf = true ∧
      ∃ t, exec (.decodeScalar .v1234) (decodeState 6 0 4) = .next t ∧ reports .truncatedInput t = true) ∧
    (∃ t, exec (.tagFor .v1234) (argState 0x100000000) = .next t ∧ reports .overflow t = true) ∧
    (∃ t, exec (.byteLen .v1234) (argState 4) = .next t ∧ reports .invalidCommand t = true) ∧
    (decodeCmd 0x401 = .error .reservedBits ∧
      ∃ t, commandWrite exec (argState 4) 0x401 = .next t ∧ reports .invalidCommand t = true) :=
  ⟨⟨by decide, of_next? (by decide)⟩, ⟨by decide, of_next? (by decide)⟩, of_next? (by decide), of_next? (by decide),
    by decide, of_next? (by decide)⟩

/-- Commands that fault, and the steps of a CMD write, of a read and of a write that fault. -/
theorem witness_ModelFaultEffect :
    (∃ t, exec (.tagFor .v1234) (machine [] []) = .next t ∧ faults .unwrittenArgument t = true) ∧
      (∃ t, exec (.encodeDeltas .v1234) (deltaState 106) = .next t ∧ faults .nonMonotone t = true) ∧
      (∃ t, exec (.decodeDeltas .v1234) (decodeState 7 4294896990 4) = .next t ∧ faults .prefixOverflow t = true) ∧
      (∃ t, step (hostState (.writeCmd 0 0x10)) = .next t ∧
        (faults .unwrittenArgument t && t.blk.cmd == 0x10) = true) ∧
      (∃ t, step (hostState (.readReg 1 0x68)) = .next t ∧ faults .unwrittenResult t = true) ∧
      ∃ t, step (hostState (.writeReg 0 0x10 0)) = .next t ∧ faults .reservedRegister t = true :=
  ⟨of_next? (by decide), of_next? (by decide), of_next? (by decide), of_next? (by decide), of_next? (by decide),
    of_next? (by decide)⟩

theorem witness_UnwrittenArgumentFaults :
    ∀ v ∈ [Variant.v1234, .v0124, .v1248], ∀ i ∈ commands v, argsRead i ≠ [] ∧
      ∀ r ∈ argsRead i, ((machine [] []).blk.arg r).wr = false := by decide

/-- A region one byte past the end of the address space, a VAL base off by 1, an output region whose first byte is another's last;
then a region that ends at 2^64 and one that ends just past memory. -/
theorem witness_RegionChecksStopCommands :
    (let s := machine [(.n, 0), (.ctrlBase, 0xFFFFFFFFFFFFFFFF), (.ctrlLen, 2)] []
     (∀ r ∈ argsRead (.dataLen .v1234), (s.blk.arg r).wr = true) ∧
      regionFaults (usesOf (.dataLen .v1234) s) = [.regionWrap]) ∧
    (let s := withValRegion (decodeState 7 0 4) 0x4001 4
     (∀ r ∈ argsRead (.decode .v1234), (s.blk.arg r).wr = true) ∧
      regionFaults (usesOf (.decode .v1234) s) = [.misalignedValues]) ∧
    (let s := withValRegion (decodeState 9 0 4) 0x3008 4
     (∀ r ∈ argsRead (.decode .v1234), (s.blk.arg r).wr = true) ∧
      regionFaults (usesOf (.decode .v1234) s) = [.overlap]) ∧
    (∀ a ∈ [(0xFFFFFFFFFFFFFFFE : Word), 0xFFFF],
      let s := machine [(.n, 0), (.ctrlBase, a), (.ctrlLen, 2)] []
      (∀ r ∈ argsRead (.dataLen .v1234), (s.blk.arg r).wr = true) ∧
        regionFaults (usesOf (.dataLen .v1234) s) = [] ∧
        ∃ u ∈ usesOf (.dataLen .v1234) s, u.base ≤ a.toNat + 1 ∧ a.toNat + 1 < u.base + u.size ∧
          backed s.platform (a.toNat + 1) = false) := by
  simp only [List.forall_mem_cons, List.not_mem_nil, false_implies, implies_true, and_true]
  constructorm* _ ∧ _ <;> decide

/-- The two ends of the first register block. -/
theorem witness_register_block_is_not_memory :
    ∀ a ∈ [0x100000, 0x10009F], platform.regBase0.toNat ≤ a ∧ a < platform.regBase0.toNat + 0xA0 := by decide

/-- A launch with cells at the two ends of memory. -/
theorem witness_ResetKeepsInvariant :
    Memory.wf [(0x1000, 1), (0xFFFF, 2)] = true ∧
      ∀ c ∈ ([(0x1000, 1), (0xFFFF, 2)] : Memory), backed platform c.1 = true := by decide

theorem witness_StepKeepsInvariant :
    (hostState (.writeCmd 0 1)).Inv ∧ ∃ t, step (hostState (.writeCmd 0 1)) = .next t ∧ ok t = true :=
  ⟨⟨by decide, by decide, by decide, by decide, by decide⟩, of_next? (by decide)⟩

end Sys2Proof.Tests
end

section
/-! SUPPORT. The family of the tag table (40_tagtable.md): what its functions answer, and the whole effect of the four commands
TAG_FOR, BYTE_LEN, PACK_CTRL and UNPACK_CTRL. -/

namespace Sys2Proof.Machine

/-! ### Command words -/

/-- The one word of a command is `(VAR << 8) | OPC` as a number (30_encoding.md R341). -/
theorem encodeCmd_eq_ofNat (i : Instr) : encodeCmd i = BitVec.ofNat 32 (2 ^ 8 * i.variant.code.toNat + i.opc.toNat) := by
  have hvar := i.variant.code.isLt
  have hopc := i.opc.isLt
  apply BitVec.eq_of_toNat_eq
  simp only [encodeCmd, BitVec.toNat_append, BitVec.ofNat_eq_ofNat, BitVec.toNat_ofNat, Nat.zero_mod,
    Nat.zero_shiftLeft, Nat.zero_or]
  rw [← Nat.shiftLeft_add_eq_or_of_lt hopc, Nat.shiftLeft_eq, Nat.mul_comm, Nat.mod_eq_of_lt (by omega)]

/-! ### Minimal lengths and tags -/

/-- A value has minimal length at most k exactly when its top set bit stands in its k low bytes (R401). -/
theorem minimalBytes_le_iff (x k : Nat) : minimalBytes x ≤ k ↔ x < 2 ^ (8 * k) := by
  unfold minimalBytes
  split
  case isTrue hzero => simp [hzero]
  case isFalse hne => rw [← Nat.log2_lt hne]; omega

theorem length_lens (v : Variant) : (lens v).length = 4 := by cases v <;> rfl

/-- The LEN table has an entry for every tag (R404). -/
theorem lens_getElem? (v : Variant) (t : Tag) : (lens v)[t.toNat]? = some (tagLen v t) := by
  have ht : t.toNat < (lens v).length := by rw [length_lens]; exact t.isLt
  rw [tagLen, List.getD_eq_getElem _ _ ht, List.getElem?_eq_getElem ht]

/-- The largest tag holds a whole element (R3). -/
theorem tagLen_three (v : Variant) : tagLen v 3 = elemBytes v := by cases v <;> rfl

/-- An element has a tag that is long enough. -/
theorem minimalBytes_le_tagLen_three {v : Variant} {x : Nat} (h : x < 2 ^ elemBits v) : minimalBytes x ≤ tagLen v 3 := by
  rw [minimalBytes_le_iff, tagLen_three]
  exact h

/-- The tag of an element is long enough for it (R402). -/
theorem minimalBytes_le_tagLen_tagOf {v : Variant} {x : Nat} (h : x < 2 ^ elemBits v) :
    minimalBytes x ≤ tagLen v (tagOf v x) := by
  unfold tagOf
  split_ifs with h0 h1 h2
  · exact h0
  · exact h1
  · exact h2
  · exact minimalBytes_le_tagLen_three h

/-- No tag below the value's own is long enough for it (R402). -/
theorem tagOf_le_of_minimalBytes_le {v : Variant} {x : Nat} {t : Tag} (h : minimalBytes x ≤ tagLen v t) :
    (tagOf v x).toNat ≤ t.toNat := by
  unfold tagOf
  match t, h with
  | 0, h => exact (congrArg BitVec.toNat (if_pos h)).le
  | 1, h => split_ifs <;> simp
  | 2, h => split_ifs <;> simp
  | 3, _ => split_ifs <;> simp

/-- The ranges of the tags, given the largest value that each of the three lower tags holds (R402). -/
theorem tagOf_eq_of_bounds {v : Variant} {a b c : Nat} (h0 : 2 ^ (8 * tagLen v 0) = a + 1)
    (h1 : 2 ^ (8 * tagLen v 1) = b + 1) (h2 : 2 ^ (8 * tagLen v 2) = c + 1) (x : Nat) :
    tagOf v x = if x ≤ a then 0 else if x ≤ b then 1 else if x ≤ c then 2 else 3 := by
  simp only [tagOf, minimalBytes_le_iff, h0, h1, h2, Nat.lt_succ_iff]

/-! ### Control bytes and the fields of ARG0 -/

/-- A field of a word as a number. -/
theorem toNat_extractLsb'_eq {w : Nat} (a : BitVec w) (lo len : Nat) :
    (a.extractLsb' lo len).toNat = a.toNat / 2 ^ lo % 2 ^ len := by
  rw [BitVec.extractLsb'_toNat, Nat.shiftRight_eq_div_pow]

/-- Pack's value (R405): four tags fill a byte without a carry. -/
theorem toNat_pack (t0 t1 t2 t3 : Tag) :
    (pack t0 t1 t2 t3).toNat = t0.toNat + 4 * t1.toNat + 16 * t2.toNat + 64 * t3.toNat := by
  have h0 := t0.isLt
  have h1 := t1.isLt
  have h2 := t2.isLt
  have h3 := t3.isLt
  rw [pack, BitVec.toNat_ofNat, Nat.mod_eq_of_lt (by omega)]

/-- The tag of a lane as a number (R406). -/
theorem toNat_laneTag (c : Byte) (i : Nat) : (laneTag c i).toNat = c.toNat / 2 ^ (2 * i) % 4 :=
  toNat_extractLsb'_eq c (2 * i) 2

theorem unpack_pack (t0 t1 t2 t3 : Tag) : unpack (pack t0 t1 t2 t3) = [t0, t1, t2, t3] := by
  obtain ⟨h0, h1, h2, h3⟩ := laneTag_pack t0 t1 t2 t3
  rw [unpack, h0, h1, h2, h3]

/-- A byte is the sum of its four base-4 digits, so packing its lanes gives it back (R406). -/
theorem pack_laneTag (c : Byte) : pack (laneTag c 0) (laneTag c 1) (laneTag c 2) (laneTag c 3) = c := by
  have hc := c.isLt
  apply BitVec.eq_of_toNat_eq
  simp only [toNat_pack, toNat_laneTag]
  omega

/-- A reserved bit is set exactly when masking with the command's fields changes the value (30_encoding.md R305). -/
theorem reservedBitSet_iff (a fields : Word) : reservedBitSet a fields = true ↔ a &&& fields ≠ a := by
  have hmask : a &&& ~~~fields = 0 ↔ a &&& fields = a := by
    simp only [BitVec.eq_of_getLsbD_eq_iff, BitVec.getLsbD_and, BitVec.getLsbD_not]
    refine forall₂_congr fun i hi => ?_
    cases a.getLsbD i <;> simp [hi]
  rw [reservedBitSet, bne_iff_ne, ne_eq, hmask]

/-- When the fields are the k low bits, a reserved bit is set exactly in the values from 2^k on (30_encoding.md R305). -/
theorem reservedBitSet_lowBits (a : Word) {k : Nat} (hk : k ≤ 64) :
    reservedBitSet a (BitVec.ofNat 64 (2 ^ k - 1)) = true ↔ 2 ^ k ≤ a.toNat := by
  have hpow : 2 ^ k ≤ 2 ^ 64 := Nat.pow_le_pow_right (by omega) hk
  have hmask : (a &&& BitVec.ofNat 64 (2 ^ k - 1)).toNat = a.toNat % 2 ^ k := by
    rw [BitVec.toNat_and, BitVec.toNat_ofNat, Nat.mod_eq_of_lt (by omega), Nat.and_two_pow_sub_one_eq_mod]
  rw [reservedBitSet_iff, ne_eq, ← BitVec.toNat_inj, hmask, Nat.mod_eq_iff_lt (by positivity), Nat.not_lt]

/-- ARG0 of BYTE_LEN is ill formed above 3 (R411). -/
theorem reservedBitSet_byteLen_iff (a : Word) : reservedBitSet a fieldsOfByteLen = true ↔ 3 < a.toNat :=
  reservedBitSet_lowBits a (k := 2) (by omega)

/-- ARG0 of UNPACK_CTRL is ill formed above 0xFF (R413). -/
theorem reservedBitSet_unpackCtrl_iff (a : Word) : reservedBitSet a fieldsOfUnpackCtrl = true ↔ 0xFF < a.toNat :=
  reservedBitSet_lowBits a (k := 8) (by omega)

/-- A well-formed ARG0 of BYTE_LEN is the tag it names (R411). -/
theorem tagLen_arg (v : Variant) {a : Word} (h : a.toNat ≤ 3) :
    tagLen v (a.extractLsb' 0 2) = (lens v).getD a.toNat 0 := by
  have hfield : (a.extractLsb' 0 2).toNat = a.toNat := by rw [toNat_extractLsb'_eq]; omega
  rw [tagLen, hfield]

/-- The control byte of the four tags that stand in the low bits of ARG0's four low bytes (R412). -/
theorem toNat_pack_arg (a : Word) :
    (pack (a.extractLsb' 0 2) (a.extractLsb' 8 2) (a.extractLsb' 16 2) (a.extractLsb' 24 2)).toNat =
      a.toNat % 4 + 4 * (a.toNat / 2 ^ 8 % 4) + 16 * (a.toNat / 2 ^ 16 % 4) + 64 * (a.toNat / 2 ^ 24 % 4) := by
  simp only [toNat_pack, toNat_extractLsb'_eq, Nat.pow_zero, Nat.div_one, Nat.reducePow]

/-- The tag of a lane of the control byte in ARG0 (R413). -/
theorem toNat_laneTag_arg {a : Word} (h : a.toNat ≤ 0xFF) (i : Nat) :
    (laneTag (a.extractLsb' 0 8) i).toNat = a.toNat / 2 ^ (2 * i) % 4 := by
  have hbyte : (a.extractLsb' 0 8).toNat = a.toNat := by rw [toNat_extractLsb'_eq]; omega
  rw [toNat_laneTag, hbyte]

/-- The four tags of the control byte in ARG0, one to a byte; the top one needs no mask (R413). -/
theorem unpackCtrl_value {a : Word} (h : a.toNat ≤ 0xFF) :
    (laneTag (a.extractLsb' 0 8) 0).toNat + 2 ^ 8 * (laneTag (a.extractLsb' 0 8) 1).toNat +
        2 ^ 16 * (laneTag (a.extractLsb' 0 8) 2).toNat + 2 ^ 24 * (laneTag (a.extractLsb' 0 8) 3).toNat =
      a.toNat % 4 + 2 ^ 8 * (a.toNat / 4 % 4) + 2 ^ 16 * (a.toNat / 16 % 4) + 2 ^ 24 * (a.toNat / 64) := by
  simp only [toNat_laneTag_arg h]
  omega

/-! ### The checks and the end of a tag command -/

section
variable {s : State} {body : Host.Outcome State Fault Refusal}

theorem withArgs_arg0_unwritten (h : s.blk.arg0.wr = false) :
    withArgs [.arg0] s body = .next (s.setFault .unwrittenArgument) :=
  withArgs_unwritten ⟨.arg0, List.mem_singleton_self _, h⟩

theorem withArgs_arg0_written (h : s.blk.arg0.wr = true) : withArgs [.arg0] s body = body :=
  withArgs_ready fun a ha => by rw [List.mem_singleton.mp ha]; exact h

/-- An ill-formed ARG0 is reported, whatever the command would have done (30_encoding.md R305). -/
theorem withArgs_arg0_illFormed {illegal : Bool} (hwr : s.blk.arg0.wr = true) (h : illegal = true) :
    withArgs [.arg0] s (withFormat illegal s body) = .next (s.raise .invalidCommand []) := by
  rw [withArgs_arg0_written hwr, withFormat, if_pos h]

theorem withArgs_arg0_wellFormed {illegal : Bool} (hwr : s.blk.arg0.wr = true) (h : ¬illegal = true) :
    withArgs [.arg0] s (withFormat illegal s body) = body := by
  rw [withArgs_arg0_written hwr, withFormat, if_neg h]

/-- The whole next state of a command that completes with RES_VAL alone: RES_VAL and STATUS change, and nothing else. -/
theorem State.complete_resVal (s : State) (x : Nat) :
    s.complete [(.resVal, x)] s.mem =
      { s with blk := { s.blk with resVal := ⟨BitVec.ofNat 64 x, true⟩, status := 0 } } := rfl

end

/-! ### The commands, on a written ARG0 -/

section
variable {v : Variant} {s : State}

/-- TAG_FOR has one error to report, Overflow of a value that is too wide (R410). -/
theorem exec_tagFor_written (hwr : s.blk.arg0.wr = true) :
    exec (.tagFor v) s = reportErrors (errIf (tooWide v s.blk.arg0.val.toNat) .overflow []) [] s
      (.next (s.complete [(.resVal, (tagOf v s.blk.arg0.val.toNat).toNat)] s.mem)) :=
  withArgs_arg0_written hwr

theorem exec_tagFor_overflow (hwr : s.blk.arg0.wr = true) (h : 2 ^ elemBits v ≤ s.blk.arg0.val.toNat) :
    exec (.tagFor v) s = .next (s.raise .overflow []) := by
  rw [exec_tagFor_written hwr, (tooWide_iff v _).mpr h]
  rfl

theorem exec_tagFor_complete (hwr : s.blk.arg0.wr = true) (h : s.blk.arg0.val.toNat < 2 ^ elemBits v) :
    exec (.tagFor v) s = .next (s.complete [(.resVal, (tagOf v s.blk.arg0.val.toNat).toNat)] s.mem) := by
  rw [exec_tagFor_written hwr, (tooWide_eq_false v _).mpr h]
  rfl

theorem exec_byteLen_complete (hwr : s.blk.arg0.wr = true) (h : s.blk.arg0.val.toNat ≤ 3) :
    exec (.byteLen v) s = .next (s.complete [(.resVal, (lens v).getD s.blk.arg0.val.toNat 0)] s.mem) := by
  rw [← tagLen_arg v h]
  exact withArgs_arg0_wellFormed hwr ((reservedBitSet_byteLen_iff _).not.mpr (Nat.not_lt.mpr h))

theorem exec_packCtrl_complete (hwr : s.blk.arg0.wr = true) (h : s.blk.arg0.val &&& ~~~0x03030303 = 0) :
    exec (.packCtrl v) s = .next (s.complete [(.resVal,
      s.blk.arg0.val.toNat % 4 + 4 * (s.blk.arg0.val.toNat / 2 ^ 8 % 4) + 16 * (s.blk.arg0.val.toNat / 2 ^ 16 % 4) +
        64 * (s.blk.arg0.val.toNat / 2 ^ 24 % 4))] s.mem) := by
  rw [← toNat_pack_arg]
  exact withArgs_arg0_wellFormed hwr fun hset => bne_iff_ne.mp hset h

theorem exec_unpackCtrl_complete (hwr : s.blk.arg0.wr = true) (h : s.blk.arg0.val.toNat ≤ 0xFF) :
    exec (.unpackCtrl v) s = .next (s.complete [(.resVal,
      s.blk.arg0.val.toNat % 4 + 2 ^ 8 * (s.blk.arg0.val.toNat / 4 % 4) + 2 ^ 16 * (s.blk.arg0.val.toNat / 16 % 4) +
        2 ^ 24 * (s.blk.arg0.val.toNat / 64))] s.mem) := by
  rw [← unpackCtrl_value h]
  exact withArgs_arg0_wellFormed hwr ((reservedBitSet_unpackCtrl_iff _).not.mpr (Nat.not_lt.mpr h))

end

/-! ### The statements -/

/-- Settles O14. -/
theorem minimalBytesIsLeast : Obligations.MinimalBytesIsLeast :=
  fun x k => (minimalBytes_le_iff x k).symm

/-- Settles O15: the search of TagFor stops at the first tag that is long enough, and the largest tag always is; the tables are
the same search with each length written as the largest value it holds. -/
theorem tagIsSmallestThatFits : Obligations.TagIsSmallestThatFits := by
  refine ⟨fun v x hx => ⟨minimalBytes_le_tagLen_tagOf hx, fun t ht => tagOf_le_of_minimalBytes_le ht⟩, ?_, ?_, ?_⟩
  · exact fun x _ => tagOf_eq_of_bounds (v := .v1234) rfl rfl rfl x
  · intro x _
    simpa only [Nat.le_zero] using tagOf_eq_of_bounds (v := .v0124) (a := 0) rfl rfl rfl x
  · exact fun x _ => tagOf_eq_of_bounds (v := .v1248) rfl rfl rfl x

/-- Settles O16: the tag's length is at least the minimal one. -/
theorem valueFitsItsTagLength : Obligations.ValueFitsItsTagLength :=
  ⟨lens_getElem?, fun _ x hx => (minimalBytes_le_iff x _).mp (minimalBytes_le_tagLen_tagOf hx)⟩

/-- Settles O17. -/
theorem packAndUnpackAreInverse : Obligations.PackAndUnpackAreInverse :=
  ⟨fun t0 t1 t2 t3 => ⟨toNat_pack t0 t1 t2 t3, unpack_pack t0 t1 t2 t3⟩, fun c => ⟨pack_laneTag c, rfl⟩⟩

/-- Settles O18: the error set holds Overflow exactly when ARG0 is too wide. -/
theorem tagForResult : Obligations.TagForResult := fun v s =>
  ⟨encodeCmd_eq_ofNat (.tagFor v), fun hwr => withArgs_arg0_unwritten hwr, exec_tagFor_overflow,
    fun hwr hfits => (exec_tagFor_complete hwr hfits).trans (congrArg _ (s.complete_resVal _))⟩

/-- Settles O19: the one field of ARG0 is its two low bits, so a legal ARG0 is its own tag. -/
theorem byteLenResult : Obligations.ByteLenResult := fun v s =>
  ⟨encodeCmd_eq_ofNat (.byteLen v), fun hwr => withArgs_arg0_unwritten hwr,
    fun hwr hset => withArgs_arg0_illFormed hwr ((reservedBitSet_byteLen_iff _).mpr hset),
    fun hwr hlegal => (exec_byteLen_complete hwr hlegal).trans (congrArg _ (s.complete_resVal _))⟩

/-- Settles O20: each field of ARG0 is a quotient of its number, and Pack adds the four. -/
theorem packCtrlResult : Obligations.PackCtrlResult := fun v s =>
  ⟨encodeCmd_eq_ofNat (.packCtrl v), fun hwr => withArgs_arg0_unwritten hwr,
    fun hwr hset => withArgs_arg0_illFormed hwr (bne_iff_ne.mpr hset),
    fun hwr hlegal => (exec_packCtrl_complete hwr hlegal).trans (congrArg _ (s.complete_resVal _))⟩

/-- Settles O21: a legal ARG0 is the control byte itself, and its base-4 digits are the tags. -/
theorem unpackCtrlResult : Obligations.UnpackCtrlResult := fun v s =>
  ⟨encodeCmd_eq_ofNat (.unpackCtrl v), fun hwr => withArgs_arg0_unwritten hwr,
    fun hwr hset => withArgs_arg0_illFormed hwr ((reservedBitSet_unpackCtrl_iff _).mpr hset),
    fun hwr hlegal => (exec_unpackCtrl_complete hwr hlegal).trans (congrArg _ (s.complete_resVal _))⟩

end Sys2Proof.Machine
end

section
/-! SUPPORT. The family of the encoder (41_encoder.md): the sizes of an encoded stream. -/

namespace Sys2Proof.Machine

/-! ### The parts of an encoded stream -/

/-- A group has one control byte (R450). -/
theorem length_encodeStream_ctrl (v : Variant) (xs : List Nat) : (encodeStream v xs).1.length = groupCount xs.length := by
  rw [encodeStream, List.length_map, length_groupsOf4, groupCount]

/-- A value has as many data bytes as its tag says (R450). -/
@[simp] theorem length_encodeValue (v : Variant) (x : Nat) : (encodeValue v x).length = tagLen v (tagOf v x) :=
  length_leBytes _ x

/-- The data bytes of a stream are those of its elements and no more: an unused lane adds none (R450). -/
theorem length_encodeStream_data (v : Variant) (xs : List Nat) :
    (encodeStream v xs).2.length = (xs.map fun x => tagLen v (tagOf v x)).sum := by
  simp only [encodeStream_data, List.length_flatMap, length_encodeValue]

/-- No element is longer than the largest length, so the data bytes of n elements are at most n times that (R454). -/
theorem length_encodeStream_data_le (v : Variant) (xs : List Nat) :
    (encodeStream v xs).2.length ≤ xs.length * tagLen v 3 := by
  have hlen : ∀ k ∈ xs.map fun x => tagLen v (tagOf v x), k ≤ tagLen v 3 := by
    rw [tagLen_three]
    exact List.forall_mem_map.mpr fun x _ => tagLen_le v (tagOf v x)
  calc (encodeStream v xs).2.length
      = (xs.map fun x => tagLen v (tagOf v x)).sum := length_encodeStream_data v xs
    _ ≤ (xs.map fun x => tagLen v (tagOf v x)).length • tagLen v 3 := List.sum_le_card_nsmul _ _ hlen
    _ = xs.length * tagLen v 3 := by rw [List.length_map, smul_eq_mul]

/-! ### The statement -/

/-- Settles O27: one control byte to a group, and the data is the elements' bytes one after the other. -/
theorem encodedStreamSizes : Obligations.EncodedStreamSizes := fun v xs =>
  ⟨length_encodeStream_ctrl v xs, length_encodeStream_data v xs, length_encodeStream_data_le v xs⟩

end Sys2Proof.Machine
end

section
/-! SUPPORT. The family of the scalar decoder (42_scalar_decoder.md): a decoded stream without its grouping, and decoding as the
inverse of encoding. -/

namespace Sys2Proof.Machine

/-! ### The decoder without the grouping -/

/-- The lane steps over two runs of tags: the second starts at the cursor where the first ends (R501). -/
theorem scalarLanes_append (v : Variant) (D : Nat → Byte) (ts us : List Tag) (cur : Nat) :
    scalarLanes v D (ts ++ us) cur =
      ((scalarLanes v D ts cur).1 ++ (scalarLanes v D us (scalarLanes v D ts cur).2).1,
        (scalarLanes v D us (scalarLanes v D ts cur).2).2) := by
  induction ts generalizing cur with
  | nil => rfl
  | cons t ts ih => simp only [List.cons_append, scalarLanes, ih]

/-- The groups listed are one run of lane steps over all their valid lanes. -/
theorem decodeGroups_eq_scalarLanes (v : Variant) (n : Nat) (C D : Nat → Byte) (gs : List Nat) (cur : Nat) :
    decodeGroups v n C D gs cur =
      scalarLanes v D (gs.flatMap fun g => firstTags (C g) (min 4 (n - 4 * g))) cur := by
  induction gs generalizing cur with
  | nil => rfl
  | cons g gs ih => rw [List.flatMap_cons, scalarLanes_append, decodeGroups, ih]

/-- The first lanes of a control byte are the elements from 4g on (30_encoding.md R321). -/
theorem firstTags_eq_map_elemTag (C : Nat → Byte) (g : Nat) {k : Nat} (hk : k ≤ 4) :
    firstTags (C g) k = (List.range k).map fun i => elemTag C (4 * g + i) :=
  List.map_congr_left fun i hi => (elemTag_block C g i ((List.mem_range.mp hi).trans_le hk)).symm

/-- The valid lanes of the first m groups are the elements below 4m (30_encoding.md R321). -/
theorem flatMap_firstTags (n : Nat) (C : Nat → Byte) (m : Nat) :
    ((List.range m).flatMap fun g => firstTags (C g) (min 4 (n - 4 * g))) =
      (List.range (min n (4 * m))).map (elemTag C) := by
  induction m with
  | zero => simp
  | succ m ih =>
    rw [List.range_succ, List.flatMap_append, ih, List.flatMap_singleton,
      firstTags_eq_map_elemTag C m (Nat.min_le_left _ _)]
    rcases Nat.le_total n (4 * m) with hle | hle
    · have hnone : n - 4 * m = 0 := Nat.sub_eq_zero_of_le hle
      have hstop : min n (4 * (m + 1)) = n := by omega
      simp [hnone, hstop, hle]
    · have hsplit : min n (4 * (m + 1)) = 4 * m + min 4 (n - 4 * m) := by omega
      rw [hsplit, Nat.min_eq_right hle, List.range_add, List.map_append, List.map_map]
      rfl

/-- DecodeStream is the lane steps over the tags of its n elements, from cursor 0 (R501). -/
theorem decodeStream_eq_scalarLanes (v : Variant) (n : Nat) (C D : Nat → Byte) :
    decodeStream v n C D = scalarLanes v D ((List.range n).map (elemTag C)) 0 := by
  have hcover : min n (4 * groupCount n) = n := by unfold groupCount; omega
  rw [decodeStream, decodeGroups_eq_scalarLanes, flatMap_firstTags, hcover]

/-! ### Reading back what was encoded -/

/-- The tags of an encoded stream's valid lanes are the elements' own (41_encoder.md R450). -/
theorem map_elemTag_encodeStream (v : Variant) (xs : List Nat) :
    (List.range xs.length).map (elemTag fun g => (encodeStream v xs).1.getD g 0) = xs.map (tagOf v) := by
  apply List.ext_getElem (by simp)
  intro j hj _
  have hlen : j < xs.length := by simpa using hj
  rw [List.getElem_map, List.getElem_range, List.getElem_map, elemTag_encodeStream v xs j (by omega),
    List.getElem?_eq_getElem hlen]

/-- The bytes of one element, read as an accumulator, are the element: its tag's length is long enough for it
(40_tagtable.md R404). -/
theorem leNat_encodeValue {v : Variant} {x : Nat} (hx : x < 2 ^ elemBits v) : leNat (encodeValue v x) = x :=
  leNat_leBytes _ x ((minimalBytes_le_iff x _).mp (minimalBytes_le_tagLen_tagOf hx))

/-- Where the elements' bytes stand one after the other, the lane steps over the elements' tags give the elements and end behind
their bytes. -/
theorem scalarLanes_encoded {v : Variant} {D : Nat → Byte} {xs : List Nat} (hxs : ∀ x ∈ xs, x < 2 ^ elemBits v) {cur : Nat}
    (hD : ((List.range (xs.flatMap (encodeValue v)).length).map fun k => D (cur + k)) = xs.flatMap (encodeValue v)) :
    scalarLanes v D (xs.map (tagOf v)) cur = (xs, cur + (xs.flatMap (encodeValue v)).length) := by
  induction xs generalizing cur with
  | nil => rfl
  | cons x xs ih =>
    obtain ⟨hx, hxs⟩ := List.forall_mem_cons.mp hxs
    rw [List.flatMap_cons, List.length_append, List.range_add, List.map_append, List.map_map] at hD
    obtain ⟨hhead, htail⟩ := List.append_inj hD (by simp)
    have hlane : laneValue D cur (tagLen v (tagOf v x)) = x := by
      rw [laneValue, ← length_encodeValue, hhead, leNat_encodeValue hx]
    have hrest := ih hxs (cur := cur + tagLen v (tagOf v x)) (by
      simpa [Function.comp_def, Nat.add_assoc] using htail)
    simp only [List.map_cons, scalarLanes, hlane, hrest, List.flatMap_cons, List.length_append, length_encodeValue,
      Nat.add_assoc]

/-- Any control bytes with the elements' tags and any data bytes that begin with an encoded stream's data decode to the elements:
the unused lanes and the bytes behind the stream have no effect. -/
theorem decodeStream_encoded {v : Variant} {C D : Nat → Byte} {xs : List Nat} (hxs : ∀ x ∈ xs, x < 2 ^ elemBits v)
    (hC : (List.range xs.length).map (elemTag C) = xs.map (tagOf v))
    (hD : (List.range (encodeStream v xs).2.length).map D = (encodeStream v xs).2) :
    decodeStream v xs.length C D = (xs, (encodeStream v xs).2.length) := by
  rw [encodeStream_data] at hD ⊢
  rw [decodeStream_eq_scalarLanes, hC, scalarLanes_encoded hxs (by simpa only [Nat.zero_add] using hD), Nat.zero_add]

/-! ### The statement -/

/-- Settles O29: the encoder's control bytes hold the elements' tags, and its data bytes are the elements' bytes in order, so
each lane step reads one element back. -/
theorem decodeStreamInvertsEncodeStream : Obligations.DecodeStreamInvertsEncodeStream := fun v xs hxs =>
  decodeStream_encoded hxs (map_elemTag_encodeStream v xs)
    (List.ext_getElem (by simp) fun j _ hj => by simp [List.getElem?_eq_getElem hj])

end Sys2Proof.Machine
end

section
/-! SUPPORT. The family of the vector decoder (43_vector_decoder.md): the permuted window against the scalar lane steps, the
vector procedure against the scalar one, and the commands SHUF_ENTRY, DECODE_VECTOR and DECODE. -/

namespace Sys2Proof.Machine

/-- An element has at most 8 bytes (R3). -/
theorem elemBytes_le (v : Variant) : elemBytes v ≤ 8 := by cases v <;> decide

/-! ### The descriptor of a run of tags -/

/-- Where the bytes of lane `i` start in the window, when the lanes have the tags `ts` (R551). -/
def tagsOff (v : Variant) (ts : List Tag) (i : Nat) : Nat := ((ts.take i).map (tagLen v)).sum

theorem tagsOff_le (v : Variant) (ts : List Tag) (i : Nat) : tagsOff v ts i ≤ i * elemBytes v := by
  have hlen : ∀ x ∈ (ts.take i).map (tagLen v), x ≤ elemBytes v :=
    List.forall_mem_map.mpr fun t _ => tagLen_le v t
  calc tagsOff v ts i
      ≤ ((ts.take i).map (tagLen v)).length • elemBytes v := List.sum_le_card_nsmul _ _ hlen
    _ = (ts.take i).length * elemBytes v := by rw [List.length_map, smul_eq_mul]
    _ ≤ i * elemBytes v := Nat.mul_le_mul_right _ (List.length_take_le i ts)

/-- The descriptor `d` gathers lanes with the tags `ts`: entry k of lane i names byte k of the lane's data while the lane has
one, and writes 0 from there on (R551, R553). -/
def Gathers (v : Variant) (ts : List Tag) (d : List Byte) : Prop :=
  ∀ i < ts.length, ∀ k < elemBytes v, d[i * elemBytes v + k]? =
    some (if k < tagLen v (ts.getD i 0) then BitVec.ofNat 8 (tagsOff v ts i + k) else zeroFill)

theorem laneLen_eq_tagLen_unpack (v : Variant) (c : Byte) {i : Nat} (hi : i < 4) :
    laneLen v c i = tagLen v ((unpack c).getD i 0) := by
  match i, hi with
  | 0, _ | 1, _ | 2, _ | 3, _ => rfl

theorem laneOff_eq_tagsOff_unpack (v : Variant) (c : Byte) {i : Nat} (hi : i < 4) :
    laneOff v c i = tagsOff v (unpack c) i := by
  match i, hi with
  | 0, _ | 1, _ | 2, _ | 3, _ => rfl

theorem lsum_eq_sum_unpack (v : Variant) (c : Byte) : lsum v c = ((unpack c).map (tagLen v)).sum := by
  simp only [lsum, laneLen, unpack, List.map_cons, List.map_nil, List.sum_cons, List.sum_nil]
  omega

/-- SHUF gathers the four lanes of its control byte (R551). -/
theorem gathers_shuf (v : Variant) (c : Byte) : Gathers v (unpack c) (shuf v c) := by
  intro i hi k hk
  have hi : i < 4 := hi
  have hpos : i * elemBytes v + k < 4 * elemBytes v :=
    calc i * elemBytes v + k < (i + 1) * elemBytes v := by rw [Nat.succ_mul]; omega
      _ ≤ 4 * elemBytes v := Nat.mul_le_mul_right _ hi
  have hdiv : (i * elemBytes v + k) / elemBytes v = i := by
    rw [Nat.mul_comm, Nat.mul_add_div (by omega), Nat.div_eq_of_lt hk, Nat.add_zero]
  have hmod : (i * elemBytes v + k) % elemBytes v = k := by
    rw [Nat.mul_comm, Nat.mul_add_mod, Nat.mod_eq_of_lt hk]
  rw [shuf, List.getElem?_map, List.getElem?_range hpos, Option.map_some]
  simp only [hdiv, hmod, laneLen_eq_tagLen_unpack v c hi, laneOff_eq_tagsOff_unpack v c hi]

/-- SHUF2 gathers the two lanes of its half of a control byte (R553). -/
theorem gathers_shuf2 (h : BitVec 4) : Gathers .v1248 [halfTagA h, halfTagB h] (shuf2 h) := by
  intro i hi k hk
  have hk : k < 8 := hk
  have hB : elemBytes .v1248 = 8 := rfl
  match i, hi with
  | 0, _ =>
    have hpos : 0 * elemBytes .v1248 + k < 16 := by omega
    have hlane : ¬8 ≤ k := by omega
    rw [shuf2, List.getElem?_map, List.getElem?_range hpos]
    simp [hB, hk, hlane, tagsOff]
  | 1, _ =>
    have hpos : 1 * elemBytes .v1248 + k < 16 := by omega
    have hlane : ¬8 + k < 8 := by omega
    have hindex (la : Nat) : la + (8 + k) - 8 = la + k := by omega
    rw [shuf2, List.getElem?_map, List.getElem?_range hpos]
    simp [hB, hlane, hindex, tagsOff]

/-! ### The engine -/

theorem leNat_append_zeros (bs : List Byte) (k : Nat) : leNat (bs ++ List.replicate k 0) = leNat bs := by
  have hzeros : leNat (List.replicate k 0) = 0 := by
    induction k with
    | zero => rfl
    | succ k ih => rw [List.replicate_succ, leNat, ih]; rfl
  rw [leNat_append, hzeros, Nat.mul_zero, Nat.add_zero]

section
variable {v : Variant} {ts : List Tag} {d : List Byte} (hd : Gathers v ts d) (hts : ts.length ≤ 4)
  (D : Nat → Byte) (cur : Nat)
include hd hts

/-- An entry of a gathered window is a data byte, or 0 above the lane's length (R557). -/
theorem permute_of_gathers {i k : Nat} (hi : i < ts.length) (hk : k < elemBytes v) :
    (permute (window D cur (ts.length * elemBytes v)) d).getD (i * elemBytes v + k) 0 =
      if k < tagLen v (ts.getD i 0) then D (cur + tagsOff v ts i + k) else 0 := by
  have hwin : tagsOff v ts i + k < ts.length * elemBytes v :=
    calc tagsOff v ts i + k < i * elemBytes v + elemBytes v := Nat.add_lt_add_of_le_of_lt (tagsOff_le v ts i) hk
      _ = (i + 1) * elemBytes v := (Nat.succ_mul _ _).symm
      _ ≤ ts.length * elemBytes v := Nat.mul_le_mul_right _ hi
  have hsmall : ts.length * elemBytes v ≤ 32 := Nat.mul_le_mul hts (elemBytes_le v)
  have hindex : (BitVec.ofNat 8 (tagsOff v ts i + k)).toNat = tagsOff v ts i + k := by
    rw [BitVec.toNat_ofNat, Nat.mod_eq_of_lt (by omega)]
  have hnotZero : BitVec.ofNat 8 (tagsOff v ts i + k) ≠ zeroFill := fun heq => by
    have hmax : tagsOff v ts i + k = 255 := hindex.symm.trans (congrArg BitVec.toNat heq)
    omega
  rw [List.getD_eq_getElem?_getD, permute, List.getElem?_map, hd i hi k hk, Option.map_some, Option.getD_some]
  by_cases hdata : k < tagLen v (ts.getD i 0)
  · rw [if_pos hdata, if_pos hdata, if_neg hnotZero, hindex, List.getD_eq_getElem?_getD, window, List.getElem?_map,
      List.getElem?_range hwin, Option.map_some, Option.getD_some, Nat.add_assoc]
  · rw [if_neg hdata, if_neg hdata, if_pos rfl]

/-- A lane of a gathered window is the number its data bytes spell: the zeros above them add nothing (R557). -/
theorem permutedLane_of_gathers {i : Nat} (hi : i < ts.length) :
    permutedLane (elemBytes v) (permute (window D cur (ts.length * elemBytes v)) d) i =
      laneValue D (cur + tagsOff v ts i) (tagLen v (ts.getD i 0)) := by
  obtain ⟨zeros, hzeros⟩ := Nat.exists_eq_add_of_le (tagLen_le v (ts.getD i 0))
  have hbytes : ((List.range (elemBytes v)).map fun k =>
        (permute (window D cur (ts.length * elemBytes v)) d).getD (i * elemBytes v + k) 0) =
      ((List.range (tagLen v (ts.getD i 0))).map fun k => D (cur + tagsOff v ts i + k)) ++ List.replicate zeros 0 := by
    rw [List.map_congr_left fun k hk => permute_of_gathers hd hts D cur hi (List.mem_range.mp hk), hzeros,
      List.range_add, List.map_append, List.map_map]
    congr 1
    · exact List.map_congr_left fun k hk => if_pos (List.mem_range.mp hk)
    · exact List.eq_replicate_iff.mpr ⟨by simp, by simp⟩
  rw [permutedLane, hbytes, leNat_append_zeros, laneValue]

/-- R558 for any descriptor: the lanes of the permuted window and the sum of the lengths are the scalar lane steps. -/
theorem permutedLanes_of_gathers :
    ((List.range ts.length).map (permutedLane (elemBytes v) (permute (window D cur (ts.length * elemBytes v)) d)),
      cur + (ts.map (tagLen v)).sum) = scalarLanes v D ts cur := by
  obtain ⟨hcur, hlen, hval⟩ := scalarLanes_spec v D ts cur
  refine Prod.ext (List.ext_getElem (by simp [hlen]) fun i hi hi' => ?_) hcur.symm
  have hi : i < ts.length := by simpa using hi
  apply Option.some_injective
  rw [← List.getElem?_eq_getElem hi', hval i hi, List.getElem_map, List.getElem_range,
    permutedLane_of_gathers hd hts D cur hi, tagsOff]

end

/-- R558 for a full group. -/
theorem shuf_eq_scalarLanes (v : Variant) (c : Byte) (D : Nat → Byte) (cur : Nat) :
    ((List.range 4).map (permutedLane (elemBytes v) (permute (window D cur (windowBytes v)) (shuf v c))),
      cur + lsum v c) = scalarLanes v D (unpack c) cur := by
  rw [lsum_eq_sum_unpack]
  exact permutedLanes_of_gathers (gathers_shuf v c) le_rfl D cur

/-- R558 for a half group of V1248. -/
theorem shuf2_eq_scalarLanes (h : BitVec 4) (D : Nat → Byte) (cur : Nat) :
    ((List.range 2).map (permutedLane 8 (permute (window D cur 16) (shuf2 h))), cur + lsum2 h) =
      scalarLanes .v1248 D [halfTagA h, halfTagB h] cur :=
  permutedLanes_of_gathers (gathers_shuf2 h) (Nat.le_add_right 2 2) D cur

/-! ### The vector procedure -/

/-- A full step gives the scalar lane steps, with its window inside the DATA region or not (R560). -/
theorem fullStep_eq_scalarLanes (v : Variant) (c : Byte) (D : Nat → Byte) (dataLen cur : Nat) :
    fullStep v c D dataLen cur = scalarLanes v D (unpack c) cur := by
  unfold fullStep
  split
  case isTrue => exact shuf_eq_scalarLanes v c D cur
  case isFalse => exact Prod.ext rfl (by rw [← shuf_eq_scalarLanes])

/-- A half step gives the scalar lane steps, with its window inside the DATA region or not (R560, R561). -/
theorem halfStep_eq_scalarLanes (h : BitVec 4) (D : Nat → Byte) (dataLen cur : Nat) :
    halfStep h D dataLen cur = scalarLanes .v1248 D [halfTagA h, halfTagB h] cur := by
  unfold halfStep
  split
  case isTrue => exact shuf2_eq_scalarLanes h D cur
  case isFalse => exact Prod.ext rfl (by rw [← shuf2_eq_scalarLanes])

/-- A 2-bit field of a control byte, cut from the byte or from the half that holds it. -/
theorem extractLsb'_half (c : Byte) (lo k : Nat) (hk : k ≤ 2) :
    (c.extractLsb' lo 4).extractLsb' k 2 = c.extractLsb' (lo + k) 2 := by
  apply BitVec.eq_of_toNat_eq
  simp only [toNat_extractLsb'_eq, Nat.pow_add, ← Nat.div_div_eq_div_mul]
  obtain rfl | rfl | rfl : k = 0 ∨ k = 1 ∨ k = 2 := by omega
  all_goals omega

/-- The two halves of a control byte hold its four tags in order (R561). -/
theorem halves_eq_unpack (c : Byte) :
    [halfTagA (c.extractLsb' 0 4), halfTagB (c.extractLsb' 0 4)] ++
      [halfTagA (c.extractLsb' 4 4), halfTagB (c.extractLsb' 4 4)] = unpack c := by
  simp only [halfTagA, halfTagB, extractLsb'_half c _ _ (Nat.zero_le 2), extractLsb'_half c _ _ le_rfl]
  rfl

theorem firstTags_four (c : Byte) : firstTags c 4 = unpack c := rfl

/-- A group of the vector procedure gives the scalar lane steps over its valid lanes, at either granularity (R560, R561). -/
theorem vectorGroup_eq_scalarLanes (v : Variant) (gran : Granularity) (n g : Nat) (c : Byte) (D : Nat → Byte)
    (dataLen cur : Nat) :
    vectorGroup v gran n g c D dataLen cur = scalarLanes v D (firstTags c (min 4 (n - 4 * g))) cur := by
  unfold vectorGroup
  split_ifs with htail hhalf
  · rw [Nat.min_eq_right (by omega)]
  · have hfull : min 4 (n - 4 * g) = 4 := by omega
    obtain ⟨rfl, -⟩ := hhalf
    rw [hfull, firstTags_four, ← halves_eq_unpack, scalarLanes_append]
    simp only [halfStep_eq_scalarLanes]
  · have hfull : min 4 (n - 4 * g) = 4 := by omega
    rw [hfull, firstTags_four, fullStep_eq_scalarLanes]

/-- The vector procedure over the groups listed is the scalar one (R560). -/
theorem vectorGroups_eq_decodeGroups (v : Variant) (gran : Granularity) (n : Nat) (C D : Nat → Byte) (dataLen : Nat)
    (gs : List Nat) (cur : Nat) :
    vectorGroups v gran n C D dataLen gs cur = decodeGroups v n C D gs cur := by
  induction gs generalizing cur with
  | nil => rfl
  | cons g gs ih => simp only [vectorGroups, decodeGroups, vectorGroup_eq_scalarLanes, ih]

/-- Either procedure gives what the scalar one gives, so the choice cannot be observed (R563). -/
theorem decodeBy_eq_decodeStream (engine : Bool) (v : Variant) (s : State) (n : Nat) :
    decodeBy engine v s n = decodeStream v n (ctrlByte s) (dataByte s) := by
  cases engine with
  | false => rfl
  | true => exact vectorGroups_eq_decodeGroups v _ n _ _ _ _ 0

/-- The decode commands differ in nothing but the procedure, so they have one effect (R563). -/
theorem decodeCommand_eq_scalar (engine : Bool) (v : Variant) (s : State) :
    decodeCommand engine v s = decodeCommand false v s := by
  simp only [decodeCommand, decodeBy_eq_decodeStream]

/-! ### SHUF_ENTRY -/

/-- A field of the low bits of a word, cut from the word or from its number. -/
theorem extractLsb'_zero_eq_ofNat (a : Word) (len : Nat) : a.extractLsb' 0 len = BitVec.ofNat len a.toNat := by
  apply BitVec.eq_of_toNat_eq
  rw [toNat_extractLsb'_eq, Nat.pow_zero, Nat.div_one, BitVec.toNat_ofNat]

/-- HALF, bit 8 of ARG0, as a digit of its number (30_encoding.md R305). -/
theorem getLsbD_half_iff (a : Word) : a.getLsbD 8 = true ↔ a.toNat / 2 ^ 8 % 2 = 1 := by
  rw [← BitVec.testBit_toNat, Nat.testBit_eq_decide_div_mod_eq, decide_eq_true_iff]

/-- ARG0 of SHUF_ENTRY is ill formed for a bit above HALF, or for HALF with no entry of SHUF2 (R556). -/
theorem shufArgIllegal_iff (v : Variant) (a : Word) :
    shufArgIllegal v a = true ↔
      2 ^ 9 ≤ a.toNat ∨ (a.toNat / 2 ^ 8 % 2 = 1 ∧ (v ≠ .v1248 ∨ a.toNat / 2 ^ 4 % 2 ^ 4 ≠ 0)) := by
  have hreserved : reservedBitSet a fieldsOfShufEntry = true ↔ 2 ^ 9 ≤ a.toNat :=
    reservedBitSet_lowBits a (k := 9) (by omega)
  have hhigh : a.extractLsb' 4 4 ≠ 0 ↔ a.toNat / 2 ^ 4 % 2 ^ 4 ≠ 0 := by
    rw [ne_eq, ← BitVec.toNat_inj, toNat_extractLsb'_eq]
    rfl
  rw [shufArgIllegal, Bool.or_eq_true, Bool.and_eq_true, Bool.or_eq_true, bne_iff_ne, bne_iff_ne, hreserved,
    getLsbD_half_iff, hhigh]

/-- A choice on HALF, by the bit or by the number. -/
theorem ite_half {α : Type} (a : Word) (full half : α) :
    (if a.getLsbD 8 = true then half else full) = if a.toNat / 2 ^ 8 % 2 = 0 then full else half := by
  by_cases hhalf : a.getLsbD 8 = true
  · rw [if_pos hhalf, if_neg (by rw [getLsbD_half_iff] at hhalf; omega)]
  · rw [if_neg hhalf, if_pos (by rw [getLsbD_half_iff] at hhalf; omega)]

theorem entryDescriptor_eq (v : Variant) (a : Word) :
    entryDescriptor v a =
      if a.toNat / 2 ^ 8 % 2 = 0 then shuf v (BitVec.ofNat 8 a.toNat) else shuf2 (BitVec.ofNat 4 a.toNat) := by
  rw [entryDescriptor, ite_half, extractLsb'_zero_eq_ofNat, extractLsb'_zero_eq_ofNat]

theorem entrySum_eq (v : Variant) (a : Word) :
    entrySum v a =
      if a.toNat / 2 ^ 8 % 2 = 0 then lsum v (BitVec.ofNat 8 a.toNat) else lsum2 (BitVec.ofNat 4 a.toNat) := by
  rw [entrySum, ite_half, extractLsb'_zero_eq_ofNat, extractLsb'_zero_eq_ofNat]

/-- No descriptor is longer than the four result registers together (R551, R553). -/
theorem length_entryDescriptor_le (v : Variant) (a : Word) : (entryDescriptor v a).length ≤ 32 := by
  unfold entryDescriptor
  split
  case isTrue => simp [shuf2]
  case isFalse =>
    rw [shuf, List.length_map, List.length_range]
    exact Nat.mul_le_mul_left 4 (elemBytes_le v)

/-- A byte of a padded descriptor. -/
theorem getElem?_paddedDescriptor {d : List Byte} (hd : d.length ≤ 32) {p : Nat} (hp : p < 32) :
    (paddedDescriptor d)[p]? = some (d.getD p 0) := by
  rw [paddedDescriptor, List.getElem?_append]
  split_ifs with hin
  · rw [List.getD_eq_getElem _ _ hin, List.getElem?_eq_getElem hin]
  · rw [List.getElem?_replicate, if_pos (by omega), List.getD_eq_default _ _ (by omega)]

/-- RES_DESCj is the j-th run of 8 bytes of the padded descriptor (R556). -/
theorem descWord_eq {d : List Byte} (hd : d.length ≤ 32) {j : Nat} (hj : j < 4) :
    descWord d j = leNat (((paddedDescriptor d).drop (8 * j)).take 8) := by
  rw [descWord]
  refine congrArg leNat (List.ext_getElem? fun m => ?_)
  rw [List.getElem?_map, List.getElem?_take, List.getElem?_drop]
  split_ifs with hm
  · rw [List.getElem?_range hm, Option.map_some, getElem?_paddedDescriptor hd (by omega)]
  · rw [List.getElem?_eq_none (by simpa using hm), Option.map_none]

/-- The whole next state of a command that completes with the four words of a descriptor and RES_VAL: those registers and STATUS
change, and nothing else. -/
theorem State.complete_descriptor (s : State) (x0 x1 x2 x3 x : Nat) :
    s.complete [(.resDesc0, x0), (.resDesc1, x1), (.resDesc2, x2), (.resDesc3, x3), (.resVal, x)] s.mem =
      { s with blk := { s.blk with
        resDesc0 := ⟨BitVec.ofNat 64 x0, true⟩, resDesc1 := ⟨BitVec.ofNat 64 x1, true⟩,
        resDesc2 := ⟨BitVec.ofNat 64 x2, true⟩, resDesc3 := ⟨BitVec.ofNat 64 x3, true⟩,
        resVal := ⟨BitVec.ofNat 64 x, true⟩, status := 0 } } := by
  simp only [State.complete, Block.writeResults, Block.writeRes, Block.setStatus, Reg64.written]
  rfl

/-- SHUF_ENTRY on a legal ARG0 completes with the words of the padded descriptor and the length sum (R556). -/
theorem exec_shufEntry_complete {v : Variant} {s : State} (hwr : s.blk.arg0.wr = true)
    (h : ¬shufArgIllegal v s.blk.arg0.val = true) :
    let word : Nat → Nat := fun j => leNat (((paddedDescriptor (entryDescriptor v s.blk.arg0.val)).drop (8 * j)).take 8)
    exec (.shufEntry v) s = .next (s.complete
      [(.resDesc0, word 0), (.resDesc1, word 1), (.resDesc2, word 2), (.resDesc3, word 3),
        (.resVal, entrySum v s.blk.arg0.val)] s.mem) := by
  intro word
  have hword {j : Nat} (hj : j < 4) : descWord (entryDescriptor v s.blk.arg0.val) j = word j :=
    descWord_eq (length_entryDescriptor_le v _) hj
  rw [← hword (j := 0) (by omega), ← hword (j := 1) (by omega), ← hword (j := 2) (by omega), ← hword (j := 3) (by omega)]
  exact withArgs_arg0_wellFormed hwr h

/-! ### The engine and the strategy are not read -/

/-- The same machine with another engine (VEC_CAP, V1248_GRAN) and another STRATEGY. -/
def State.withEngine (cap : Bool) (g : Granularity) (x : Word) (s : State) : State :=
  { s with platform := { s.platform with vecCap := cap, gran := g }, blk := { s.blk with strategy := x } }

section
variable (cap : Bool) (g : Granularity) (x : Word) (s : State)

@[simp] theorem State.withEngine_arg (r : ArgReg) : (s.withEngine cap g x).blk.arg r = s.blk.arg r := by cases r <;> rfl

/-- The engine and the strategy are no argument register, so the same reads fault (10_state.md R106). -/
theorem withArgs_withEngine (rs : List ArgReg) (body : Host.Outcome State Fault Refusal) :
    withArgs rs (s.withEngine cap g x) (mapNext (State.withEngine cap g x) body) =
      mapNext (State.withEngine cap g x) (withArgs rs s body) := by
  unfold withArgs argsWritten
  simp only [State.withEngine_arg]
  rw [apply_ite (mapNext _)]
  rfl

/-- Backed does not depend on the engine, so the same regions fault or are stuck (20_memory.md R206). -/
theorem withRegions_withEngine (uses : List RegionUse) (body : Host.Outcome State Fault Refusal) :
    withRegions uses (s.withEngine cap g x) (mapNext (State.withEngine cap g x) body) =
      mapNext (State.withEngine cap g x) (withRegions uses s body) := by
  unfold withRegions
  split
  · rfl
  · rw [apply_ite (mapNext _)]
    rfl

/-- The same error is drawn and reported (60_exceptions.md R702). -/
theorem reportErrors_withEngine (E : List Status) (uses : List RegionUse) (body : Host.Outcome State Fault Refusal) :
    reportErrors E uses (s.withEngine cap g x) (mapNext (State.withEngine cap g x) body) =
      mapNext (State.withEngine cap g x) (reportErrors E uses s body) := by
  unfold reportErrors
  split <;> rfl

/-- The scalar procedure's command has the same outcome, but for the engine and the strategy that its next state carries. -/
theorem decodeCommand_withEngine (v : Variant) :
    decodeCommand false v (s.withEngine cap g x) = mapNext (State.withEngine cap g x) (decodeCommand false v s) := by
  unfold decodeCommand
  rw [← withArgs_withEngine, ← withRegions_withEngine, ← reportErrors_withEngine]
  rfl

end

/-! ### The statements -/

/-- Settles O22: the fields of ARG0 are digits of its number, and padding to 32 bytes gives each of the four words its 8 bytes. -/
theorem shufEntryResult : Obligations.ShufEntryResult := by
  intro v s
  refine ⟨encodeCmd_eq_ofNat (.shufEntry v), fun hwr => withArgs_arg0_unwritten hwr,
    fun hwr hset => withArgs_arg0_illFormed hwr ((shufArgIllegal_iff v _).mpr hset), fun hwr hlegal => ?_⟩
  rw [exec_shufEntry_complete hwr ((shufArgIllegal_iff v _).not.mpr hlegal), s.complete_descriptor, entryDescriptor_eq,
    entrySum_eq]

/-- Settles O24: SHUF and SHUF2 gather the lanes of their tags, and a gathered window is what the lane steps read. -/
theorem engineDecodesOneGroup : Obligations.EngineDecodesOneGroup :=
  ⟨shuf_eq_scalarLanes, shuf2_eq_scalarLanes⟩

/-- Settles O26: the two procedures decode alike, and no check of the scalar command reads the engine or the strategy. -/
theorem decodeCommandsAgree : Obligations.DecodeCommandsAgree := fun v s =>
  ⟨decodeCommand_eq_scalar _ v s, decodeCommand_eq_scalar _ v s, fun cap g x t hnext =>
    calc decodeCommand _ v (s.withEngine cap g x)
        = mapNext (State.withEngine cap g x) (decodeCommand false v s) := by
          rw [decodeCommand_eq_scalar, decodeCommand_withEngine]
      _ = .next (t.withEngine cap g x) := mapNext_next.mpr ⟨t, hnext, rfl⟩⟩

end Sys2Proof.Machine
end

section
/-! SUPPORT. The family of the delta coder (45_delta.md): an encoded stream in memory and what the decoders make of it, running
sums as the inverse of differences, and the round trip of the three delta commands. -/

namespace Sys2Proof.Machine

/-! ### Byte sequences in memory -/

/-- The bytes of a range, cut in two (00_scope.md R18). -/
theorem Memory.bytes_add (m : Memory) (a k l : Nat) : m.bytes a (k + l) = m.bytes a k ++ m.bytes (a + k) l := by
  simp only [Memory.bytes, List.range_add, List.map_append, List.map_map, Function.comp_def, Nat.add_assoc]

/-- A stored sequence is read back as a whole. -/
theorem Memory.bytes_writeBytes_same (m : Memory) (a : Nat) (bs : List Byte) (h : m.wf = true) :
    (m.writeBytes a bs).bytes a bs.length = bs :=
  List.ext_getElem (by simp) fun j _ hj => by
    simp only [Memory.bytes, List.getElem_map, List.getElem_range, Memory.read_writeBytes_inside m a j bs h hj]

/-- Storing a sequence leaves a range that shares no byte with it alone. -/
theorem Memory.bytes_writeBytes_apart (m : Memory) (a a' k : Nat) (bs : List Byte)
    (h : ¬(0 < k ∧ 0 < bs.length ∧ a' < a + bs.length ∧ a < a' + k)) : (m.writeBytes a bs).bytes a' k = m.bytes a' k :=
  List.map_congr_left fun j hj => by
    have hj : j < k := List.mem_range.mp hj
    exact Memory.read_writeBytes_outside m a (a' + j) bs (by omega)

/-- Where the elements' bytes stand one after the other at width k, reading element by element gives the elements (20_memory.md
R203). -/
theorem Memory.readLE_elements {m : Memory} {k : Nat} {xs : List Nat} (hxs : ∀ x ∈ xs, x < 2 ^ (8 * k)) {a : Nat}
    (h : m.bytes a (xs.length * k) = xs.flatMap (leBytes k)) :
    ((List.range xs.length).map fun j => m.readLE (a + j * k) k) = xs := by
  induction xs generalizing a with
  | nil => rfl
  | cons x xs ih =>
    obtain ⟨hx, hxs⟩ := List.forall_mem_cons.mp hxs
    rw [List.length_cons, Nat.succ_mul, Nat.add_comm, Memory.bytes_add, List.flatMap_cons] at h
    obtain ⟨hhead, htail⟩ := List.append_inj h (by simp)
    have hfirst : m.readLE a k = x := by rw [Memory.readLE, hhead, leNat_leBytes k x hx]
    have hrest := ih hxs htail
    simp only [Nat.add_assoc, ← Nat.succ_mul, Nat.add_comm k] at hrest
    simp only [List.length_cons, List.range_succ_eq_map, List.map_cons, List.map_map, Function.comp_def, Nat.zero_mul,
      Nat.add_zero, hfirst, hrest]

/-! ### The VAL region -/

/-- An element of the VAL region is below 2^W (R203). -/
theorem valElems_lt {v : Variant} {s : State} {n x : Nat} (hx : x ∈ valElems v s n) : x < 2 ^ elemBits v := by
  obtain ⟨j, -, rfl⟩ := List.mem_map.mp hx
  exact s.mem.readLE_lt _ _

/-- The elements written to the VAL region are read back from it (R203). -/
theorem valElems_writeVals {v : Variant} {s u : State} {xs : List Nat} (hwf : s.mem.wf = true)
    (hxs : ∀ x ∈ xs, x < 2 ^ elemBits v) (hmem : u.mem = writeVals v s xs) (hbase : u.argVal .valBase = s.argVal .valBase) :
    valElems v u xs.length = xs := by
  have hstored := Memory.bytes_writeBytes_same s.mem (s.argVal .valBase) (xs.flatMap (leBytes (elemBytes v))) hwf
  rw [valElems, hmem, hbase]
  exact Memory.readLE_elements hxs (by simpa [writeVals, List.length_flatMap] using hstored)

section
variable (s : State) (base len : Word)

theorem withValRegion_mem : (withValRegion s base len).mem = s.mem := rfl

/-- Naming a VAL region leaves every other argument alone. -/
theorem withValRegion_argVal {r : ArgReg} (h : r ∉ valArgs) : (withValRegion s base len).argVal r = s.argVal r := by
  simp only [valArgs, List.mem_cons, List.not_mem_nil, or_false, not_or] at h
  obtain ⟨hbase, hlen⟩ := h
  simp [State.argVal, withValRegion, Block.arg_writeArg, Ne.symm hbase, Ne.symm hlen]

end

@[simp] theorem State.complete_argVal (s : State) (rs : List (ResReg × Nat)) (m : Memory) (r : ArgReg) :
    (s.complete rs m).argVal r = s.argVal r := by simp [State.argVal]

/-! ### A stream in the CTRL and DATA regions -/

/-- The regions begin with the stream's control bytes and its data bytes. -/
structure StreamInPlace (CD : List Byte × List Byte) (s : State) : Prop where
  ctrl : s.mem.bytes (s.argVal .ctrlBase) CD.1.length = CD.1
  data : s.mem.bytes (s.argVal .dataBase) CD.2.length = CD.2
  ctrlFits : CD.1.length ≤ s.argVal .ctrlLen
  dataFits : CD.2.length ≤ s.argVal .dataLen

/-- Two regions share no byte (20_memory.md R208). -/
theorem RegionUse.meets_eq_false (u w : RegionUse) :
    u.meets w = false ↔ ¬(0 < u.size ∧ 0 < w.size ∧ u.base < w.base + w.size ∧ w.base < u.base + u.size) := by
  simp [RegionUse.meets, and_assoc]

/-- Regions that do not fault (R205, R207, R208). -/
theorem regionFaults_eq_nil (us : List RegionUse) :
    regionFaults us = [] ↔
      (∀ u ∈ us, u.wraps = false) ∧ (∀ u ∈ us, u.misaligned = false) ∧ regionsOverlap us = false := by
  simp [regionFaults]

theorem regionsOverlap_cons_eq_false (u : RegionUse) (us : List RegionUse) :
    regionsOverlap (u :: us) = false ↔
      (∀ w ∈ us, u.output = true ∨ w.output = true → u.meets w = false) ∧ regionsOverlap us = false := by
  simp [regionsOverlap, or_imp]

/-- An encoder's two outputs are apart when its regions do not fault (R208). -/
theorem encodeUses_outputs_apart {v : Variant} {s : State} (h : regionFaults (encodeUses v s) = []) :
    (ctrlUse s true).meets (dataUse s true) = false := by
  obtain ⟨-, -, hoverlap⟩ := (regionFaults_eq_nil _).mp h
  obtain ⟨-, houtputs⟩ := (regionsOverlap_cons_eq_false _ _).mp hoverlap
  obtain ⟨hctrl, -⟩ := (regionsOverlap_cons_eq_false _ _).mp houtputs
  exact hctrl _ (List.mem_singleton_self _) (.inl rfl)

/-- A stream an encoder wrote stands in its regions: the data bytes are stored last, and apart from the control bytes (R451). -/
theorem streamInPlace_writeStream {v : Variant} {s t : State} {CD : List Byte × List Byte} (hwf : s.mem.wf = true)
    (hregions : regionFaults (encodeUses v s) = []) (hctrl : CD.1.length ≤ s.argVal .ctrlLen)
    (hdata : CD.2.length ≤ s.argVal .dataLen) (hmem : t.mem = writeStream s CD)
    (hargs : ∀ r ∈ ctrlArgs ++ dataArgs, t.argVal r = s.argVal r) : StreamInPlace CD t := by
  have hapart : ¬(0 < CD.1.length ∧ 0 < CD.2.length ∧ s.argVal .ctrlBase < s.argVal .dataBase + CD.2.length ∧
      s.argVal .dataBase < s.argVal .ctrlBase + CD.1.length) := by
    have := (RegionUse.meets_eq_false _ _).mp (encodeUses_outputs_apart hregions)
    simp only [ctrlUse, dataUse] at this
    omega
  simp only [ctrlArgs, dataArgs, List.cons_append, List.nil_append, List.forall_mem_cons] at hargs
  obtain ⟨hcb, hcl, hdb, hdl, -⟩ := hargs
  refine ⟨?_, ?_, hcl ▸ hctrl, hdl ▸ hdata⟩
  · rw [hcb, hmem, writeStream, Memory.bytes_writeBytes_apart _ _ _ _ _ hapart, Memory.bytes_writeBytes_same _ _ _ hwf]
  · rw [hdb, hmem, writeStream, Memory.bytes_writeBytes_same _ _ _ (Memory.wf_writeBytes _ _ _ hwf)]

theorem wf_writeStream {s : State} (CD : List Byte × List Byte) (hwf : s.mem.wf = true) :
    (writeStream s CD).wf = true := Memory.wf_writeBytes _ _ _ (Memory.wf_writeBytes _ _ _ hwf)

section
variable {v : Variant} {s : State} {xs : List Nat} (h : StreamInPlace (encodeStream v xs) s)
include h

/-- The CTRL region gives each element of the stream its own tag (R450). -/
theorem StreamInPlace.map_elemTag : (List.range xs.length).map (elemTag (ctrlByte s)) = xs.map (tagOf v) := by
  rw [← map_elemTag_encodeStream v xs]
  refine List.map_congr_left fun j hj => ?_
  have hg : j / 4 < (encodeStream v xs).1.length := by
    have := List.mem_range.mp hj
    rw [length_encodeStream_ctrl, groupCount]; omega
  have hbyte : ctrlByte s (j / 4) = (encodeStream v xs).1.getD (j / 4) 0 := by
    conv_rhs => rw [← h.ctrl]
    simp [Memory.bytes, ctrlByte, hg]
  rw [elemTag, elemTag, hbyte]

/-- SegLen of a stream in place is the number of its data bytes (R500). -/
theorem StreamInPlace.segLen_eq : segLen v xs.length (ctrlByte s) = (encodeStream v xs).2.length := by
  calc segLen v xs.length (ctrlByte s)
      = (((List.range xs.length).map (elemTag (ctrlByte s))).map (tagLen v)).sum := by rw [List.map_map]; rfl
    _ = ((xs.map (tagOf v)).map (tagLen v)).sum := by rw [h.map_elemTag]
    _ = (encodeStream v xs).2.length := by rw [List.map_map, length_encodeStream_data]; rfl

/-- A decode of all elements finds a stream in place long enough (R502). -/
theorem StreamInPlace.not_truncated : truncated v s xs.length = false := by
  have hctrl := h.ctrlFits
  rw [length_encodeStream_ctrl] at hctrl
  simp [truncated, h.segLen_eq, hctrl, h.dataFits]

/-- A stream in place decodes to its elements (R504). -/
theorem StreamInPlace.decodeStream_eq (hxs : ∀ x ∈ xs, x < 2 ^ elemBits v) :
    decodeStream v xs.length (ctrlByte s) (dataByte s) = (xs, (encodeStream v xs).2.length) :=
  decodeStream_encoded hxs h.map_elemTag h.data

end

/-! ### Differences and running sums -/

@[simp] theorem lastOr_cons (s x : Nat) (xs : List Nat) : lastOr s (x :: xs) = lastOr x xs := by
  simp [lastOr, List.getLast?_cons]

/-- Running sums of the differences of a non-decreasing sequence are the sequence (R604). -/
theorem prefixSum_deltas {s : Nat} {xs : List Nat} (h : (s :: xs).Pairwise (· ≤ ·)) : prefixSum s (deltas s xs) = xs := by
  induction xs generalizing s with
  | nil => rfl
  | cons x xs ih =>
    obtain ⟨hle, hxs⟩ := List.pairwise_cons.mp h
    rw [deltas, prefixSum, Nat.add_sub_cancel' (hle x List.mem_cons_self), ih hxs]

/-- A bound of the elements is a bound of the differences (R604). -/
theorem deltas_lt {s b : Nat} {xs : List Nat} (h : ∀ x ∈ xs, x < b) : ∀ d ∈ deltas s xs, d < b := by
  induction xs generalizing s with
  | nil => simp [deltas]
  | cons x xs ih =>
    obtain ⟨hx, hxs⟩ := List.forall_mem_cons.mp h
    exact List.forall_mem_cons.mpr ⟨(Nat.sub_le x s).trans_lt hx, ih hxs⟩

/-- The last running sum is the seed and all differences together (R603). -/
theorem lastOr_prefixSum (s : Nat) (ds : List Nat) : lastOr s (prefixSum s ds) = s + ds.sum := by
  induction ds generalizing s with
  | nil => rfl
  | cons d ds ih => rw [prefixSum, lastOr_cons, ih, List.sum_cons, Nat.add_assoc]

/-- No running sum reaches 2^W (R605). -/
theorem prefixOverflow_eq_false (v : Variant) (s : Nat) (ds : List Nat) :
    prefixOverflow v s ds = false ↔ ∀ y ∈ prefixSum s ds, y < 2 ^ elemBits v := by
  simp [prefixOverflow, tooWide]

/-! ### Commands that end with STATUS = OK -/

/-- A command that ends with STATUS = OK reported none of its errors. -/
theorem EndsWith.of_ok {E : List Status} {uses : List RegionUse} {d s t : State} (h : EndsWith E uses d s t)
    (hE : Status.ok ∉ E) (hok : t.blk.status = 0) : E = [] ∧ t = d := by
  refine h.resolve_left ?_
  rintro ⟨e, he, rfl⟩
  have hcode : e = .ok := by revert hok; rw [State.raise_status]; cases e <;> decide
  exact hE (hcode ▸ he)

/-- The conditions under which an encoder reports no error (R451). -/
theorem encodeErrors_eq_nil (s : State) (n : Nat) (encodable : Bool) (D : List Byte) (E : List Status) :
    encodeErrors s n encodable D E = [] ↔ n ≤ s.argVal .valLen ∧ groupCount n ≤ s.argVal .ctrlLen ∧
      (encodable = true → D.length ≤ s.argVal .dataLen) ∧ E = [] := by
  simp [encodeErrors, errIf_eq_nil]

theorem ok_notMem_encodeErrors (s : State) (n : Nat) (encodable : Bool) (D : List Byte) {E : List Status}
    (hE : Status.ok ∉ E) : Status.ok ∉ encodeErrors s n encodable D E := by
  simp [encodeErrors, mem_errIf, hE]

/-- The conditions under which a decode command reports no error (R502). -/
theorem decodeErrors_eq_nil (v : Variant) (s : State) (n : Nat) (E : List Status) :
    decodeErrors v s n E = [] ↔ n ≤ s.argVal .valLen ∧ truncated v s n = false ∧ E = [] := by
  simp [decodeErrors, errIf_eq_nil]

/-- ENCODE_DELTAS reads n elements when they are all there (R601). -/
theorem deltaInput_eq {v : Variant} {s : State} (h : s.argVal .n ≤ s.argVal .valLen) :
    deltaInput v s = valElems v s (s.argVal .n) := by rw [deltaInput, Nat.min_eq_left h]

/-- What an ENCODE_DELTAS that ends with STATUS = OK found in order, and what it leaves (R601). -/
theorem EndsOk.encodeDeltas {v : Variant} {s t : State} (h : EndsOk (.encodeDeltas v) s t) :
    regionFaults (encodeUses v s) = [] ∧ s.argVal .n ≤ s.argVal .valLen ∧ s.argVal .seed < 2 ^ elemBits v ∧
      (s.argVal .seed :: deltaInput v s).Pairwise (· ≤ ·) ∧ groupCount (s.argVal .n) ≤ s.argVal .ctrlLen ∧
      (deltaStream v s).2.length ≤ s.argVal .dataLen ∧ t.fault = none ∧ t.mem = writeStream s (deltaStream v s) ∧
      ∀ r, t.argVal r = s.argVal r := by
  obtain ⟨hexec, hfault, hok⟩ := h
  rcases execEncodeDeltas_next hexec with hbad | ⟨hregions, hmono, hend⟩
  · exact absurd hfault hbad.fault_ne_none
  · have hnotOk : Status.ok ∉ errIf (tooWide v (s.argVal .seed)) .overflow [] := by simp [mem_errIf]
    obtain ⟨hE, rfl⟩ := hend.of_ok (ok_notMem_encodeErrors _ _ _ _ hnotOk) hok
    obtain ⟨hval, hctrl, hdata, hwide⟩ := (encodeErrors_eq_nil _ _ _ _ _).mp hE
    have hseed : tooWide v (s.argVal .seed) = false := ((errIf_eq_nil _ _ _).mp hwide).1
    have hpairwise : (s.argVal .seed :: deltaInput v s).Pairwise (· ≤ ·) := by
      by_contra hbroken
      exact absurd ((nonMonotone_iff _ _).mpr hbroken) (by simp [hmono hseed])
    exact ⟨hregions, hval, (tooWide_eq_false _ _).mp hseed, hpairwise, hctrl, hdata (by simp [hseed, hval]), hfault, rfl,
      fun r => s.complete_argVal _ _ r⟩

/-! ### The delta decoders on a stream that is all there -/

/-- A stream that is all there is decodable as a whole (R602). -/
theorem decodablePrefix_eq {v : Variant} {s : State} {n : Nat} (h : truncated v s n = false) :
    decodablePrefix v s n = n := by
  simp only [truncated, Bool.or_eq_false_iff, decide_eq_false_iff_not, Nat.not_lt] at h
  obtain ⟨hctrl, hdata⟩ := h
  obtain ⟨-, -, hle, hlargest⟩ := decodablePrefix_spec v s n
  exact hle.antisymm (hlargest n le_rfl hctrl hdata)

/-- DECODE_DELTAS and SKIP_DELTAS decode the same differences (43_vector_decoder.md R563). -/
theorem decodedDeltas_eq_skippedDeltas (v : Variant) (s : State) : decodedDeltas v s = skippedDeltas v s :=
  congrArg Prod.fst (decodeBy_eq_decodeStream _ v s _)

/-- SKIP_DELTAS decodes the differences of a stream in place. -/
theorem StreamInPlace.skippedDeltas_eq {v : Variant} {s : State} {ds : List Nat} (h : StreamInPlace (encodeStream v ds) s)
    (hn : s.argVal .n = ds.length) (hds : ∀ d ∈ ds, d < 2 ^ elemBits v) : skippedDeltas v s = ds := by
  rw [skippedDeltas, hn, decodablePrefix_eq h.not_truncated, h.decodeStream_eq hds]

/-- The running sums of an encoded delta stream in place are the values it was made of (R606). -/
theorem StreamInPlace.prefixSum_skippedDeltas {v : Variant} {s : State} {xs : List Nat}
    (h : StreamInPlace (encodeStream v (deltas (s.argVal .seed) xs)) s) (hn : s.argVal .n = xs.length)
    (hmono : (s.argVal .seed :: xs).Pairwise (· ≤ ·)) (hxs : ∀ x ∈ xs, x < 2 ^ elemBits v) :
    prefixSum (s.argVal .seed) (skippedDeltas v s) = xs := by
  rw [h.skippedDeltas_eq (hn.trans (length_deltas _ xs).symm) (deltas_lt hxs), prefixSum_deltas hmono]

/-- Operands in order for DECODE_DELTAS are in order for SKIP_DELTAS: it reads fewer registers, uses fewer regions and has no
output. -/
theorem Ready.skipDeltas {v : Variant} {s : State} (h : Ready (.decodeDeltas v) s) : Ready (.skipDeltas v) s := by
  have hsub : ∀ u ∈ usesOf (.skipDeltas v) s, u ∈ usesOf (.decodeDeltas v) s := fun _ hu =>
    List.mem_append_left [valUse v s true] hu
  obtain ⟨hwraps, haligned, -⟩ := (regionFaults_eq_nil _).mp h.regions
  exact {
    args := h.written (by simp only [argsRead]; decide)
    regions := (regionFaults_eq_nil _).mpr
      ⟨fun u hu => hwraps u (hsub u hu), fun u hu => haligned u (hsub u hu), rfl⟩
    backedAll := fun u hu => h.backedAll u (hsub u hu) }

section
variable {v : Variant} {s : State} (hfault : s.fault = none) (hseed : s.argVal .seed < 2 ^ elemBits v)
  (hthere : truncated v s (s.argVal .n) = false)
  (hsums : ∀ y ∈ prefixSum (s.argVal .seed) (skippedDeltas v s), y < 2 ^ elemBits v)
include hfault hseed hthere hsums

/-- DECODE_DELTAS over a stream that is all there and whose running sums fit (R602). -/
theorem endsOk_decodeDeltas (hready : Ready (.decodeDeltas v) s) (hval : s.argVal .n ≤ s.argVal .valLen) :
    EndsOk (.decodeDeltas v) s (s.complete
      [(.resCtrl, groupCount (s.argVal .n)), (.resData, segLen v (s.argVal .n) (ctrlByte s)),
        (.resVal, lastOr (s.argVal .seed) (prefixSum (s.argVal .seed) (skippedDeltas v s)))]
      (writeVals v s (prefixSum (s.argVal .seed) (skippedDeltas v s)))) := by
  have hwide := (tooWide_eq_false _ _).mpr hseed
  have hkept := (prefixOverflow_eq_false _ _ _).mpr hsums
  have hE : decodeErrors v s (s.argVal .n) (errIf (tooWide v (s.argVal .seed)) .overflow []) = [] :=
    (decodeErrors_eq_nil _ _ _ _).mpr ⟨hval, hthere, (errIf_eq_nil _ _ _).mpr ⟨hwide, rfl⟩⟩
  refine ⟨(execDecodeDeltas_ready hready).trans ?_, hfault, rfl⟩
  rw [hE, decodedDeltas_eq_skippedDeltas, hkept, Bool.and_false]
  rfl

/-- SKIP_DELTAS over a stream that is all there and whose running sums fit (R603). -/
theorem endsOk_skipDeltas (hready : Ready (.skipDeltas v) s) :
    EndsOk (.skipDeltas v) s (s.complete
      [(.resVal, s.argVal .seed + (skippedDeltas v s).sum), (.resData, segLen v (s.argVal .n) (ctrlByte s)),
        (.resCtrl, groupCount (s.argVal .n))] s.mem) := by
  have hwide := (tooWide_eq_false _ _).mpr hseed
  have hkept := (prefixOverflow_eq_false _ _ _).mpr hsums
  refine ⟨(execSkipDeltas_ready hready).trans ?_, hfault, rfl⟩
  rw [hthere, hwide, hkept]
  rfl

end

/-- Over an encoded delta stream in place, DECODE_DELTAS writes the values it was made of, and SKIP_DELTAS gives the last of them
(or the seed) and the same byte count (R606). -/
theorem StreamInPlace.endsOk_deltaDecoders {v : Variant} {s : State} {xs : List Nat}
    (h : StreamInPlace (encodeStream v (deltas (s.argVal .seed) xs)) s) (hn : s.argVal .n = xs.length)
    (hmono : (s.argVal .seed :: xs).Pairwise (· ≤ ·)) (hxs : ∀ x ∈ xs, x < 2 ^ elemBits v)
    (hseed : s.argVal .seed < 2 ^ elemBits v) (hval : s.argVal .n ≤ s.argVal .valLen) (hwf : s.mem.wf = true)
    (hfault : s.fault = none) (hready : Ready (.decodeDeltas v) s) :
    ∃ u w, EndsOk (.decodeDeltas v) s u ∧ valElems v u xs.length = xs ∧ EndsOk (.skipDeltas v) s w ∧
      w.blk.resVal = ⟨BitVec.ofNat 64 (lastOr (s.argVal .seed) xs), true⟩ ∧ w.blk.resData = u.blk.resData := by
  have hsums := h.prefixSum_skippedDeltas hn hmono hxs
  have hfit : ∀ y ∈ prefixSum (s.argVal .seed) (skippedDeltas v s), y < 2 ^ elemBits v := by rwa [hsums]
  have hthere : truncated v s (s.argVal .n) = false := by
    rw [hn, ← length_deltas (s.argVal .seed) xs]
    exact h.not_truncated
  have hlast : lastOr (s.argVal .seed) xs = s.argVal .seed + (skippedDeltas v s).sum := by
    rw [← lastOr_prefixSum, hsums]
  refine ⟨_, _, endsOk_decodeDeltas hfault hseed hthere hfit hready hval, ?_,
    endsOk_skipDeltas hfault hseed hthere hfit hready.skipDeltas, ?_, rfl⟩
  · rw [hsums]
    exact valElems_writeVals hwf hxs (State.complete_mem _ _ _) (State.complete_argVal _ _ _ _)
  · rw [hlast]
    rfl

/-- The stream ENCODE_DELTAS wrote stays in place when the host names a new VAL region. -/
theorem EndsOk.deltaStream_inPlace {v : Variant} {s t : State} (h : EndsOk (.encodeDeltas v) s t) (hwf : s.mem.wf = true)
    (base len : Word) : StreamInPlace (deltaStream v s) (withValRegion t base len) := by
  obtain ⟨hregions, hval, -, -, hctrl, hdata, -, hmem, hargs⟩ := h.encodeDeltas
  refine streamInPlace_writeStream hwf hregions ?_ hdata hmem fun r hr => ?_
  · rwa [deltaStream, length_encodeStream_ctrl, length_deltas, deltaInput_eq hval, length_valElems]
  · have hother : r ∉ valArgs := (by decide : ∀ r ∈ ctrlArgs ++ dataArgs, r ∉ valArgs) r hr
    rw [withValRegion_argVal t base len hother, hargs]

/-! ### The statement -/

/-- Settles O48: the stream ENCODE_DELTAS wrote stands in the regions the decoders read, so they decode its differences, whose
running sums from the seed are the values and whose last running sum is the last value. -/
theorem deltaRoundTripThroughMemory : Obligations.DeltaRoundTripThroughMemory := by
  intro v s t base len hwf hencode hready hlen
  obtain ⟨-, hval, hseed, hmono, -, -, hfault, hmem, hargs⟩ := hencode.encodeDeltas
  have hplace := hencode.deltaStream_inPlace hwf base len
  have hlength : (deltaInput v s).length = s.argVal .n := by rw [deltaInput_eq hval, length_valElems]
  have hn : (withValRegion t base len).argVal .n = s.argVal .n := by rw [withValRegion_argVal _ _ _ (by decide), hargs]
  have hs : (withValRegion t base len).argVal .seed = s.argVal .seed := by
    rw [withValRegion_argVal _ _ _ (by decide), hargs]
  have hstored : (withValRegion t base len).mem.wf = true := by
    rw [withValRegion_mem, hmem]
    exact wf_writeStream _ hwf
  rw [deltaStream, ← hs] at hplace
  rw [← hs] at hseed hmono
  have hround := hplace.endsOk_deltaDecoders (hn.trans hlength.symm) hmono (fun _ => valElems_lt) hseed (hn ▸ hlen) hstored
    hfault hready
  rwa [hs, hlength, deltaInput_eq hval] at hround

end Sys2Proof.Machine
end

section
/-! SUPPORT. The family of the length scanner (46_length_scanner.md): the scan by groups against the sum over the elements, and
DATA_LEN on a state a decode command completes from. -/

namespace Sys2Proof.Machine

/-! ### The scan and the decoders' cursor -/

/-- The bytes of a group are those of its valid lanes: the length-sum lookup of a full group counts its four lanes (R650). -/
theorem groupDataLen_eq_sum_firstTags (v : Variant) (n : Nat) (C : Nat → Byte) (g : Nat) :
    groupDataLen v n C g = ((firstTags (C g) (min 4 (n - 4 * g))).map (tagLen v)).sum := by
  unfold groupDataLen
  split
  case isTrue hfull => rw [Nat.min_eq_left (by omega), firstTags_four, lsum_eq_sum_unpack]
  case isFalse htail => rw [Nat.min_eq_right (by omega), firstTags, List.map_map]; rfl

/-- DataLenFn is SegLen: the valid lanes of all groups are the elements (R650). -/
theorem dataLenFn_eq_segLen (v : Variant) (n : Nat) (C : Nat → Byte) : dataLenFn v n C = segLen v n C := by
  have hcover : min n (4 * groupCount n) = n := by unfold groupCount; omega
  calc dataLenFn v n C
      = ((List.range (groupCount n)).map fun g => ((firstTags (C g) (min 4 (n - 4 * g))).map (tagLen v)).sum).sum := by
        rw [dataLenFn, funext (groupDataLen_eq_sum_firstTags v n C)]
    _ = (((List.range (groupCount n)).flatMap fun g => firstTags (C g) (min 4 (n - 4 * g))).map (tagLen v)).sum := by
        rw [List.map_flatMap, List.flatMap_def, List.sum_flatten, List.map_map]; rfl
    _ = segLen v n C := by rw [flatMap_firstTags, hcover, List.map_map]; rfl

/-- A decode consumes SegLen bytes (42_scalar_decoder.md R500, R501). -/
theorem decodeStream_snd (v : Variant) (n : Nat) (C D : Nat → Byte) : (decodeStream v n C D).2 = segLen v n C := by
  obtain ⟨hcur, -, -⟩ := scalarLanes_spec v D ((List.range n).map (elemTag C)) 0
  rw [decodeStream_eq_scalarLanes, hcur, Nat.zero_add, List.map_map]
  rfl

/-! ### Operands in order -/

/-- A command that reads N and the CTRL region, answers a next state and is not in a model fault found operands in order for
DATA_LEN, which uses nothing else (60_exceptions.md R702 steps 2, 4 and 5). -/
theorem Ready.dataLen_of_next (v : Variant) {s t : State} {rs : List ArgReg} {uses : List RegionUse}
    {body : Host.Outcome State Fault Refusal} (h : withArgs rs s (withRegions uses s body) = .next t)
    (hfault : t.fault = none) (hrs : ∀ r ∈ argsRead (.dataLen v), r ∈ rs) (hctrl : ctrlUse s false ∈ uses) :
    Ready (.dataLen v) s := by
  have hnot : ¬Faulted s t := fun hbad => hbad.fault_ne_none hfault
  obtain ⟨hargs, hbody⟩ := (withArgs_next h).resolve_left hnot
  obtain ⟨hregions, hbacked, -⟩ := (withRegions_next hbody).resolve_left hnot
  obtain ⟨hwraps, haligned, -⟩ := (regionFaults_eq_nil _).mp hregions
  have huses : ∀ u ∈ usesOf (.dataLen v) s, u ∈ uses := fun u hu => List.mem_singleton.mp hu ▸ hctrl
  exact {
    args := fun r hr => hargs r (hrs r hr)
    regions := (regionFaults_eq_nil _).mpr ⟨fun u hu => hwraps u (huses u hu), fun u hu => haligned u (huses u hu), rfl⟩
    backedAll := fun u hu => hbacked u (huses u hu) }

/-! ### The commands -/

/-- DATA_LEN over control bytes that are all there and whose total fits 64 bits (R651). -/
theorem endsOk_dataLen {v : Variant} {s : State} (hready : Ready (.dataLen v) s) (hfault : s.fault = none)
    (hctrl : groupCount (s.argVal .n) ≤ s.argVal .ctrlLen) (hfit : segLen v (s.argVal .n) (ctrlByte s) < 2 ^ 64) :
    EndsOk (.dataLen v) s (s.complete
      [(.resData, segLen v (s.argVal .n) (ctrlByte s)), (.resCtrl, groupCount (s.argVal .n))] s.mem) := by
  have hE : errIf (s.argVal .ctrlLen < groupCount (s.argVal .n)) .truncatedInput [] = [] :=
    (errIf_eq_nil _ _ _).mpr ⟨by simpa using hctrl, rfl⟩
  refine ⟨(execDataLen_ready hready).trans ?_, hfault, rfl⟩
  rw [hE, dataLenFn_eq_segLen, if_neg (Nat.not_le.mpr hfit)]
  rfl

theorem ok_notMem_decodeErrors (v : Variant) (s : State) (n : Nat) {E : List Status} (hE : Status.ok ∉ E) :
    Status.ok ∉ decodeErrors v s n E := by
  simp [decodeErrors, mem_errIf, hE]

/-- What a decode command that ends with STATUS = OK found and reports: operands in order for DATA_LEN, control and data bytes
that are all there, and SegLen as RES_DATA (42_scalar_decoder.md R502; 45_delta.md R602, R603). -/
structure DecodedSpan (v : Variant) (s t : State) : Prop where
  ready : Ready (.dataLen v) s
  fault : s.fault = none
  there : truncated v s (s.argVal .n) = false
  resData : t.blk.resData = .written (BitVec.ofNat 64 (segLen v (s.argVal .n) (ctrlByte s)))

section
variable {v : Variant} {s t : State}

/-- DECODE_SCALAR and DECODE_VECTOR, by either procedure (42_scalar_decoder.md R502; 43_vector_decoder.md R562). -/
theorem decodedSpan_decodeCommand {engine : Bool} (hnext : decodeCommand engine v s = .next t) (hfault : t.fault = none)
    (hok : t.blk.status = 0) : DecodedSpan v s t := by
  have hready := Ready.dataLen_of_next v hnext hfault (by simp only [argsRead]; decide) List.mem_cons_self
  obtain ⟨-, hend⟩ := (decodeCommand_next hnext).resolve_left fun hbad => hbad.fault_ne_none hfault
  obtain ⟨hE, rfl⟩ := hend.of_ok (ok_notMem_decodeErrors _ _ _ List.not_mem_nil) hok
  obtain ⟨-, hthere, -⟩ := (decodeErrors_eq_nil _ _ _ _).mp hE
  refine ⟨hready, hfault, hthere, ?_⟩
  rw [decodeBy_eq_decodeStream, decodeStream_snd]
  rfl

theorem decodedSpan_decodeDeltas (hnext : execDecodeDeltas v s = .next t) (hfault : t.fault = none)
    (hok : t.blk.status = 0) : DecodedSpan v s t := by
  have hready := Ready.dataLen_of_next v hnext hfault (by simp only [argsRead]; decide) List.mem_cons_self
  obtain ⟨-, -, hend⟩ := (execDecodeDeltas_next hnext).resolve_left fun hbad => hbad.fault_ne_none hfault
  obtain ⟨hE, rfl⟩ := hend.of_ok (ok_notMem_decodeErrors _ _ _ (by simp [mem_errIf])) hok
  obtain ⟨-, hthere, -⟩ := (decodeErrors_eq_nil _ _ _ _).mp hE
  exact ⟨hready, hfault, hthere, rfl⟩

theorem decodedSpan_skipDeltas (hnext : execSkipDeltas v s = .next t) (hfault : t.fault = none)
    (hok : t.blk.status = 0) : DecodedSpan v s t := by
  have hready := Ready.dataLen_of_next v hnext hfault (by simp only [argsRead]; decide) List.mem_cons_self
  obtain ⟨-, -, hend⟩ := (execSkipDeltas_next hnext).resolve_left fun hbad => hbad.fault_ne_none hfault
  obtain ⟨hE, rfl⟩ := hend.of_ok (by simp [mem_errIf]) hok
  obtain ⟨hthere, -⟩ := (errIf_eq_nil _ _ _).mp hE
  exact ⟨hready, hfault, hthere, rfl⟩

/-- DATA_LEN completes where a decode command completed, with the same RES_DATA (R652). The total fits 64 bits because the data
bytes are all there, and the length of the DATA region is a 64-bit number. -/
theorem DecodedSpan.dataLen_agrees (h : DecodedSpan v s t) :
    ∃ u, EndsOk (.dataLen v) s u ∧ u.blk.resData = t.blk.resData := by
  have hthere := h.there
  simp only [truncated, Bool.or_eq_false_iff, decide_eq_false_iff_not, Nat.not_lt] at hthere
  obtain ⟨hctrl, hdata⟩ := hthere
  have hfit : segLen v (s.argVal .n) (ctrlByte s) < 2 ^ 64 := hdata.trans_lt (s.blk.arg .dataLen).val.isLt
  exact ⟨_, endsOk_dataLen h.ready h.fault hctrl hfit, h.resData.symm⟩

end

/-! ### The statement -/

/-- Settles O46: each decode command found operands in order for DATA_LEN too, and both report SegLen. -/
theorem dataLenMatchesDecoders : Obligations.DataLenMatchesDecoders := by
  intro v i s t hi ⟨hnext, hfault, hok⟩
  simp only [List.mem_cons, List.not_mem_nil, or_false] at hi
  have hspan : DecodedSpan v s t := by
    obtain rfl | rfl | rfl | rfl := hi
    · exact decodedSpan_decodeCommand (engine := false) hnext hfault hok
    · exact decodedSpan_decodeCommand (engine := capsVec s) hnext hfault hok
    · exact decodedSpan_decodeDeltas hnext hfault hok
    · exact decodedSpan_skipDeltas hnext hfault hok
  exact hspan.dataLen_agrees

end Sys2Proof.Machine
end

section
/-! SUPPORT. One form for all commands (60_exceptions.md R702): every command reads its arguments, checks its regions and its
contract, and then reports an error or completes. The facts about all commands follow from this form. -/

namespace Sys2Proof.Machine

/-! ### The parts of a command -/

/-- The contract of a command is broken (R702 step 6), computed. DATA_LEN looks at its total only over a control region that is
long enough (46_length_scanner.md R651). -/
def breaksContract (i : Instr) (s : State) : Bool :=
  match i with
  | .encodeDeltas v => !tooWide v (s.argVal .seed) && nonMonotone (s.argVal .seed) (deltaInput v s)
  | .decodeDeltas v | .skipDeltas v =>
    !tooWide v (s.argVal .seed) && prefixOverflow v (s.argVal .seed) (skippedDeltas v s)
  | .dataLen v =>
    groupCount (s.argVal .n) ≤ s.argVal .ctrlLen && 2 ^ 64 ≤ segLen v (s.argVal .n) (ctrlByte s)
  | .tagFor _ | .byteLen _ | .packCtrl _ | .unpackCtrl _ | .shufEntry _ | .encode _ | .decode _ | .decodeScalar _
  | .decodeVector _ => false

/-- The reason of the model fault that a broken contract is; read only of a command that has one. -/
def contractReason : Instr → UB
  | .encodeDeltas _ => .nonMonotone
  | .dataLen _ => .lengthOverflow
  | _ => .prefixOverflow

/-- The error set of a command (R702 step 7), the format of ARG0 among it: the commands with fields in ARG0 use no region, so
reporting InvalidCommand before or after the region checks is the same. -/
def errorSet (i : Instr) (s : State) : List Status :=
  match i with
  | .tagFor v => errIf (tooWide v (s.argVal .arg0)) .overflow []
  | .byteLen _ => errIf (reservedBitSet s.blk.arg0.val fieldsOfByteLen) .invalidCommand []
  | .packCtrl _ => errIf (reservedBitSet s.blk.arg0.val fieldsOfPackCtrl) .invalidCommand []
  | .unpackCtrl _ => errIf (reservedBitSet s.blk.arg0.val fieldsOfUnpackCtrl) .invalidCommand []
  | .shufEntry v => errIf (shufArgIllegal v s.blk.arg0.val) .invalidCommand []
  | .encode v => encodeErrors s (s.argVal .n) (s.argVal .n ≤ s.argVal .valLen) (encodedStream v s).2 []
  | .encodeDeltas v =>
    encodeErrors s (s.argVal .n) (!tooWide v (s.argVal .seed) && s.argVal .n ≤ s.argVal .valLen) (deltaStream v s).2
      (errIf (tooWide v (s.argVal .seed)) .overflow [])
  | .decode v | .decodeScalar v | .decodeVector v => decodeErrors v s (s.argVal .n) []
  | .decodeDeltas v => decodeErrors v s (s.argVal .n) (errIf (tooWide v (s.argVal .seed)) .overflow [])
  | .skipDeltas v =>
    errIf (truncated v s (s.argVal .n)) .truncatedInput (errIf (tooWide v (s.argVal .seed)) .overflow [])
  | .dataLen _ => errIf (s.argVal .ctrlLen < groupCount (s.argVal .n)) .truncatedInput []

/-- The control byte PACK_CTRL makes of ARG0 (40_tagtable.md R412). -/
def packedArg (a : Word) : Byte :=
  pack (a.extractLsb' 0 2) (a.extractLsb' 8 2) (a.extractLsb' 16 2) (a.extractLsb' 24 2)

/-- The four tags UNPACK_CTRL makes of ARG0, one to a byte (40_tagtable.md R413). -/
def unpackedArg (a : Word) : Nat :=
  (laneTag (a.extractLsb' 0 8) 0).toNat + 2 ^ 8 * (laneTag (a.extractLsb' 0 8) 1).toNat +
    2 ^ 16 * (laneTag (a.extractLsb' 0 8) 2).toNat + 2 ^ 24 * (laneTag (a.extractLsb' 0 8) 3).toNat

/-- The results of a command that completes (10_state.md R105). -/
def resultValues (i : Instr) (s : State) : List (ResReg × Nat) :=
  match i with
  | .tagFor v => [(.resVal, (tagOf v (s.argVal .arg0)).toNat)]
  | .byteLen v => [(.resVal, tagLen v (s.blk.arg0.val.extractLsb' 0 2))]
  | .packCtrl _ => [(.resVal, (packedArg s.blk.arg0.val).toNat)]
  | .unpackCtrl _ => [(.resVal, unpackedArg s.blk.arg0.val)]
  | .shufEntry v =>
    let d := entryDescriptor v s.blk.arg0.val
    [(.resDesc0, descWord d 0), (.resDesc1, descWord d 1), (.resDesc2, descWord d 2), (.resDesc3, descWord d 3),
      (.resVal, entrySum v s.blk.arg0.val)]
  | .encode v => [(.resCtrl, (encodedStream v s).1.length), (.resData, (encodedStream v s).2.length)]
  | .encodeDeltas v =>
    [(.resCtrl, (deltaStream v s).1.length), (.resData, (deltaStream v s).2.length),
      (.resVal, lastOr (s.argVal .seed) (deltaInput v s))]
  | .decode v | .decodeScalar v | .decodeVector v =>
    [(.resCtrl, groupCount (s.argVal .n)), (.resData, segLen v (s.argVal .n) (ctrlByte s))]
  | .decodeDeltas v =>
    [(.resCtrl, groupCount (s.argVal .n)), (.resData, segLen v (s.argVal .n) (ctrlByte s)),
      (.resVal, s.argVal .seed + (skippedDeltas v s).sum)]
  | .skipDeltas v =>
    [(.resVal, s.argVal .seed + (skippedDeltas v s).sum), (.resData, segLen v (s.argVal .n) (ctrlByte s)),
      (.resCtrl, groupCount (s.argVal .n))]
  | .dataLen v => [(.resData, segLen v (s.argVal .n) (ctrlByte s)), (.resCtrl, groupCount (s.argVal .n))]

/-- Memory as a command that completes leaves it (20_memory.md section 4). -/
def storedMemory (i : Instr) (s : State) : Memory :=
  match i with
  | .encode v => writeStream s (encodedStream v s)
  | .encodeDeltas v => writeStream s (deltaStream v s)
  | .decode v | .decodeScalar v | .decodeVector v =>
    writeVals v s (decodeStream v (s.argVal .n) (ctrlByte s) (dataByte s)).1
  | .decodeDeltas v => writeVals v s (prefixSum (s.argVal .seed) (skippedDeltas v s))
  | .tagFor _ | .byteLen _ | .packCtrl _ | .unpackCtrl _ | .shufEntry _ | .skipDeltas _ | .dataLen _ => s.mem

/-- The state a command that completes ends in. -/
def completed (i : Instr) (s : State) : State := s.complete (resultValues i s) (storedMemory i s)

/-! ### The form -/

section
variable {s : State} {body : Host.Outcome State Fault Refusal}

/-- Which argument registers are read, and not in which order, decides whether a command faults (10_state.md R106). -/
theorem withArgs_perm {rs rs' : List ArgReg} (h : rs.Perm rs') : withArgs rs s body = withArgs rs' s body := by
  rw [withArgs, withArgs, argsWritten, argsWritten, h.all_eq]

/-- A command with no region has none that faults or leaves Backed. -/
theorem withRegions_nil : withRegions [] s body = body :=
  withRegions_ready rfl fun _ hw => absurd hw List.not_mem_nil

theorem withContract_kept (r : UB) : withContract false r s body = body := rfl

/-- InvalidCommand by itself is an error set of one or of none. -/
theorem withFormat_eq_reportErrors (c : Bool) :
    withFormat c s body = reportErrors (errIf c .invalidCommand []) [] s body := by cases c <;> rfl

/-- An error that DATA_LEN reports is reported whatever its total (46_length_scanner.md R651). -/
theorem reportErrors_before_contract (short : Bool) (total : Prop) [Decidable total] (uses : List RegionUse) (r : UB) :
    reportErrors (errIf short .truncatedInput []) uses s (if total then modelFault r s else body) =
      withContract (!short && total) r s (reportErrors (errIf short .truncatedInput []) uses s body) := by
  cases short
  · by_cases htotal : total
    · simp [reportErrors, errIf, withContract, htotal]
    · simp [reportErrors, errIf, withContract, htotal]
  · rfl

end

/-- Every command has the one form: arguments, regions, contract, errors, completion (R702). -/
theorem exec_eq (i : Instr) (s : State) :
    exec i s = withArgs (argsRead i) s (withRegions (usesOf i s) s (withContract (breaksContract i s) (contractReason i) s
      (reportErrors (errorSet i s) (usesOf i s) s (.next (completed i s))))) := by
  have hdecode (engine : Bool) (v : Variant) : decodeCommand engine v s =
      withArgs (argsRead (.decode v)) s (withRegions (usesOf (.decode v) s) s
        (reportErrors (errorSet (.decode v) s) (usesOf (.decode v) s) s (.next (completed (.decode v) s)))) := by
    unfold decodeCommand
    simp only [decodeBy_eq_decodeStream, decodeStream_snd]
    exact withArgs_perm (by simp only [argsRead]; decide)
  cases i with
  | tagFor v => simp only [usesOf, withRegions_nil]; rfl
  | byteLen v | packCtrl v | unpackCtrl v | shufEntry v =>
    simp only [usesOf, withRegions_nil, errorSet, ← withFormat_eq_reportErrors]; rfl
  | encode v => exact withArgs_perm (by simp only [argsRead]; decide)
  | decode v | decodeScalar v | decodeVector v => exact hdecode _ v
  | encodeDeltas v => exact withArgs_perm (by simp only [argsRead]; decide)
  | decodeDeltas v =>
    unfold exec execDecodeDeltas
    simp only [decodeBy_eq_decodeStream, lastOr_prefixSum]
    exact withArgs_perm (by simp only [argsRead]; decide)
  | skipDeltas v => exact withArgs_perm (by simp only [argsRead]; decide)
  | dataLen v =>
    unfold exec execDataLen
    simp only [dataLenFn_eq_segLen, reportErrors_before_contract]
    rw [← decide_not]
    simp only [Nat.not_lt]
    rfl

end Sys2Proof.Machine
end

section
/-! SUPPORT. When a command faults, reports an error, completes or is stuck (60_exceptions.md R702), read off the one form of all
commands. -/

namespace Sys2Proof.Machine

/-! ### The decodable runs of a stream -/

/-- A decode of fewer elements gives the first values of a longer one (42_scalar_decoder.md R501). -/
theorem decodeStream_take (v : Variant) {k n : Nat} (C D : Nat → Byte) (h : k ≤ n) :
    (decodeStream v k C D).1 = (decodeStream v n C D).1.take k := by
  obtain ⟨m, rfl⟩ := Nat.exists_eq_add_of_le h
  obtain ⟨-, hlen, -⟩ := scalarLanes_spec v D ((List.range k).map (elemTag C)) 0
  rw [decodeStream_eq_scalarLanes, decodeStream_eq_scalarLanes, List.range_add, List.map_append, scalarLanes_append,
    List.take_left' (by simpa using hlen)]

/-- The decoder gives n values (42_scalar_decoder.md R501). -/
@[simp] theorem length_decodeStream (v : Variant) (n : Nat) (C D : Nat → Byte) : (decodeStream v n C D).1.length = n := by
  obtain ⟨-, hlen, -⟩ := scalarLanes_spec v D ((List.range n).map (elemTag C)) 0
  rw [decodeStream_eq_scalarLanes, hlen, List.length_map, List.length_range]

@[simp] theorem length_skippedDeltas (v : Variant) (s : State) :
    (skippedDeltas v s).length = decodablePrefix v s (s.argVal .n) := length_decodeStream _ _ _ _

/-- Some running sum of the longest decodable run of elements overflows exactly when one of some decodable run does: the longest
begins with every other (45_delta.md R602, R605). -/
theorem prefixOverflow_skippedDeltas_iff {v : Variant} {s : State} (hseed : s.argVal .seed < 2 ^ elemBits v) :
    prefixOverflow v (s.argVal .seed) (skippedDeltas v s) = true ↔
      ∃ k j, k ≤ s.argVal .n ∧ groupCount k ≤ s.argVal .ctrlLen ∧ segLen v k (ctrlByte s) ≤ s.argVal .dataLen ∧ j ≤ k ∧
        2 ^ elemBits v ≤ s.argVal .seed + ((decodeStream v k (ctrlByte s) (dataByte s)).1.take j).sum := by
  obtain ⟨hctrl, hdata, hle, hlargest⟩ := decodablePrefix_spec v s (s.argVal .n)
  rw [prefixOverflow_iff, length_skippedDeltas]
  constructor
  · rintro ⟨j, hj, -, hsum⟩
    exact ⟨_, j, hle, hctrl, hdata, hj, hsum⟩
  · rintro ⟨k, j, hk, hkc, hkd, hj, hsum⟩
    have hmax := hlargest k hk hkc hkd
    refine ⟨j, hj.trans hmax, ?_, ?_⟩
    · rintro rfl
      rw [List.take_zero, List.sum_nil] at hsum
      omega
    · rwa [decodeStream_take v _ _ hmax, List.take_take, Nat.min_eq_left hj] at hsum

/-! ### Contracts and errors -/

/-- A contract is broken exactly when its rule says so (R702 step 6). -/
theorem breaksContract_iff (i : Instr) (s : State) : breaksContract i s = true ↔ contractBroken i s := by
  cases i with
  | encodeDeltas v =>
    simp only [breaksContract, contractBroken, Bool.and_eq_true, Bool.not_eq_true', tooWide_eq_false, nonMonotone_iff,
      deltaInput]
  | decodeDeltas v | skipDeltas v =>
    simp only [breaksContract, contractBroken, Bool.and_eq_true, Bool.not_eq_true', tooWide_eq_false]
    exact and_congr_right prefixOverflow_skippedDeltas_iff
  | dataLen v =>
    simp only [breaksContract, contractBroken, Bool.and_eq_true, decide_eq_true_eq]
    rfl
  | tagFor v | byteLen v | packCtrl v | unpackCtrl v | shufEntry v | encode v | decode v | decodeScalar v | decodeVector v =>
    simp [breaksContract, contractBroken]

theorem breaksContract_eq_false {i : Instr} {s : State} : breaksContract i s = false ↔ ¬contractBroken i s := by
  rw [← breaksContract_iff, Bool.not_eq_true]

theorem truncated_iff (v : Variant) (s : State) (n : Nat) :
    truncated v s n = true ↔ s.argVal .ctrlLen < (n + 3) / 4 ∨ s.argVal .dataLen < segLen v n (ctrlByte s) := by
  simp only [truncated, Bool.or_eq_true, decide_eq_true_eq]
  rfl

/-- A check adds one error to the others, if it fails (R702). -/
theorem mem_errIf_iff (c : Bool) (e x : Status) (E : List Status) : x ∈ errIf c e E ↔ (x = e ∧ c = true) ∨ x ∈ E := by
  rw [mem_errIf, and_comm]

theorem mem_errIf_nil (c : Bool) (e x : Status) : x ∈ errIf c e [] ↔ x = e ∧ c = true := by
  rw [mem_errIf_iff, or_iff_left List.not_mem_nil]

/-- The errors of an encoder are those of R451: an output too small for the control bytes or, when the stream can be computed, for
its data bytes, and an input that is too short. -/
theorem mem_encodeErrors (s : State) (n : Nat) (encodable : Bool) (D : List Byte) (E : List Status) (e : Status) :
    e ∈ encodeErrors s n encodable D E ↔
      (e = .bufferTooSmall ∧ (s.argVal .ctrlLen < (n + 3) / 4 ∨ (encodable = true ∧ s.argVal .dataLen < D.length))) ∨
      (e = .truncatedInput ∧ s.argVal .valLen < n) ∨ e ∈ E := by
  simp only [encodeErrors, mem_errIf_iff, decide_eq_true_eq, Bool.and_eq_true]
  rw [groupCount]
  tauto

/-- The errors of a decode command are those of R502. -/
theorem mem_decodeErrors (v : Variant) (s : State) (n : Nat) (E : List Status) (e : Status) :
    e ∈ decodeErrors v s n E ↔
      (e = .bufferTooSmall ∧ s.argVal .valLen < n) ∨ (e = .truncatedInput ∧ truncated v s n = true) ∨ e ∈ E := by
  simp only [decodeErrors, mem_errIf_iff, decide_eq_true_eq]

/-- An error may be reported for one of four conditions (the table of R700). -/
theorem reportable_iff (i : Instr) (s : State) (e : Status) :
    reportable i s e ↔ (e = .bufferTooSmall ∧ bufferTooSmall i s) ∨ (e = .truncatedInput ∧ truncatedInput i s) ∨
      (e = .overflow ∧ tooWideOperand i s) ∨ (e = .invalidCommand ∧ illFormedArg i s) := by
  cases e <;> simp [reportable]

/-- The stream of ENCODE, when all values are there (R451). -/
theorem encodedStream_eq {v : Variant} {s : State} (h : s.argVal .n ≤ s.argVal .valLen) :
    encodedStream v s = encodeStream v (valElems v s (s.argVal .n)) := by rw [encodedStream, Nat.min_eq_left h]

/-- The stream of ENCODE_DELTAS, when all values are there (45_delta.md R601). -/
theorem deltaStream_eq {v : Variant} {s : State} (h : s.argVal .n ≤ s.argVal .valLen) :
    deltaStream v s = encodeStream v (deltas (s.argVal .seed) (valElems v s (s.argVal .n))) := by
  rw [deltaStream, deltaInput_eq h]

/-- The error set of a command holds exactly the errors whose condition holds (the table of R700). -/
theorem mem_errorSet (i : Instr) (s : State) (e : Status) : e ∈ errorSet i s ↔ reportable i s e := by
  rw [reportable_iff]
  cases i
  all_goals
    simp only [errorSet, bufferTooSmall, truncatedInput, tooWideOperand, illFormedArg, and_false, or_false, false_or]
  case tagFor v => rw [mem_errIf_nil, tooWide_iff]
  case byteLen v => rw [mem_errIf_nil, reservedBitSet_byteLen_iff]; rfl
  case packCtrl v => rw [mem_errIf_nil, reservedBitSet, bne_iff_ne]; rfl
  case unpackCtrl v => rw [mem_errIf_nil, reservedBitSet_unpackCtrl_iff]; rfl
  case shufEntry v => rw [mem_errIf_nil, shufArgIllegal_iff]; rfl
  case encode v =>
    have hdata : (s.argVal .n ≤ s.argVal .valLen ∧ s.argVal .dataLen < (encodedStream v s).2.length) ↔
        s.argVal .n ≤ s.argVal .valLen ∧ s.argVal .dataLen < (encodeStream v (valElems v s (s.argVal .n))).2.length :=
      and_congr_right fun hle => by rw [encodedStream_eq hle]
    simp [mem_encodeErrors, hdata]
  case encodeDeltas v =>
    have hdata : (s.argVal .n ≤ s.argVal .valLen ∧ s.argVal .dataLen < (deltaStream v s).2.length) ↔
        s.argVal .n ≤ s.argVal .valLen ∧
          s.argVal .dataLen < (encodeStream v (deltas (s.argVal .seed) (valElems v s (s.argVal .n)))).2.length :=
      and_congr_right fun hle => by rw [deltaStream_eq hle]
    simp [mem_encodeErrors, mem_errIf_nil, tooWide_iff, tooWide_eq_false, hdata, and_assoc, and_left_comm]
  case decode v | decodeScalar v | decodeVector v => simp [mem_decodeErrors, truncated_iff]
  case decodeDeltas v => rw [mem_decodeErrors, truncated_iff, mem_errIf_nil, tooWide_iff]
  case skipDeltas v => rw [mem_errIf_iff, truncated_iff, mem_errIf_nil, tooWide_iff]
  case dataLen v => rw [mem_errIf_nil, decide_eq_true_eq]; rfl

end Sys2Proof.Machine
end

section
/-! SUPPORT. The family of the ends of a command (60_exceptions.md sections 2 and 3): which of the five checks stops a command, what
it then answers, and DATA_LEN as the command with all of them but an output. -/

namespace Sys2Proof.Machine

/-! ### What stops a check -/

section
variable {s : State} {r : UB} {f : Fault} {body : Host.Outcome State Fault Refusal} {E : List Status} {uses : List RegionUse}

/-- Region faults end the command with one of the reasons, the one a draw names (R702 step 4). -/
theorem withRegions_faulting (h : regionFaults uses ≠ []) :
    ∃ r ∈ regionFaults uses, withRegions uses s body = .next (s.setFault r) := by
  unfold withRegions
  split
  case h_1 r more hfaults => exact ⟨_, hfaults ▸ pick_mem _ _ _, rfl⟩
  case h_2 hnone => exact absurd hnone h

/-- A byte outside Backed leaves no step (20_memory.md R206). -/
theorem withRegions_stuck (hf : regionFaults uses = [])
    (hout : ∃ u ∈ uses, ∃ a, u.base ≤ a ∧ a < u.base + u.size ∧ backed s.platform a = false) :
    withRegions uses s body = .fault .stuck := by
  obtain ⟨u, hu, a, hlo, hhi, hnot⟩ := hout
  have hall : (uses.all fun w => allBacked s.platform w.base w.size) = false := by
    rw [List.all_eq_false]
    refine ⟨u, hu, fun hin => ?_⟩
    have hback := (allBacked_iff _ _ _).mp hin (a - u.base) (by omega)
    rw [Nat.add_sub_cancel' hlo, hnot] at hback
    cases hback
  unfold withRegions
  rw [hf]
  simp [hall]

/-- Some error is reported when there is one (R702 step 7). -/
theorem reportErrors_of_ne_nil (h : E ≠ []) : ∃ e ∈ E, reportErrors E uses s body = .next (s.raise e uses) := by
  obtain ⟨e, more, rfl⟩ := List.exists_cons_of_ne_nil h
  exact ⟨_, pick_mem e more _, rfl⟩

theorem reportErrors_nil : reportErrors [] uses s body = body := rfl

theorem withContract_broken : withContract true r s body = .next (s.setFault r) := rfl

/-! No check refuses a command. -/

theorem withArgs_refused {rs : List ArgReg} {x : Refusal} (h : withArgs rs s body = .refused x) : body = .refused x := by
  unfold withArgs at h
  split at h
  · exact h
  · cases h

theorem withRegions_refused {x : Refusal} (h : withRegions uses s body = .refused x) : body = .refused x := by
  unfold withRegions at h
  split at h
  · cases h
  · split at h
    · exact h
    · cases h

theorem withContract_refused {c : Bool} {x : Refusal} (h : withContract c r s body = .refused x) : body = .refused x := by
  cases c with
  | false => exact h
  | true => cases h

theorem reportErrors_refused {x : Refusal} (h : reportErrors E uses s body = .refused x) : body = .refused x := by
  cases E with
  | nil => exact h
  | cons e more => cases h

end

/-! ### What a command answers -/

section
variable {i : Instr} {s t : State}

theorem exec_unwritten (h : ∃ r ∈ argsRead i, (s.blk.arg r).wr = false) :
    exec i s = .next (s.setFault .unwrittenArgument) := by
  rw [exec_eq, withArgs_unwritten h]

/-- With its operands in order, a command's contract and errors are left. -/
theorem exec_ready (h : Ready i s) :
    exec i s = withContract (breaksContract i s) (contractReason i) s
      (reportErrors (errorSet i s) (usesOf i s) s (.next (completed i s))) := by
  rw [exec_eq, withArgs_ready h.args, withRegions_ready h.regions h.backedAll]

theorem exec_broken (h : Ready i s) (hbroken : contractBroken i s) :
    exec i s = .next (s.setFault (contractReason i)) := by
  rw [exec_ready h, (breaksContract_iff i s).mpr hbroken, withContract_broken]

theorem exec_kept (h : Ready i s) (hkept : ¬contractBroken i s) :
    exec i s = reportErrors (errorSet i s) (usesOf i s) s (.next (completed i s)) := by
  rw [exec_ready h, breaksContract_eq_false.mpr hkept, withContract_kept]

theorem errorSet_eq_nil (h : ∀ e, ¬reportable i s e) : errorSet i s = [] :=
  List.eq_nil_iff_forall_not_mem.mpr fun e he => h e ((mem_errorSet i s e).mp he)

/-- A command whose operands are in order, whose contract is kept and whose error set is empty completes. -/
theorem exec_of_errorSet_nil (h : Ready i s) (hkept : ¬contractBroken i s) (hE : errorSet i s = []) :
    exec i s = .next (completed i s) := by
  rw [exec_kept h hkept, hE, reportErrors_nil]

/-- Everything a command with a next state can have done: a model fault; or, with its operands in order and its contract kept, a
reported error or its completion. -/
theorem exec_next (h : exec i s = .next t) :
    Faulted s t ∨
      (Ready i s ∧ ¬contractBroken i s ∧ EndsWith (errorSet i s) (usesOf i s) (completed i s) s t) := by
  rw [exec_eq] at h
  refine (withArgs_next h).elim .inl fun ⟨hargs, h⟩ => (withRegions_next h).elim .inl fun ⟨hfaults, hbacked, h⟩ =>
    (withContract_next h).imp_right fun ⟨hkept, h⟩ => ?_
  exact ⟨⟨hargs, hfaults, hbacked⟩, breaksContract_eq_false.mp hkept, endsWith_of_report h⟩

/-- A command that has no step was stuck, behind written arguments and regions that do not fault (R712). -/
theorem exec_fault {f : Fault} (h : exec i s = .fault f) :
    f = .stuck ∧ (∀ r ∈ argsRead i, (s.blk.arg r).wr = true) ∧ regionFaults (usesOf i s) = [] ∧
      ∃ u ∈ usesOf i s, ∃ a, u.base ≤ a ∧ a < u.base + u.size ∧ backed s.platform a = false := by
  have hargs : ∀ r ∈ argsRead i, (s.blk.arg r).wr = true := by
    by_contra hnot
    rw [exec_unwritten (by simpa using hnot)] at h
    cases h
  rw [exec_eq] at h
  rcases withRegions_fault (withArgs_fault h) with ⟨hstuck, hfaults, hout⟩ | h
  · exact ⟨hstuck, hargs, hfaults, hout⟩
  · cases reportErrors_fault (withContract_fault h)

theorem exec_ne_refused (x : Refusal) : exec i s ≠ .refused x := by
  intro h
  rw [exec_eq] at h
  cases reportErrors_refused (withContract_refused (withRegions_refused (withArgs_refused h)))

/-- A command with its operands in order and its contract kept ends, and not in a model fault. -/
theorem exec_ends (h : Ready i s) (hkept : ¬contractBroken i s) : ∃ t, exec i s = .next t ∧ t.fault = s.fault := by
  rw [exec_kept h hkept]
  by_cases hE : errorSet i s = []
  · rw [hE]
    exact ⟨_, rfl, rfl⟩
  · obtain ⟨e, -, hreport⟩ := reportErrors_of_ne_nil hE
    exact ⟨_, hreport, rfl⟩

end

/-! ### Regions that fault -/

/-- Two regions share a byte (20_memory.md R208). -/
theorem RegionUse.meets_iff (u w : RegionUse) :
    u.meets w = true ↔ ∃ a, (u.base ≤ a ∧ a < u.base + u.size) ∧ w.base ≤ a ∧ a < w.base + w.size := by
  rw [← Bool.not_eq_false, RegionUse.meets_eq_false, not_not]
  constructor
  · rintro ⟨hu, hw, huw, hwu⟩
    exact ⟨max u.base w.base, by omega⟩
  · rintro ⟨a, h⟩
    omega

/-- Two regions of a list overlap: two positions, one of them an output, share a byte (R208). -/
theorem regionsOverlap_iff (us : List RegionUse) :
    regionsOverlap us = true ↔ ∃ (p q : Nat) (u w : RegionUse), p < q ∧ us[p]? = some u ∧ us[q]? = some w ∧
      (u.output = true ∨ w.output = true) ∧ u.meets w = true := by
  induction us with
  | nil => simp [regionsOverlap]
  | cons x us ih =>
    simp only [regionsOverlap, Bool.or_eq_true, List.any_eq_true, Bool.and_eq_true, ih]
    constructor
    · rintro (⟨w, hw, hout, hmeets⟩ | ⟨p, q, u, w, hpq, hu, hw, h⟩)
      · obtain ⟨q, hq⟩ := List.getElem?_of_mem hw
        exact ⟨0, q + 1, x, w, q.succ_pos, rfl, hq, hout, hmeets⟩
      · exact ⟨p + 1, q + 1, u, w, Nat.succ_lt_succ hpq, hu, hw, h⟩
    · rintro ⟨p, q, u, w, hpq, hu, hw, h⟩
      obtain ⟨q, rfl⟩ := Nat.exists_eq_succ_of_ne_zero (Nat.ne_zero_of_lt hpq)
      cases p with
      | zero =>
        obtain rfl : x = u := Option.some_injective _ hu
        exact .inl ⟨w, List.mem_of_getElem? hw, h⟩
      | succ p => exact .inr ⟨p, q, u, w, Nat.lt_of_succ_lt_succ hpq, hu, hw, h⟩

/-- The reasons for which the regions of a command fault, one check each (R205, R207, R208). -/
theorem mem_regionFaults (us : List RegionUse) (r : UB) :
    r ∈ regionFaults us ↔
      (r = .regionWrap ∧ ∃ u ∈ us, u.wraps = true) ∨ (r = .misalignedValues ∧ ∃ u ∈ us, u.misaligned = true) ∨
        (r = .overlap ∧ regionsOverlap us = true) := by
  have hcheck (c : Bool) (x : UB) : (r ∈ if c then [x] else []) ↔ r = x ∧ c = true := by cases c <;> simp
  rw [regionFaults, List.mem_append, List.mem_append, hcheck, hcheck, hcheck, List.any_eq_true, List.any_eq_true]

/-! ### Addresses outside Backed -/

/-- A register block's bytes, and the addresses past the last, are not memory (20_memory.md R206, R213). -/
theorem backed_eq_false {P : Platform} {a : Nat}
    (h : (∃ base ∈ P.regBase0 :: P.moreBases, base.toNat ≤ a ∧ a < base.toNat + 0xA0) ∨ 2 ^ 64 ≤ a) :
    backed P a = false := by
  rcases h with hblock | hhigh
  · have hin : inRegBlock P a = true := by
      obtain ⟨base, hbase, hlo, hhi⟩ := hblock
      exact List.any_eq_true.mpr ⟨base, hbase, by simp [hlo, hhi]⟩
    simp [backed, hin]
  · have hpast : ¬a < addrSpace := Nat.not_lt.mpr hhigh
    simp [backed, hpast]

/-! ### The statements -/

/-- Settles O42: with the operands in order the contract is the next check, before every error. -/
theorem brokenContractFaults : Obligations.BrokenContractFaults := by
  intro i s hready hbroken
  refine ⟨contractReason i, exec_broken hready hbroken, ?_⟩
  cases i with
  | encodeDeltas v => exact .inl ⟨v, rfl, rfl⟩
  | decodeDeltas v => exact .inr (.inl ⟨v, List.mem_cons_self, rfl⟩)
  | skipDeltas v => exact .inr (.inl ⟨v, List.mem_cons_of_mem _ List.mem_cons_self, rfl⟩)
  | dataLen v => exact .inr (.inr ⟨v, rfl, rfl⟩)
  | tagFor v | byteLen v | packCtrl v | unpackCtrl v | shufEntry v | encode v | decode v | decodeScalar v | decodeVector v =>
    exact hbroken.elim

/-- Settles O43: the error set holds the errors whose condition holds; one of it is reported, or it is empty. -/
theorem reportedErrorsAreThoseOfTheRules : Obligations.ReportedErrorsAreThoseOfTheRules := by
  intro i s hready hkept
  refine ⟨fun ⟨e, he⟩ => ?_, fun hnone => ⟨_, exec_of_errorSet_nil hready hkept (errorSet_eq_nil hnone), rfl, rfl⟩⟩
  obtain ⟨e', he', hreport⟩ := reportErrors_of_ne_nil (List.ne_nil_of_mem ((mem_errorSet i s e).mpr he))
  exact ⟨e', (mem_errorSet i s e').mp he', (exec_kept hready hkept).trans hreport⟩

/-- Settles O44: the checks of a command are the only places where it stops, and each lets it pass on one condition. -/
theorem commandsEndExactlyWhen : Obligations.CommandsEndExactlyWhen := by
  intro i s
  refine ⟨fun hfault => ⟨?_, ?_⟩, ⟨?_, ?_⟩, fun f h => (exec_fault h).1, exec_ne_refused⟩
  · rintro ⟨t, hnext, hnofault⟩
    obtain ⟨hready, hkept, -⟩ := (exec_next hnext).resolve_left fun hbad => hbad.fault_ne_none hnofault
    exact ⟨hready, hkept⟩
  · rintro ⟨hready, hkept⟩
    obtain ⟨t, hnext, hsame⟩ := exec_ends hready hkept
    exact ⟨t, hnext, hsame.trans hfault⟩
  · exact fun h => (exec_fault h).2
  · rintro ⟨hargs, hfaults, hout⟩
    rw [exec_eq, withArgs_ready hargs, withRegions_stuck hfaults hout]

/-- Settles O45: the three outcomes past the unwritten operands are the contract, the one error and the completion of the one form
of all commands. -/
theorem dataLenResult : Obligations.DataLenResult := by
  intro v s
  refine ⟨encodeCmd_eq_ofNat (.dataLen v), fun hunwritten => ?_, fun hready => ⟨fun hshort => ?_, fun hlong htotal => ?_,
    fun hlong hfit => ?_⟩⟩
  · rcases hunwritten with h | h | h
    · exact exec_unwritten ⟨.n, by simp only [argsRead]; decide, h⟩
    · exact exec_unwritten ⟨.ctrlBase, by simp only [argsRead]; decide, h⟩
    · exact exec_unwritten ⟨.ctrlLen, by simp only [argsRead]; decide, h⟩
  · have hone : errorSet (.dataLen v) s = [.truncatedInput] := by
      have hc : s.argVal .ctrlLen < groupCount (s.argVal .n) := hshort
      simp [errorSet, errIf, hc]
    rw [exec_kept hready fun hbroken => absurd hbroken.1 (Nat.not_le.mpr hshort), hone]
    rfl
  · exact exec_broken hready ⟨hlong, htotal⟩
  · have hE : errorSet (.dataLen v) s = [] := (errIf_eq_nil _ _ _).mpr ⟨decide_eq_false (Nat.not_lt.mpr hlong), rfl⟩
    rw [exec_of_errorSet_nil hready (fun hbroken => absurd hbroken.2 (Nat.not_le.mpr hfit)) hE]
    rfl

/-- Settles O55: the argument reads are the first check of every command. -/
theorem unwrittenArgumentFaults : Obligations.UnwrittenArgumentFaults := fun _ _ r hr hunwritten =>
  exec_unwritten ⟨r, hr, hunwritten⟩

/-- Settles O56. -/
theorem regionFaultReasons : Obligations.RegionFaultReasons := by
  intro uses
  refine ⟨?_, ?_, ?_, fun r hr => ?_⟩
  · simp [mem_regionFaults, RegionUse.wraps, addrSpace]
  · simp [mem_regionFaults, RegionUse.misaligned]
  · simp [mem_regionFaults, regionsOverlap_iff, RegionUse.meets_iff]
  · exact ((mem_regionFaults uses r).mp hr).imp And.left (Or.imp And.left And.left)

/-- Settles O57: the region checks are the next after the argument reads. -/
theorem regionChecksStopCommands : Obligations.RegionChecksStopCommands := by
  refine ⟨fun i s hargs => ⟨fun hfaults => ?_, fun hfaults hout => ?_⟩, fun P a h => backed_eq_false h⟩
  · rw [exec_eq, withArgs_ready hargs]
    exact withRegions_faulting hfaults
  · rw [exec_eq, withArgs_ready hargs, withRegions_stuck hfaults hout]

end Sys2Proof.Machine
end

section
/-! SUPPORT. The family of the frames of a command (10_state.md section 2; 20_memory.md section 4; 60_exceptions.md R703): what a
command that answers a next state changes, and what it leaves. -/

namespace Sys2Proof.Machine

/-! ### Memory that changes within the output regions -/

/-- From `m` to `m'` nothing changes but bytes of the output regions, and the canonical form is kept. -/
structure ChangesWithin (uses : List RegionUse) (m m' : Memory) : Prop where
  wf : m.wf = true → m'.wf = true
  outside : ∀ a, ¬inOutput uses a → m'.read a = m.read a
  cells : ∀ c ∈ m', inOutput uses c.1 ∨ c ∈ m

theorem ChangesWithin.refl (uses : List RegionUse) (m : Memory) : ChangesWithin uses m m :=
  ⟨id, fun _ _ => rfl, fun _ hc => .inr hc⟩

/-- Bytes stored inside an output region change nothing outside it. -/
theorem ChangesWithin.writeBytes {uses : List RegionUse} {m m' : Memory} (h : ChangesWithin uses m m') {u : RegionUse}
    (hu : u ∈ uses) (hout : u.output = true) {bs : List Byte} (hfit : bs.length ≤ u.size) :
    ChangesWithin uses m (m'.writeBytes u.base bs) where
  wf hwf := Memory.wf_writeBytes _ _ _ (h.wf hwf)
  outside a ha := by
    have hnot : ¬(u.base ≤ a ∧ a < u.base + u.size) := fun hin => ha ⟨u, hu, hout, hin⟩
    rw [Memory.read_writeBytes_outside _ _ _ _ (by omega), h.outside a ha]
  cells c hc := by
    rcases Memory.mem_writeBytes _ _ _ _ hc with ⟨hlo, hhi⟩ | hc
    · exact .inl ⟨u, hu, hout, hlo, by omega⟩
    · exact h.cells c hc

theorem changesWithin_drawOutputs (uses : List RegionUse) (d : Nat) (m : Memory) :
    ChangesWithin uses m (drawOutputs uses d m) where
  wf := wf_drawOutputs uses d m
  outside := read_drawOutputs_outside uses d m
  cells := mem_drawOutputs uses d m

section
variable {v : Variant} {s : State}

theorem truncated_eq_false {n : Nat} :
    truncated v s n = false ↔ groupCount n ≤ s.argVal .ctrlLen ∧ segLen v n (ctrlByte s) ≤ s.argVal .dataLen := by
  simp [truncated]

/-- A stream that fits its regions is stored inside them (41_encoder.md R451). -/
theorem changesWithin_writeStream {CD : List Byte × List Byte} (hctrl : CD.1.length ≤ s.argVal .ctrlLen)
    (hdata : CD.2.length ≤ s.argVal .dataLen) : ChangesWithin (encodeUses v s) s.mem (writeStream s CD) :=
  ((ChangesWithin.refl _ s.mem).writeBytes (u := ctrlUse s true) (by simp [encodeUses]) rfl hctrl).writeBytes
    (u := dataUse s true) (by simp [encodeUses]) rfl hdata

/-- Elements no more than VAL_LEN are stored inside the VAL region (20_memory.md R203). -/
theorem changesWithin_writeVals {xs : List Nat} (hlen : xs.length ≤ s.argVal .valLen) :
    ChangesWithin (decodeUses v s) s.mem (writeVals v s xs) :=
  (ChangesWithin.refl _ s.mem).writeBytes (u := valUse v s true) (by simp [decodeUses]) rfl (by
    simpa [List.length_flatMap, valUse] using Nat.mul_le_mul_right (elemBytes v) hlen)

end

/-- The sizes of ENCODE's stream are those of the values it read. -/
theorem length_encodedStream_ctrl {v : Variant} {s : State} (h : s.argVal .n ≤ s.argVal .valLen) :
    (encodedStream v s).1.length = groupCount (s.argVal .n) := by
  rw [encodedStream_eq h, length_encodeStream_ctrl, length_valElems]

theorem length_deltaStream_ctrl {v : Variant} {s : State} (h : s.argVal .n ≤ s.argVal .valLen) :
    (deltaStream v s).1.length = groupCount (s.argVal .n) := by
  rw [deltaStream_eq h, length_encodeStream_ctrl, length_deltas, length_valElems]

/-- A command with no error to report stores inside its output regions: its error set holds an error for each output that is too
small. -/
theorem changesWithin_storedMemory {i : Instr} {s : State} (hE : errorSet i s = []) :
    ChangesWithin (usesOf i s) s.mem (storedMemory i s) := by
  cases i with
  | encode v =>
    obtain ⟨hval, hctrl, hdata, -⟩ := (encodeErrors_eq_nil _ _ _ _ _).mp hE
    exact changesWithin_writeStream ((length_encodedStream_ctrl hval).trans_le hctrl) (hdata (by simpa using hval))
  | encodeDeltas v =>
    obtain ⟨hval, hctrl, hdata, hwide⟩ := (encodeErrors_eq_nil _ _ _ _ _).mp hE
    obtain ⟨hseed, -⟩ := (errIf_eq_nil _ _ _).mp hwide
    exact changesWithin_writeStream ((length_deltaStream_ctrl hval).trans_le hctrl) (hdata (by simp [hseed, hval]))
  | decode v | decodeScalar v | decodeVector v =>
    obtain ⟨hval, -⟩ := (decodeErrors_eq_nil _ _ _ _).mp hE
    exact changesWithin_writeVals ((length_decodeStream _ _ _ _).trans_le hval)
  | decodeDeltas v =>
    obtain ⟨hval, -⟩ := (decodeErrors_eq_nil _ _ _ _).mp hE
    obtain ⟨-, -, hprefix, -⟩ := decodablePrefix_spec v s (s.argVal .n)
    refine changesWithin_writeVals ?_
    rw [length_prefixSum, length_skippedDeltas]
    exact hprefix.trans hval
  | tagFor v | byteLen v | packCtrl v | unpackCtrl v | shufEntry v | skipDeltas v | dataLen v => exact .refl _ _

section
variable {i : Instr} {s t : State}

/-- No command changes memory outside its output regions, however it ends. -/
theorem exec_changesWithin (h : exec i s = .next t) : ChangesWithin (usesOf i s) s.mem t.mem := by
  rcases exec_next h with ⟨r, rfl⟩ | ⟨-, -, ⟨e, -, rfl⟩ | ⟨hE, rfl⟩⟩
  · exact .refl _ _
  · exact changesWithin_drawOutputs _ _ _
  · exact changesWithin_storedMemory hE

/-- A command without output regions draws no byte. -/
theorem drawOutputs_eq_self {uses : List RegionUse} (h : ∀ u ∈ uses, u.output = false) (d : Nat) (m : Memory) :
    drawOutputs uses d m = m := by
  induction uses with
  | nil => rfl
  | cons u us ih =>
    obtain ⟨hu, hus⟩ := List.forall_mem_cons.mp h
    rw [drawOutputs, hu, if_neg Bool.false_ne_true, ih hus]

/-- A command that stores nothing leaves memory as it was, however it ends. -/
theorem exec_mem_eq (hout : ∀ u ∈ usesOf i s, u.output = false) (hstored : storedMemory i s = s.mem)
    (h : exec i s = .next t) : t.mem = s.mem := by
  rcases exec_next h with ⟨r, rfl⟩ | ⟨-, -, ⟨e, -, rfl⟩ | ⟨-, rfl⟩⟩
  · rfl
  · exact drawOutputs_eq_self hout _ _
  · exact hstored

/-! ### Registers -/

/-- What a command leaves alone however it ends: the argument registers, CMD, STRATEGY, the parameters, the other register blocks,
the hosts and the turns (10_state.md section 2). -/
structure RestKept (s t : State) : Prop where
  arg : ∀ r, t.blk.arg r = s.blk.arg r
  cmd : t.blk.cmd = s.blk.cmd
  strategy : t.blk.strategy = s.blk.strategy
  platform : t.platform = s.platform
  below : t.below = s.below
  above : t.above = s.above
  hosts : t.hosts = s.hosts
  turns : t.turns = s.turns

theorem restKept_setFault (s : State) (r : UB) : RestKept s (s.setFault r) := ⟨fun _ => rfl, rfl, rfl, rfl, rfl, rfl, rfl, rfl⟩

theorem restKept_raise (s : State) (e : Status) (uses : List RegionUse) : RestKept s (s.raise e uses) :=
  ⟨s.raise_arg e uses, rfl, rfl, rfl, rfl, rfl, rfl, rfl⟩

theorem restKept_complete (s : State) (rs : List (ResReg × Nat)) (m : Memory) : RestKept s (s.complete rs m) :=
  ⟨s.complete_arg rs m, s.complete_cmd rs m, s.complete_strategy rs m, rfl, rfl, rfl, rfl, rfl⟩

theorem exec_restKept (h : exec i s = .next t) : RestKept s t := by
  rcases exec_next h with ⟨r, rfl⟩ | ⟨-, -, ⟨e, -, rfl⟩ | ⟨-, rfl⟩⟩
  · exact restKept_setFault s r
  · exact restKept_raise s e _
  · exact restKept_complete s _ _

/-- A command changes FAULT only by a model fault, which changes nothing else (R710). -/
theorem exec_fault_eq (h : exec i s = .next t) : t.fault = s.fault ∨ ∃ r, t = s.setFault r := by
  rcases exec_next h with hbad | ⟨-, -, ⟨e, -, rfl⟩ | ⟨-, rfl⟩⟩
  · exact .inr hbad
  · exact .inl rfl
  · exact .inl rfl

/-! ### The two ends of a command without a model fault -/

/-- STATUS names its error: the codes differ (R700). -/
theorem Status.code_injective {e e' : Status} (h : e.code = e'.code) : e = e' := by
  have hname (x : Status) : [Status.ok, .bufferTooSmall, .truncatedInput, .overflow, .capabilityMismatch,
      .invalidCommand][x.code.toNat]? = some x := by cases x <;> rfl
  exact Option.some_injective _ ((hname e).symm.trans (h ▸ hname e'))

/-- No error set holds OK. -/
theorem ok_notMem_errorSet (i : Instr) (s : State) : Status.ok ∉ errorSet i s := fun h => (mem_errorSet i s .ok).mp h

/-- STATUS = OK and no model fault: the command found its operands in order, kept its contract, had no error to report, and
completed. -/
theorem EndsOk.completed (h : EndsOk i s t) :
    Ready i s ∧ ¬contractBroken i s ∧ errorSet i s = [] ∧ t = completed i s := by
  obtain ⟨hnext, hnofault, hok⟩ := h
  obtain ⟨hready, hkept, hend⟩ := (exec_next hnext).resolve_left fun hbad => hbad.fault_ne_none hnofault
  exact ⟨hready, hkept, hend.of_ok (ok_notMem_errorSet i s) hok⟩

/-- STATUS ≠ OK and no model fault: the command reported an error whose condition holds. -/
theorem exec_reported (hnext : exec i s = .next t) (hnofault : t.fault = none) (hbad : t.blk.status ≠ 0) :
    Ready i s ∧ ∃ e, reportable i s e ∧ t = s.raise e (usesOf i s) := by
  obtain ⟨hready, -, hend⟩ := (exec_next hnext).resolve_left fun hbad => hbad.fault_ne_none hnofault
  rcases hend with ⟨e, he, rfl⟩ | ⟨-, rfl⟩
  · exact ⟨hready, e, (mem_errorSet i s e).mp he, rfl⟩
  · exact absurd (State.complete_status _ _ _) hbad

/-! ### Results -/

/-- A command writes the registers its rule names (10_state.md R105). -/
theorem mem_resultsOf_iff (i : Instr) (s : State) (r : ResReg) :
    r ∈ resultsOf i ↔ r ∈ (resultValues i s).map Prod.fst := by
  cases i with
  | skipDeltas v | dataLen v => simp [resultsOf, resultValues]; tauto
  | tagFor v | byteLen v | packCtrl v | unpackCtrl v | shufEntry v | encode v | decode v | decodeScalar v | decodeVector v
  | encodeDeltas v | decodeDeltas v => simp [resultsOf, resultValues]

/-- A register that the results name is written. -/
theorem wr_res_writeResults (b : Block) (rs : List (ResReg × Nat)) {r : ResReg}
    (h : r ∈ rs.map Prod.fst ∨ (b.res r).wr = true) : ((b.writeResults rs).res r).wr = true := by
  induction rs generalizing b with
  | nil => simpa [Block.writeResults] using h
  | cons x xs ih =>
    rw [Block.writeResults]
    refine ih _ ?_
    rw [Block.res_writeRes]
    split
    case isTrue => exact .inr rfl
    case isFalse hne =>
      refine h.imp_left fun hmem => ?_
      rw [List.map_cons, List.mem_cons] at hmem
      exact hmem.resolve_left fun heq => hne heq.symm

end

/-! ### The draws of a reported error -/

/-- The number of the draw that the byte at `a` takes, when the first output byte takes draw `d` (R703). -/
def drawNumber : List RegionUse → Nat → Nat → Nat
  | [], d, _ => d
  | u :: us, d, a =>
    if u.output then if u.base ≤ a ∧ a < u.base + u.size then d + (a - u.base) else drawNumber us (d + u.size) a
    else drawNumber us d a

theorem inOutput_cons {u : RegionUse} {us : List RegionUse} {a : Nat} :
    inOutput (u :: us) a ↔ (u.output = true ∧ u.base ≤ a ∧ a < u.base + u.size) ∨ inOutput us a := by
  simp [inOutput]

theorem outputBytes_cons (u : RegionUse) (us : List RegionUse) :
    outputBytes (u :: us) = (if u.output then u.size else 0) + outputBytes us := by
  cases hu : u.output <;> simp [outputBytes, hu]

/-- The draws of the output bytes are numbered from `d` on. -/
theorem drawNumber_bounds {us : List RegionUse} {d a : Nat} (h : inOutput us a) :
    d ≤ drawNumber us d a ∧ drawNumber us d a < d + outputBytes us := by
  induction us generalizing d with
  | nil => obtain ⟨u, hu, -⟩ := h; cases hu
  | cons u us ih =>
    rw [drawNumber, outputBytes_cons]
    rcases inOutput_cons.mp h with ⟨hout, hin⟩ | htail
    · rw [if_pos hout, if_pos hin, if_pos hout]
      omega
    · have hrest := ih (d := d + u.size) htail
      have hskip := ih (d := d) htail
      split_ifs <;> omega

/-- Each output byte takes a draw of its own. -/
theorem drawNumber_injective {us : List RegionUse} {d a b : Nat} (ha : inOutput us a) (hb : inOutput us b)
    (h : drawNumber us d a = drawNumber us d b) : a = b := by
  induction us generalizing d with
  | nil => obtain ⟨u, hu, -⟩ := ha; cases hu
  | cons u us ih =>
    simp only [drawNumber] at h
    rw [inOutput_cons] at ha hb
    by_cases hout : u.output = true
    · rw [if_pos hout, if_pos hout] at h
      by_cases hina : u.base ≤ a ∧ a < u.base + u.size <;> by_cases hinb : u.base ≤ b ∧ b < u.base + u.size
      · rw [if_pos hina, if_pos hinb] at h
        omega
      · have hrest := drawNumber_bounds (d := d + u.size) (hb.resolve_left fun hc => hinb hc.2)
        rw [if_pos hina, if_neg hinb] at h
        omega
      · have hrest := drawNumber_bounds (d := d + u.size) (ha.resolve_left fun hc => hina hc.2)
        rw [if_neg hina, if_pos hinb] at h
        omega
      · rw [if_neg hina, if_neg hinb] at h
        exact ih (ha.resolve_left fun hc => hina hc.2) (hb.resolve_left fun hc => hinb hc.2) h
    · rw [if_neg hout, if_neg hout] at h
      exact ih (ha.resolve_left fun hc => hout hc.1) (hb.resolve_left fun hc => hout hc.1) h

/-- Regions apart from each other keep the draws of the earlier ones: each output byte reads as its draw. -/
theorem read_drawOutputs {us : List RegionUse} (hapart : regionsOverlap us = false) {d a : Nat} {m : Memory}
    (hwf : m.wf = true) (h : inOutput us a) : (drawOutputs us d m).read a = Config.drawByte (drawNumber us d a) := by
  induction us generalizing d m with
  | nil => obtain ⟨u, hu, -⟩ := h; cases hu
  | cons u us ih =>
    obtain ⟨hhead, htail⟩ := (regionsOverlap_cons_eq_false u us).mp hapart
    rw [drawOutputs, drawNumber]
    by_cases hout : u.output = true
    · rw [if_pos hout, if_pos hout]
      by_cases hin : u.base ≤ a ∧ a < u.base + u.size
      · have hnot : ¬inOutput us a := fun ⟨w, hw, _, hwin⟩ => by
          have hmeets := (RegionUse.meets_iff u w).mpr ⟨a, hin, hwin⟩
          rw [hhead w hw (.inl hout)] at hmeets
          cases hmeets
        have hpos : a - u.base < ((List.range u.size).map fun j => Config.drawByte (d + j)).length := by
          rw [List.length_map, List.length_range]
          omega
        have hread := Memory.read_writeBytes_inside m u.base (a - u.base) _ hwf hpos
        rw [Nat.add_sub_cancel' hin.1] at hread
        rw [if_pos hin, read_drawOutputs_outside _ _ _ _ hnot, hread, List.getElem_map, List.getElem_range]
      · rw [if_neg hin]
        exact ih htail (Memory.wf_writeBytes _ _ _ hwf) ((inOutput_cons.mp h).resolve_left fun hc => hin hc.2)
    · rw [if_neg hout, if_neg hout]
      exact ih htail hwf ((inOutput_cons.mp h).resolve_left fun hc => hout hc.1)

/-- Only a command without regions can report InvalidCommand (30_encoding.md R305). -/
theorem usesOf_of_invalidCommand {i : Instr} {s : State} (h : reportable i s .invalidCommand) : usesOf i s = [] := by
  cases i with
  | tagFor v | byteLen v | packCtrl v | unpackCtrl v | shufEntry v => rfl
  | encode v | decode v | decodeScalar v | decodeVector v | encodeDeltas v | decodeDeltas v | skipDeltas v | dataLen v =>
    exact h.elim

/-! ### The statements -/

/-- Settles O50. -/
theorem commandsLeaveTheRestAlone : Obligations.CommandsLeaveTheRestAlone := by
  intro i s t h
  obtain ⟨harg, hcmd, hstrategy, hplatform, hbelow, habove, hhosts, hturns⟩ := exec_restKept h
  exact ⟨harg, hcmd, hstrategy, hplatform, hbelow, habove, hhosts, hturns, exec_fault_eq h⟩

/-- Settles O52. -/
theorem commandsStoreOnlyToOutputs : Obligations.CommandsStoreOnlyToOutputs := by
  refine ⟨fun i s t h => (exec_changesWithin h).outside, fun v i s t hi => ?_⟩
  simp only [List.mem_cons, List.not_mem_nil, or_false] at hi
  obtain rfl | rfl | rfl | rfl | rfl | rfl | rfl := hi
  all_goals exact exec_mem_eq (by simp [usesOf, ctrlUse, dataUse]) rfl

/-- An illegal word ends with InvalidCommand, which draws no byte (30_encoding.md R304). -/
theorem commandWrite_illegal {s t : State} {w : CmdWord} (hillegal : ∀ i, decodeCmd w ≠ .ok i)
    (h : commandWrite exec s w = .next t) : t = (s.storeCmd w).raise .invalidCommand [] := by
  rcases commandWrite_next h with ⟨i, hi, -⟩ | ⟨-, ht⟩
  · exact absurd hi (hillegal i)
  · exact ht

/-- Settles O53: a command that ends with an error is the state before it with the error raised; its output regions are apart, so
that each of their bytes keeps its draw. -/
theorem reportedErrorEffect : Obligations.ReportedErrorEffect := by
  refine ⟨fun i s t hwf hnext hnofault hbad => ?_, fun s t w hillegal hnext => ?_⟩
  · obtain ⟨harg, hcmd, hstrategy, hplatform, hbelow, habove, hhosts, hturns⟩ := exec_restKept hnext
    have houtside := (exec_changesWithin hnext).outside
    obtain ⟨hready, e, he, rfl⟩ := exec_reported hnext hnofault hbad
    obtain ⟨-, -, hapart⟩ := (regionFaults_eq_nil _).mp hready.regions
    refine ⟨⟨e, ?_, ?_, rfl⟩, fun r => by simp, fun hinvalid => ?_, fun _ => ?_, houtside, harg, hcmd, hstrategy, hplatform,
      rfl, hbelow, habove, hhosts, hturns⟩
    · rintro rfl; exact he
    · rintro rfl; exact he
    · obtain rfl := Status.code_injective hinvalid
      rw [usesOf_of_invalidCommand he]
      rfl
    · refine ⟨drawNumber (usesOf i s) (s.draws + 1), fun a b => drawNumber_injective, fun a ha => ?_⟩
      obtain ⟨hlo, hhi⟩ := drawNumber_bounds (d := s.draws + 1) ha
      exact ⟨Nat.le_of_succ_le hlo, hhi, read_drawOutputs hapart hwf ha⟩
  · obtain rfl := commandWrite_illegal hillegal hnext
    exact ⟨rfl, fun r => by simp, rfl, fun r => by simp [State.storeCmd], rfl, rfl, rfl, rfl, rfl, rfl, rfl, rfl⟩

end Sys2Proof.Machine
end

section
/-! SUPPORT. The family of command words (30_encoding.md section 1): decoding as the inverse of encoding, and the legal words. -/

namespace Sys2Proof.Machine

/-! ### Fields -/

/-- VAR names the one variant whose code it is (R302). -/
theorem variantOfCode_eq_some (c : BitVec 2) (v : Variant) : variantOfCode c = some v ↔ c = v.code := by
  revert c
  cases v <;> decide

/-- OPC names the one command of a variant whose code it is (R303). -/
theorem commandOfOpc_eq_some (o : BitVec 8) (v : Variant) (i : Instr) :
    commandOfOpc o v = some i ↔ o = i.opc ∧ v = i.variant := by
  constructor
  · intro h
    unfold commandOfOpc at h
    split at h
    case h_14 => cases h
    all_goals
      rename_i hopc
      obtain rfl := Option.some_injective _ h
      exact ⟨BitVec.eq_of_toNat_eq hopc, rfl⟩
  · rintro ⟨rfl, rfl⟩
    cases i <;> rfl

/-- The three tests of R304 pass, and VAR and OPC name the command. -/
theorem decodeCmd_eq_ok (w : CmdWord) (i : Instr) :
    decodeCmd w = .ok i ↔
      w.extractLsb' 10 22 = 0 ∧ w.extractLsb' 8 2 = i.variant.code ∧ w.extractLsb' 0 8 = i.opc := by
  constructor
  · intro h
    unfold decodeCmd at h
    split at h
    · cases h
    · rename_i hrsv
      split at h
      · cases h
      · rename_i v hvar
        split at h
        · cases h
        · rename_i j hcommand
          obtain rfl := Except.ok.inj h
          obtain ⟨hopc, rfl⟩ := (commandOfOpc_eq_some _ _ _).mp hcommand
          exact ⟨not_not.mp hrsv, (variantOfCode_eq_some _ _).mp hvar, hopc⟩
  · rintro ⟨hrsv, hvar, hopc⟩
    have hvariant := (variantOfCode_eq_some _ i.variant).mpr hvar
    have hcommand := (commandOfOpc_eq_some _ _ i).mpr ⟨hopc, rfl⟩
    simp [decodeCmd, hrsv, hvariant, hcommand]

/-- The fields of a word are digits of its number (R300). -/
theorem decodeCmd_eq_ok_toNat (w : CmdWord) (i : Instr) :
    decodeCmd w = .ok i ↔ w.toNat / 2 ^ 10 = 0 ∧ w.toNat / 2 ^ 8 % 4 = i.variant.code.toNat ∧
      w.toNat % 2 ^ 8 = i.opc.toNat := by
  have hw := w.isLt
  have hrsv : w.toNat / 2 ^ 10 % 2 ^ 22 = w.toNat / 2 ^ 10 := Nat.mod_eq_of_lt (by omega)
  rw [decodeCmd_eq_ok, ← BitVec.toNat_inj, ← BitVec.toNat_inj, ← BitVec.toNat_inj, toNat_extractLsb'_eq,
    toNat_extractLsb'_eq, toNat_extractLsb'_eq, hrsv, Nat.pow_zero, Nat.div_one]
  rfl

/-- The one word of a command as a number: its fields do not overlap (R341). -/
theorem toNat_encodeCmd (i : Instr) : (encodeCmd i).toNat = 2 ^ 8 * i.variant.code.toNat + i.opc.toNat := by
  have hvar := i.variant.code.isLt
  have hopc := i.opc.isLt
  rw [encodeCmd_eq_ofNat, BitVec.toNat_ofNat, Nat.mod_eq_of_lt (by omega)]

/-! ### Listed codes -/

theorem variant_code_lt (v : Variant) : v.code.toNat < 3 := by cases v <;> decide

/-- Every VAR but 3 is the code of a variant (R302). -/
theorem exists_variant_code {c : Nat} (h : c < 3) : ∃ v : Variant, v.code.toNat = c := by
  obtain rfl | rfl | rfl : c = 0 ∨ c = 1 ∨ c = 2 := by omega
  · exact ⟨.v1234, rfl⟩
  · exact ⟨.v0124, rfl⟩
  · exact ⟨.v1248, rfl⟩

theorem opc_listed (i : Instr) : i.opc ∈ listedOpcodes := by cases i <;> (simp only [Instr.opc]; decide)

/-- Every listed code is the OPC of a command of each variant (R303). -/
theorem exists_instr_opc (v : Variant) {o : BitVec 8} (h : o ∈ listedOpcodes) : ∃ i : Instr, i.variant = v ∧ i.opc = o := by
  simp only [listedOpcodes, List.mem_cons, List.not_mem_nil, or_false] at h
  obtain rfl | rfl | rfl | rfl | rfl | rfl | rfl | rfl | rfl | rfl | rfl | rfl | rfl := h
  · exact ⟨.tagFor v, rfl, rfl⟩
  · exact ⟨.byteLen v, rfl, rfl⟩
  · exact ⟨.packCtrl v, rfl, rfl⟩
  · exact ⟨.unpackCtrl v, rfl, rfl⟩
  · exact ⟨.encode v, rfl, rfl⟩
  · exact ⟨.decode v, rfl, rfl⟩
  · exact ⟨.decodeScalar v, rfl, rfl⟩
  · exact ⟨.decodeVector v, rfl, rfl⟩
  · exact ⟨.shufEntry v, rfl, rfl⟩
  · exact ⟨.encodeDeltas v, rfl, rfl⟩
  · exact ⟨.decodeDeltas v, rfl, rfl⟩
  · exact ⟨.skipDeltas v, rfl, rfl⟩
  · exact ⟨.dataLen v, rfl, rfl⟩

/-- A word is legal exactly when RSV = 0, VAR names a variant and OPC is listed (R304). -/
theorem exists_decodeCmd_iff (w : CmdWord) :
    (∃ i, decodeCmd w = .ok i) ↔
      w.toNat / 2 ^ 10 = 0 ∧ w.toNat / 2 ^ 8 % 4 ≠ 3 ∧ w.toNat % 2 ^ 8 ∈ listedOpcodes.map (·.toNat) := by
  simp only [decodeCmd_eq_ok_toNat]
  constructor
  · rintro ⟨i, hrsv, hvar, hopc⟩
    have := variant_code_lt i.variant
    exact ⟨hrsv, by omega, hopc ▸ List.mem_map_of_mem (opc_listed i)⟩
  · rintro ⟨hrsv, hvar, hopc⟩
    obtain ⟨v, hv⟩ := exists_variant_code (c := w.toNat / 2 ^ 8 % 4) (by omega)
    obtain ⟨o, ho, hw⟩ := List.mem_map.mp hopc
    obtain ⟨i, rfl, rfl⟩ := exists_instr_opc v ho
    exact ⟨i, hrsv, hv.symm, hw.symm⟩

/-! ### The statements -/

/-- Settles O1: a word and its fields determine each other, and the fields name one command. -/
theorem decodeAndEncodeAgree : Obligations.DecodeAndEncodeAgree := by
  intro w i
  have hvar := variant_code_lt i.variant
  have hopc := i.opc.isLt
  rw [decodeCmd_eq_ok_toNat, ← BitVec.toNat_inj, toNat_encodeCmd]
  constructor
  · rintro ⟨hrsv, hv, ho⟩
    exact ⟨rfl, by omega⟩
  · rintro ⟨-, hw⟩
    omega

/-- Settles O2. -/
theorem legalWordsAreExactlyListed : Obligations.LegalWordsAreExactlyListed := exists_decodeCmd_iff

/-- Settles O3. -/
theorem sampleWordsDecode : Obligations.SampleWordsDecode := by
  unfold Obligations.SampleWordsDecode
  simp only [decodeCmd_eq_ok]
  decide

end Sys2Proof.Machine
end

section
/-! SUPPORT. The family of the host port (70_reset_and_hazards.md R819; 10_state.md sections 1 to 3): the register blocks around an
access, each action of a host, and what one step does. -/

namespace Sys2Proof.Machine

/-! ### The register map -/

/-- The twenty offsets (10_state.md R102). -/
theorem regAt_ne_none_iff (off : Nat) : regAt off ≠ none ↔ off % 8 = 0 ∧ off < 0xA0 := by
  unfold regAt
  split
  case h_21 =>
    simp only [imp_false] at *
    simp
    omega
  all_goals simp

/-- Only offset 0 is CMD's (10_state.md R102). -/
theorem eq_zero_of_regAt_cmd {off : Nat} (h : regAt off = some .cmd) : off = 0 := by
  unfold regAt at h
  split at h
  case h_1 => rfl
  all_goals cases h

/-! ### The register blocks around an access -/

section
variable {s t : State}

theorem State.blocks_selected (s : State) : s.blocks[s.selected]? = some s.blk := by
  rw [State.blocks, State.selected, List.getElem?_append_right le_rfl, Nat.sub_self]
  rfl

/-- A change of the selected block leaves every other alone. -/
theorem State.blocks_other (hbelow : t.below = s.below) (habove : t.above = s.above) {j : Nat} (hj : j ≠ s.selected) :
    t.blocks[j]? = s.blocks[j]? := by
  rw [State.blocks, State.blocks, hbelow, habove, List.getElem?_append, List.getElem?_append]
  split
  case isTrue => rfl
  case isFalse hge =>
    have hne : j - s.below.length ≠ 0 := by
      have : j ≠ s.below.length := hj
      omega
    obtain ⟨m, hm⟩ := Nat.exists_eq_succ_of_ne_zero hne
    rw [hm]
    rfl

/-- A change of the selected block, seen from all blocks. -/
theorem State.blocks_modify {f : Block → Block} (hbelow : t.below = s.below) (habove : t.above = s.above)
    (hblk : t.blk = f s.blk) : t.blocks = s.blocks.modify s.selected f := by
  apply List.ext_getElem?
  intro j
  rw [List.getElem?_modify]
  by_cases hj : j = s.selected
  · have hsame : t.selected = s.selected := congrArg List.length hbelow
    subst hj
    rw [s.blocks_selected, ← hsame, t.blocks_selected, hblk]
    simp
  · rw [State.blocks_other hbelow habove hj]
    simp [Ne.symm hj]

theorem State.lt_instances {k : Nat} {b : Block} (h : s.blocks[k]? = some b) : k < s.instances := by
  rw [← s.length_blocks]
  exact (List.getElem?_eq_some_iff.mp h).1

end

/-! ### Hosts -/

section
variable (s : State) (h : Nat)

/-- A host's move leaves all it has observed alone. -/
theorem State.observed_advance (j : Nat) :
    (((s.advance h).hosts)[j]?).map HostProgram.observed = (s.hosts[j]?).map HostProgram.observed := by
  rw [State.advance, List.getElem?_modify]
  split <;> cases s.hosts[j]? <;> rfl

/-- An observation is recorded by the host that made it, and by no other (30_encoding.md R340). -/
theorem State.observed_observe (o : Observation) (j : Nat) :
    (((s.observe h o).hosts)[j]?).map HostProgram.observed =
      (s.hosts[j]?).map fun x => if j = h then x.observed ++ [o] else x.observed := by
  rw [State.observe, List.getElem?_modify]
  by_cases hj : h = j
  · subst hj
    cases s.hosts[h]? <;> simp
  · cases s.hosts[j]? <;> simp [hj, Ne.symm hj]

end

/-! ### Actions -/

section
variable {s t u : State} {h k : Nat}

/-- With FAULT = none, a step is the well-formed action at hand and then its host's move. -/
theorem step_wellFormed {a : HostAction} (hf : s.fault = none) (hn : s.nextAction = some (h, a))
    (hw : a.wellFormed s.instances = true) : step s = mapNext (·.advance h) (perform exec h s a) := by
  rw [step_act hf hn, act_wellFormed hw]

theorem step_writeCmd {w : CmdWord} (hf : s.fault = none) (hn : s.nextAction = some (h, .writeCmd k w))
    (hk : k < s.instances) : step s = mapNext (·.advance h) (commandWrite exec (s.select k) w) :=
  step_wellFormed hf hn (decide_eq_true hk)

theorem step_writeReg {off : Nat} {x : Word} (hf : s.fault = none) (hn : s.nextAction = some (h, .writeReg k off x))
    (hk : k < s.instances) (hoff : off ≠ 0) :
    step s = mapNext (·.advance h) (writeRegister (s.select k) off x) :=
  step_wellFormed hf hn (by simp [HostAction.wellFormed, hk, hoff])

theorem perform_readReg_ok {off : Nat} {x : Word} (hread : readRegister (s.select k) off = .ok x) :
    perform exec h s (.readReg k off) = .next ((s.select k).observe h (.reg k off x)) := by
  simp only [perform, hread]

theorem perform_readReg_error {off : Nat} {r : UB} (hread : readRegister (s.select k) off = .error r) :
    perform exec h s (.readReg k off) = modelFault r (s.select k) := by
  simp only [perform, hread]

theorem perform_readReg_next {off : Nat} (hnext : perform exec h s (.readReg k off) = .next u) :
    Faulted (s.select k) u ∨ ∃ x, u = (s.select k).observe h (.reg k off x) := by
  cases hread : readRegister (s.select k) off with
  | ok x =>
    rw [perform_readReg_ok hread] at hnext
    exact .inr ⟨x, (Host.Outcome.next.inj hnext).symm⟩
  | error r =>
    rw [perform_readReg_error hread] at hnext
    exact .inl (modelFault_next hnext)

theorem perform_writeMem_next {a : Word} {bs : List Byte} (hnext : perform exec h s (.writeMem a bs) = .next u) :
    (∀ j, j < bs.length → backed s.platform (a.toNat + j) = true) ∧ u = { s with mem := s.mem.writeBytes a.toNat bs } := by
  rw [perform] at hnext
  split at hnext
  · rename_i hall
    exact ⟨(allBacked_iff _ _ _).mp hall, (Host.Outcome.next.inj hnext).symm⟩
  · cases hnext

theorem perform_readMem_next {a : Word} {n : Nat} (hnext : perform exec h s (.readMem a n) = .next u) :
    u = s.observe h (.bytes a (s.mem.bytes a.toNat n)) := by
  rw [perform] at hnext
  split at hnext
  · exact (Host.Outcome.next.inj hnext).symm
  · cases hnext

theorem commandWrite_ok {w : CmdWord} {i : Instr} (hi : decodeCmd w = .ok i) :
    commandWrite exec s w = exec i (s.storeCmd w) := by
  simp only [commandWrite, hi]

/-- A word that decodes to no command ends with InvalidCommand (30_encoding.md R304). -/
theorem commandWrite_eq_of_illegal {w : CmdWord} (hillegal : ¬∃ i, decodeCmd w = .ok i) :
    commandWrite exec s w = .next ((s.storeCmd w).raise .invalidCommand []) := by
  cases hw : decodeCmd w with
  | ok i => exact absurd ⟨i, hw⟩ hillegal
  | error e => simp only [commandWrite, hw, illegalCommand]

/-- A CMD write leaves all but its own block's results and STATUS, memory and FAULT alone, once the word is stored. -/
theorem commandWrite_restKept {w : CmdWord} (hnext : commandWrite exec s w = .next t) : RestKept (s.storeCmd w) t := by
  rcases commandWrite_next hnext with ⟨i, -, hexec⟩ | ⟨-, rfl⟩
  · exact exec_restKept hexec
  · exact restKept_raise _ _ _

/-- An action changes no host but for what the acting one observes, and no turn. -/
theorem perform_hosts {a : HostAction} (hnext : perform exec h s a = .next u) :
    u.turns = s.turns ∧ (u.hosts = s.hosts ∨ ∃ o, u.hosts = (s.observe h o).hosts) := by
  cases a with
  | writeCmd k w =>
    have hkept := commandWrite_restKept hnext
    exact ⟨hkept.turns.trans (by simp), .inl (hkept.hosts.trans (by simp))⟩
  | writeReg k off x =>
    rcases writeRegister_next hnext with ⟨r, rfl⟩ | ⟨r, -, rfl⟩
    · exact ⟨s.select_turns k, .inl (s.select_hosts k)⟩
    · exact ⟨s.select_turns k, .inl (s.select_hosts k)⟩
  | readReg k off =>
    rcases perform_readReg_next hnext with ⟨r, rfl⟩ | ⟨x, rfl⟩
    · exact ⟨s.select_turns k, .inl (s.select_hosts k)⟩
    · exact ⟨s.select_turns k, .inr ⟨.reg k off x, by simp only [State.observe, State.select_hosts]⟩⟩
  | writeMem a bs =>
    obtain ⟨-, rfl⟩ := perform_writeMem_next hnext
    exact ⟨rfl, .inl rfl⟩
  | readMem a n =>
    obtain rfl := perform_readMem_next hnext
    exact ⟨rfl, .inr ⟨_, rfl⟩⟩

/-- After a move each host has its program, and the one that moved is one action on (10_state.md R110). -/
theorem State.hosts_advance (s : State) (h j : Nat) {x : HostProgram} (hx : s.hosts[j]? = some x) :
    ∃ y, (s.advance h).hosts[j]? = some y ∧ y.program = x.program ∧ y.p = if j = h then x.p + 1 else x.p := by
  rw [State.advance, List.getElem?_modify, hx]
  by_cases hj : h = j
  · exact ⟨_, rfl, by simp [hj]⟩
  · exact ⟨_, rfl, by simp [hj, Ne.symm hj]⟩

/-- An observation changes no host's program and moves none on. -/
theorem State.hosts_observe (s : State) (h : Nat) (o : Observation) (j : Nat) {x : HostProgram}
    (hx : s.hosts[j]? = some x) : ∃ y, (s.observe h o).hosts[j]? = some y ∧ y.program = x.program ∧ y.p = x.p := by
  rw [State.observe, List.getElem?_modify, hx]
  by_cases hj : h = j
  · exact ⟨_, rfl, by simp [hj]⟩
  · exact ⟨_, rfl, by simp [hj]⟩

/-! ### Register accesses -/

/-- A model fault of a register access is the fault of the access: selecting and moving on change no register, no memory and no
observation. -/
theorem accessFaults_of_step {r : UB} (hf : s.fault = none)
    (hstep : step s = mapNext (·.advance h) (modelFault r (s.select k))) : AccessFaults s r := by
  refine ⟨((s.select k).setFault r).advance h, hstep, ?_, s.select_blocks k, s.select_mem k, s.select_platform k, fun j => ?_⟩
  · simp [hf]
  · rw [State.observed_advance, State.setFault_hosts, State.select_hosts]

theorem writeRegister_arg {off : Nat} {x : Word} {r : ArgReg} (hr : regAt off = some (.arg r)) :
    writeRegister s off x = .next { s with blk := s.blk.writeArg r x } := by
  simp only [writeRegister, hr]

/-- Every offset but CMD's and an argument register's is no register that a host writes (10_state.md R101). -/
theorem writeRegister_reserved {off : Nat} {x : Word} (hoff : off ≠ 0) (harg : ∀ r, regAt off ≠ some (.arg r)) :
    writeRegister s off x = modelFault .reservedRegister s := by
  unfold writeRegister
  split
  · rename_i r hr; exact absurd hr (harg r)
  · rename_i hcmd; exact absurd (eq_zero_of_regAt_cmd hcmd) hoff
  · rfl

theorem readRegister_reserved {off : Nat} (hoff : regAt off = none) : readRegister s off = .error .reservedRegister := by
  simp only [readRegister, hoff]

theorem readRegister_arg {off : Nat} {r : ArgReg} (hr : regAt off = some (.arg r)) :
    readRegister s off = if (s.blk.arg r).wr then .ok (s.blk.arg r).val else .error .unwrittenArgument := by
  simp only [readRegister, hr]

theorem readRegister_res {off : Nat} {r : ResReg} (hr : regAt off = some (.res r)) :
    readRegister s off = if (s.blk.res r).wr then .ok (s.blk.res r).val else .error .unwrittenResult := by
  simp only [readRegister, hr]

/-- CAPS as a number: bit 0 is VEC_CAP, the others are 0 (10_state.md R109). -/
theorem capsValue_eq (P : Platform) : capsValue P = BitVec.ofNat 64 P.vecCap.toNat := by
  unfold capsValue
  cases P.vecCap <;> rfl

end

/-! ### Placing a command -/

/-- The action placed is host 0's next (notes/assumptions/5.md). -/
theorem nextAction_withCommand (s : State) (w : CmdWord) :
    (withCommand s w).nextAction = some (0, .writeCmd s.selected w) := by
  unfold State.nextAction withCommand withNextAction
  cases s.hosts with
  | nil => rfl
  | cons x rest => simp [HostProgram.current]

theorem decodeCmd_of_tableWord {nbits w : Nat} {i : Instr} (h : decodeTableWord nbits w = some i) :
    decodeCmd (BitVec.ofNat 32 (w % 2 ^ nbits)) = .ok i := by
  unfold decodeTableWord at h
  split at h
  · split at h
    · rename_i hdecode; rw [hdecode, Option.some_injective _ h]
    · cases h
  · cases h

/-! ### The statements -/

/-- Settles O4. -/
theorem stepRunsDecodedCommand : Obligations.StepRunsDecodedCommand := by
  intro s h k w i hf hn hk hi
  rw [step_writeCmd hf hn hk, commandWrite_ok hi]

/-- Settles O5: the placed write names the block that is selected already. -/
theorem placedWordRunsNext : Obligations.PlacedWordRunsNext := by
  intro s nbits w i hi
  have hselect : (s.withFetchWord nbits w).select s.selected = s.withFetchWord nbits w :=
    State.select_self (s.withFetchWord nbits w)
  have hk : s.selected < (s.withFetchWord nbits w).instances := by
    rw [← State.length_blocks]
    exact (List.getElem?_eq_some_iff.mp (State.blocks_selected (s.withFetchWord nbits w))).1
  have hstep := step_writeCmd (s := s.withFetchWord nbits w) rfl (nextAction_withCommand s _) hk
  refine ⟨?_, rfl, rfl, rfl⟩
  rw [hstep, hselect, commandWrite_ok (decodeCmd_of_tableWord hi)]

/-- Settles O6: the word fails one of the three tests, so no command runs and InvalidCommand is raised on the selected block. -/
theorem illegalWordEndsInvalidCommand : Obligations.IllegalWordEndsInvalidCommand := by
  intro s h k w hf hn hk hbad
  have hillegal : ¬∃ i, decodeCmd w = .ok i := by
    rw [exists_decodeCmd_iff]
    tauto
  have hselected := State.select_selected s k hk
  refine ⟨(((s.select k).storeCmd w).raise .invalidCommand []).advance h, ?_, hselected, rfl, rfl, fun r => by simp,
    fun r => by simp [State.storeCmd], rfl, s.select_mem k, s.select_platform k, (s.select_fault k).trans hf, fun j hj => ?_⟩
  · rw [step_writeCmd hf hn hk, commandWrite_eq_of_illegal hillegal, mapNext]
  · rw [← s.select_blocks k]
    exact State.blocks_other (by rfl) (by rfl) (hselected.symm ▸ hj)

/-- Settles O7. -/
theorem onlyHostActionsMoveTheMachine : Obligations.OnlyHostActionsMoveTheMachine := by
  refine ⟨fun s r hr => ⟨?_, by simp [State.ended, hr]⟩, fun s hf hn => ?_, fun s t hstep => (step_next hstep).1⟩
  · simp only [step, stepWith, hr]
  · simp only [step, stepWith, hf, hn, State.skipTurn]

/-- Settles O8: the action itself moves no host and uses up no turn; the move after it does. -/
theorem hostPositionAdvances : Obligations.HostPositionAdvances := by
  intro s t h a hn hstep
  obtain ⟨-, ⟨hnone, -⟩ | ⟨h', a', u, hn', -, hperform, rfl⟩⟩ := step_next hstep
  · rw [hnone] at hn
    cases hn
  · rw [hn] at hn'
    obtain ⟨rfl, rfl⟩ := Prod.mk.inj (Option.some_injective _ hn')
    obtain ⟨hturns, hhosts⟩ := perform_hosts hperform
    refine ⟨congrArg List.tail hturns, ?_, fun j x hx => ?_⟩
    · rw [State.advance, List.length_modify]
      rcases hhosts with hsame | ⟨o, hobs⟩
      · rw [hsame]
      · rw [hobs, State.observe, List.length_modify]
    · obtain ⟨y, hy, hprogram, hp⟩ : ∃ y, u.hosts[j]? = some y ∧ y.program = x.program ∧ y.p = x.p := by
        rcases hhosts with hsame | ⟨o, hobs⟩
        · exact ⟨x, hsame ▸ hx, rfl, rfl⟩
        · exact hobs ▸ s.hosts_observe h o j hx
      obtain ⟨z, hz, hprogram', hp'⟩ := u.hosts_advance h j hy
      exact ⟨z, hz, hprogram'.trans hprogram, by rw [hp', hp]⟩

/-- Settles O9. -/
theorem registerMapIsComplete : Obligations.RegisterMapIsComplete := ⟨regAt_ne_none_iff, rfl, rfl⟩

/-- Settles O10. -/
theorem argumentWriteChangesOneRegister : Obligations.ArgumentWriteChangesOneRegister := by
  intro s h k off x r hf hn hk hr
  have hoff : off ≠ 0 := by
    rintro rfl
    cases hr
  have hselected := State.select_selected s k hk
  refine ⟨({ s.select k with blk := (s.select k).blk.writeArg r x } : State).advance h, ?_, hselected, by simp [Reg64.written],
    fun r' hne => ?_, fun q => by simp, by simp, by simp, by simp, s.select_mem k, s.select_platform k, fun j hj => ?_⟩
  · rw [step_writeReg hf hn hk hoff, writeRegister_arg hr, mapNext]
  · simp [Block.arg_writeArg, Ne.symm hne]
  · rw [← s.select_blocks k]
    exact State.blocks_other (by rfl) (by rfl) (hselected.symm ▸ hj)

/-- Settles O11. -/
theorem reservedAccessFaults : Obligations.ReservedAccessFaults := by
  refine fun s h k off hf hk => ⟨fun x hn hoff harg => ?_, fun hn hbad => ?_⟩
  · exact accessFaults_of_step hf (by rw [step_writeReg hf hn hk hoff, writeRegister_reserved hoff harg])
  · have hnone : regAt off = none := by
      by_contra hsome
      have := (regAt_ne_none_iff off).mp hsome
      omega
    refine accessFaults_of_step (h := h) (k := k) hf ?_
    rw [step_wellFormed hf hn (decide_eq_true hk), perform_readReg_error (readRegister_reserved hnone)]

/-- Settles O12: a read of the selected block records its value or faults, by the register its offset names. -/
theorem hostReadsRegisters : Obligations.HostReadsRegisters := by
  intro s h k off b hf hn hb sees
  have hk := State.lt_instances hb
  have hblk : (s.select k).blk = b := by
    rw [s.select_blk k hk] at hb
    exact Option.some_injective _ hb
  have hsees {x : Word} (hread : readRegister (s.select k) off = .ok x) : sees x := by
    refine ⟨((s.select k).observe h (.reg k off x)).advance h, ?_, s.select_blocks k, s.select_mem k, s.select_platform k,
      fun j => ?_⟩
    · rw [step_wellFormed hf hn (decide_eq_true hk), perform_readReg_ok hread, mapNext]
    · exact (State.observed_advance _ h j).trans (by rw [State.observed_observe, State.select_hosts])
  have hfaults {r : UB} (hread : readRegister (s.select k) off = .error r) : AccessFaults s r :=
    accessFaults_of_step (k := k) hf
      (by rw [step_wellFormed hf hn (decide_eq_true hk), perform_readReg_error hread])
  refine ⟨?_, ?_, ?_, ?_, fun r hr => ⟨fun hwr => hsees ?_, fun hwr => hfaults ?_⟩,
    fun r hr => ⟨fun hwr => hsees ?_, fun hwr => hfaults ?_⟩⟩
  · rintro rfl; exact hsees (congrArg (fun c : Block => Except.ok (c.cmd.setWidth 64)) hblk)
  · rintro rfl; exact hsees (congrArg (fun c : Block => Except.ok (c.status.setWidth 64)) hblk)
  · rintro rfl
    refine hsees ?_
    rw [← capsValue_eq, ← s.select_platform k]
    rfl
  · rintro rfl; exact hsees (congrArg (fun c : Block => Except.ok c.strategy) hblk)
  · rw [readRegister_arg hr, hblk, if_pos hwr]
  · rw [readRegister_arg hr, hblk, hwr, if_neg Bool.false_ne_true]
  · rw [readRegister_res hr, hblk, if_pos hwr]
  · rw [readRegister_res hr, hblk, hwr, if_neg Bool.false_ne_true]

/-- An access with a byte outside Backed fails the check of all its bytes. -/
theorem allBacked_eq_false {P : Platform} {a k : Nat} (h : ∃ j, j < k ∧ backed P (a + j) = false) :
    allBacked P a k = false := by
  obtain ⟨j, hj, hout⟩ := h
  rw [← Bool.not_eq_true, allBacked_iff]
  intro hall
  rw [hall j hj] at hout
  cases hout

/-- Settles O13. -/
theorem hostMemoryAccess : Obligations.HostMemoryAccess := by
  refine fun s h a hf hwf => ⟨fun bs hn => ⟨fun hin => ?_, fun hout => ?_⟩, fun k hn => ⟨fun hin => ?_, fun hout => ?_⟩⟩
  · refine ⟨({ s with mem := s.mem.writeBytes a.toNat bs } : State).advance h, ?_, rfl, rfl, fun x hx => ?_, fun j hj => ?_⟩
    · rw [step_wellFormed hf hn rfl, perform, if_pos ((allBacked_iff _ _ _).mpr hin), mapNext]
    · exact Memory.read_writeBytes_outside _ _ _ _ hx
    · rw [List.getD_eq_getElem _ _ hj]
      exact Memory.read_writeBytes_inside _ _ _ _ hwf hj
  · rw [step_wellFormed hf hn rfl, perform, allBacked_eq_false hout, if_neg Bool.false_ne_true, mapNext]
  · refine ⟨(s.observe h (.bytes a (s.mem.bytes a.toNat k))).advance h, ?_, rfl, rfl, rfl, fun x hx => ?_⟩
    · rw [step_wellFormed hf hn rfl, perform, if_pos ((allBacked_iff _ _ _).mpr hin), mapNext]
    · refine (State.observed_advance _ h h).trans ?_
      rw [State.observed_observe, hx, Option.map_some, if_pos rfl, Memory.bytes]
  · rw [step_wellFormed hf hn rfl, perform, allBacked_eq_false hout, if_neg Bool.false_ne_true, mapNext]

end Sys2Proof.Machine
end

section
/-! SUPPORT. The family of whole steps: the result registers, the model fault, and the invariant that every step keeps
(10_state.md sections 2, 3 and 5; 60_exceptions.md section 3; 70_reset_and_hazards.md section 1). -/

namespace Sys2Proof.Machine

section
variable {s t u : State} {h k : Nat}

/-! ### The register blocks after an action -/

/-- A change of the block selected as number `k`, seen from all blocks. -/
theorem blocks_modify_of_select (hk : k < s.instances) {f : Block → Block} (hbelow : t.below = (s.select k).below)
    (habove : t.above = (s.select k).above) (hblk : t.blk = f (s.select k).blk) : t.blocks = s.blocks.modify k f := by
  have h := State.blocks_modify hbelow habove hblk
  rwa [State.select_blocks, State.select_selected s k hk] at h

/-- A host's write of an argument register, seen from all blocks. -/
theorem blocks_writeArg (hk : k < s.instances) (r : ArgReg) (x : Word) :
    ({ s.select k with blk := (s.select k).blk.writeArg r x } : State).blocks = s.blocks.modify k fun b => b.writeArg r x :=
  blocks_modify_of_select hk (by rfl) (by rfl) (by rfl)

/-- A host's write of CMD, seen from all blocks. -/
theorem blocks_storeCmd (hk : k < s.instances) (w : CmdWord) :
    ((s.select k).storeCmd w).blocks = s.blocks.modify k fun b => b.setCmd w :=
  blocks_modify_of_select hk (by rfl) (by rfl) (by rfl)

/-! ### Results -/

/-- A host's action that writes no CMD changes no result register, though it fault (10_state.md R105). -/
theorem perform_res {a : HostAction} (hcmd : ∀ k w, a ≠ .writeCmd k w) (hw : a.wellFormed s.instances = true)
    (hnext : perform exec h s a = .next u) (j : Nat) (r : ResReg) :
    (u.blocks[j]?).map (fun b : Block => b.res r) = (s.blocks[j]?).map fun b : Block => b.res r := by
  cases a with
  | writeCmd k w => exact absurd rfl (hcmd k w)
  | writeReg k off x =>
    have hk : k < s.instances := by
      simp only [HostAction.wellFormed, Bool.and_eq_true, decide_eq_true_eq] at hw
      exact hw.1
    rcases writeRegister_next hnext with ⟨r', rfl⟩ | ⟨r', -, rfl⟩
    · rw [State.setFault_blocks, State.select_blocks]
    · rw [blocks_writeArg hk, List.getElem?_modify]
      cases s.blocks[j]? with
      | none => rfl
      | some b => by_cases hj : k = j <;> simp [hj]
  | readReg k off =>
    rcases perform_readReg_next hnext with ⟨r', rfl⟩ | ⟨x, rfl⟩
    · rw [State.setFault_blocks, State.select_blocks]
    · exact congrArg (fun bs : List Block => (bs[j]?).map fun b : Block => b.res r) (s.select_blocks k)
  | writeMem a bs =>
    obtain ⟨-, rfl⟩ := perform_writeMem_next hnext
    rfl
  | readMem a n =>
    obtain rfl := perform_readMem_next hnext
    rfl

/-- Settles O51: a command that completes writes its results one by one, and one that reports an error clears them all. -/
theorem resultRegistersWritten : Obligations.ResultRegistersWritten := by
  refine ⟨fun i s t hok => ?_, fun i s t hnext hnofault hbad r => ?_, fun s t h a hn hcmd hstep j r => ?_⟩
  · obtain ⟨-, -, -, rfl⟩ := hok.completed
    refine ⟨fun r hr => ?_, fun r hr => ?_⟩
    · rw [completed, State.complete_res]
      exact wr_res_writeResults _ _ (.inl ((mem_resultsOf_iff i s r).mp hr))
    · rw [completed, State.complete_res]
      refine Block.res_writeResults_other _ _ r fun x hx heq => hr ?_
      exact (mem_resultsOf_iff i s r).mpr (List.mem_map.mpr ⟨x, hx, heq⟩)
  · obtain ⟨-, e, -, rfl⟩ := exec_reported hnext hnofault hbad
    rw [State.raise_res, Reg64.clear_wr]
  · obtain ⟨-, ⟨hnone, -⟩ | ⟨h', a', u, hn', hw, hperform, rfl⟩⟩ := step_next hstep
    · rw [hnone] at hn
      cases hn
    · rw [hn] at hn'
      obtain ⟨rfl, rfl⟩ := Prod.mk.inj (Option.some_injective _ hn')
      exact perform_res hcmd hw hperform j r

/-! ### Model faults -/

/-- FAULT takes a reason only where it holds none (R128). -/
theorem setFault_of_fault_ne {r : UB} (hne : (s.setFault r).fault ≠ s.fault) :
    s.fault = none ∧ s.setFault r = { s with fault := some r } := by
  cases hf : s.fault with
  | some r' => exact absurd (by rw [State.setFault_fault, hf, Option.some_or]) hne
  | none => exact ⟨rfl, by rw [State.setFault, hf, Option.none_or]⟩

theorem exec_fault_ne {i : Instr} (hnext : exec i s = .next t) (hne : t.fault ≠ s.fault) :
    ∃ r, s.fault = none ∧ t = { s with fault := some r } := by
  obtain ⟨r, rfl⟩ := (exec_fault_eq hnext).resolve_left hne
  exact ⟨r, setFault_of_fault_ne hne⟩

/-- The register blocks after an action that ends in a model fault: CMD holds the word of a command (log entry 7), and nothing
else changes. -/
def blocksAfterFault (s : State) : HostAction → List Block
  | .writeCmd k w => s.blocks.modify k fun b => b.setCmd w
  | _ => s.blocks

/-- What a model fault of a selected block leaves: FAULT set, and blocks, memory and parameters as they were. -/
theorem faulted_select (hf : s.fault = none) (hbad : Faulted (s.select k) u) :
    (∃ r, u.fault = some r) ∧ u.blocks = s.blocks ∧ u.mem = s.mem ∧ u.platform = s.platform ∧ u.hosts = s.hosts := by
  obtain ⟨r, rfl⟩ := hbad
  exact ⟨⟨r, by simp [hf]⟩, by simp, by simp, by simp, by simp⟩

/-- An action that ends with FAULT set was a model fault: it writes no register and no memory, but for the word in CMD. -/
theorem perform_faulted {a : HostAction} (hf : s.fault = none) (hw : a.wellFormed s.instances = true)
    (hnext : perform exec h s a = .next u) (hfault : u.fault ≠ none) :
    (∃ r, u.fault = some r) ∧ u.blocks = blocksAfterFault s a ∧ u.mem = s.mem ∧ u.platform = s.platform ∧
      u.hosts = s.hosts := by
  cases a with
  | writeCmd k w =>
    have hk : k < s.instances := of_decide_eq_true hw
    have hnone : ((s.select k).storeCmd w).fault = none := by simp [hf]
    rcases commandWrite_next hnext with ⟨i, -, hexec⟩ | ⟨-, rfl⟩
    · obtain ⟨r, -, rfl⟩ := exec_fault_ne hexec (by rwa [hnone])
      exact ⟨⟨r, rfl⟩, blocks_storeCmd hk w, s.select_mem k, s.select_platform k, s.select_hosts k⟩
    · exact absurd hnone hfault
  | writeReg k off x =>
    rcases writeRegister_next hnext with hbad | ⟨r, -, rfl⟩
    · exact faulted_select hf hbad
    · exact absurd ((s.select_fault k).trans hf) hfault
  | readReg k off =>
    rcases perform_readReg_next hnext with hbad | ⟨x, rfl⟩
    · exact faulted_select hf hbad
    · exact absurd ((s.select_fault k).trans hf) hfault
  | writeMem a bs =>
    obtain ⟨-, rfl⟩ := perform_writeMem_next hnext
    exact absurd hf hfault
  | readMem a n =>
    obtain rfl := perform_readMem_next hnext
    exact absurd hf hfault

/-- Settles O54. -/
theorem modelFaultEffect : Obligations.ModelFaultEffect := by
  refine ⟨fun i s t => exec_fault_ne, fun s t hstep hfault => ?_⟩
  obtain ⟨hf, ⟨-, rfl⟩ | ⟨h, a, u, hn, hw, hperform, rfl⟩⟩ := step_next hstep
  · exact absurd hf hfault
  · obtain ⟨⟨r, hr⟩, hblocks, hmem, hplatform, hhosts⟩ := perform_faulted hf hw hperform hfault
    refine ⟨h, a, r, hn, hr, ?_, hmem, hplatform, fun j => ?_, ?_, ?_⟩
    · cases a with
      | writeCmd k w | writeReg k off x | readReg k off | writeMem a bs | readMem a n => exact hblocks
    · rw [State.observed_advance, hhosts]
    · simp [State.ended, hr]
    · simp only [step, stepWith, State.advance_fault, hr]

/-! ### The invariant -/

/-- The invariant speaks of the blocks, memory and the parameters only. -/
theorem State.Inv.congr (hs : s.Inv) (hblocks : t.blocks = s.blocks) (hmem : t.mem = s.mem)
    (hplatform : t.platform = s.platform) : t.Inv where
  memory := hmem ▸ hs.memory
  addresses := by rw [State.memBacked, hmem, hplatform]; exact hs.addresses
  statuses := by rw [State.statusesLegal, hblocks]; exact hs.statuses
  strategies := by rw [State.strategiesLatched, hblocks, hplatform]; exact hs.strategies
  instances := by
    rw [State.instancesMatch, ← State.length_blocks, hblocks, State.length_blocks, hplatform]
    exact hs.instances

theorem State.Inv.select (hs : s.Inv) (k : Nat) : (s.select k).Inv :=
  hs.congr (s.select_blocks k) (s.select_mem k) (s.select_platform k)

theorem State.blk_mem_blocks (s : State) : s.blk ∈ s.blocks := by simp [State.blocks]

theorem State.Inv.status (hs : s.Inv) : statusLegal s.blk.status = true :=
  List.all_eq_true.mp hs.statuses _ s.blk_mem_blocks

theorem State.Inv.strategy (hs : s.Inv) : (s.blk.strategy == capsValue s.platform) = true :=
  List.all_eq_true.mp hs.strategies _ s.blk_mem_blocks

theorem State.Inv.backed (hs : s.Inv) : ∀ c ∈ s.mem, backed s.platform c.1 = true := List.all_eq_true.mp hs.addresses

/-- A check of all blocks stands when the selected one alone changes and passes it. -/
theorem all_blocks_of_selected {p : Block → Bool} (hall : s.blocks.all p = true) (hbelow : t.below = s.below)
    (habove : t.above = s.above) (hblk : p t.blk = true) : t.blocks.all p = true := by
  simp only [State.blocks, List.all_append, List.all_cons, Bool.and_eq_true] at hall ⊢
  obtain ⟨hlo, -, hhi⟩ := hall
  rw [hbelow, habove]
  exact ⟨hlo, hblk, hhi⟩

/-- A change of the selected block and of memory keeps the invariant when STATUS stays legal, STRATEGY stays as latched, and memory
stays in canonical form and at Backed addresses. -/
theorem State.Inv.update (hs : s.Inv) (hkept : RestKept s t) (hstatus : statusLegal t.blk.status = true)
    (hwf : t.mem.wf = true) (hmem : ∀ c ∈ t.mem, Machine.backed s.platform c.1 = true) : t.Inv where
  memory := hwf
  addresses := by rw [State.memBacked, hkept.platform]; exact List.all_eq_true.mpr hmem
  statuses := all_blocks_of_selected hs.statuses hkept.below hkept.above hstatus
  strategies := by
    rw [State.strategiesLatched, hkept.platform]
    refine all_blocks_of_selected hs.strategies hkept.below hkept.above ?_
    rw [hkept.strategy]
    exact hs.strategy
  instances := by
    rw [State.instancesMatch, State.instances, hkept.below, hkept.above, hkept.platform]
    exact hs.instances

/-- A reported error has a code that STATUS takes (60_exceptions.md R701). -/
theorem statusLegal_of_reportable {i : Instr} {e : Status} (he : reportable i s e) : statusLegal e.code = true := by
  cases e with
  | capabilityMismatch => exact he.elim
  | ok | bufferTooSmall | truncatedInput | overflow | invalidCommand => rfl

/-- A command leaves a legal STATUS. -/
theorem exec_statusLegal {i : Instr} (hs : statusLegal s.blk.status = true) (hnext : exec i s = .next t) :
    statusLegal t.blk.status = true := by
  rcases exec_next hnext with ⟨r, rfl⟩ | ⟨-, -, ⟨e, he, rfl⟩ | ⟨-, rfl⟩⟩
  · exact hs
  · exact statusLegal_of_reportable ((mem_errorSet i s e).mp he)
  · rfl

/-- A command stores at Backed addresses: its output regions are checked before anything is stored (20_memory.md R206). -/
theorem exec_memBacked {i : Instr} (hs : ∀ c ∈ s.mem, backed s.platform c.1 = true) (hnext : exec i s = .next t) :
    ∀ c ∈ t.mem, backed s.platform c.1 = true := by
  intro c hc
  rcases exec_next hnext with ⟨r, rfl⟩ | ⟨hready, -, -⟩
  · exact hs c hc
  · rcases (exec_changesWithin hnext).cells c hc with ⟨w, hw, -, hlo, hhi⟩ | hold
    · exact hready.backedAll w hw _ hlo hhi
    · exact hs c hold

theorem exec_inv {i : Instr} (hs : s.Inv) (hnext : exec i s = .next t) : t.Inv :=
  hs.update (exec_restKept hnext) (exec_statusLegal hs.status hnext) ((exec_changesWithin hnext).wf hs.memory)
    (exec_memBacked hs.backed hnext)

theorem storeCmd_inv (hs : s.Inv) (w : CmdWord) : (s.storeCmd w).Inv where
  memory := hs.memory
  addresses := hs.addresses
  statuses := all_blocks_of_selected hs.statuses (by rfl) (by rfl) hs.status
  strategies := all_blocks_of_selected hs.strategies (by rfl) (by rfl) hs.strategy
  instances := hs.instances

theorem commandWrite_inv {w : CmdWord} (hs : s.Inv) (hnext : commandWrite exec s w = .next t) : t.Inv := by
  rcases commandWrite_next hnext with ⟨i, -, hexec⟩ | ⟨-, rfl⟩
  · exact exec_inv (storeCmd_inv hs w) hexec
  · exact (storeCmd_inv hs w).update (restKept_raise _ _ _) rfl hs.memory hs.backed

theorem writeRegister_inv {off : Nat} {x : Word} (hs : s.Inv) (hnext : writeRegister s off x = .next t) : t.Inv := by
  rcases writeRegister_next hnext with ⟨r, rfl⟩ | ⟨r, -, rfl⟩
  · exact hs.congr rfl rfl rfl
  · exact {
      memory := hs.memory
      addresses := hs.addresses
      statuses := all_blocks_of_selected hs.statuses (by rfl) (by rfl) (by rw [Block.status_writeArg]; exact hs.status)
      strategies := all_blocks_of_selected hs.strategies (by rfl) (by rfl) (by rw [Block.strategy_writeArg]; exact hs.strategy)
      instances := hs.instances }

/-- Every action keeps the invariant and the parameters. -/
theorem perform_inv {a : HostAction} (hs : s.Inv) (hnext : perform exec h s a = .next u) :
    u.Inv ∧ u.platform = s.platform := by
  cases a with
  | writeCmd k w =>
    exact ⟨commandWrite_inv (hs.select k) hnext, (commandWrite_restKept hnext).platform.trans (s.select_platform k)⟩
  | writeReg k off x =>
    refine ⟨writeRegister_inv (hs.select k) hnext, ?_⟩
    rcases writeRegister_next hnext with ⟨r, rfl⟩ | ⟨r, -, rfl⟩
    · exact s.select_platform k
    · exact s.select_platform k
  | readReg k off =>
    rcases perform_readReg_next hnext with ⟨r, rfl⟩ | ⟨x, rfl⟩
    · exact ⟨(hs.select k).congr rfl rfl rfl, s.select_platform k⟩
    · exact ⟨(hs.select k).congr rfl rfl rfl, s.select_platform k⟩
  | writeMem a bs =>
    obtain ⟨hin, rfl⟩ := perform_writeMem_next hnext
    refine ⟨hs.update ⟨fun _ => rfl, rfl, rfl, rfl, rfl, rfl, rfl, rfl⟩ hs.status (Memory.wf_writeBytes _ _ _ hs.memory)
      fun c hc => ?_, rfl⟩
    rcases Memory.mem_writeBytes _ _ _ _ hc with ⟨hlo, hhi⟩ | hold
    · have hback := hin (c.1 - a.toNat) (by omega)
      rwa [Nat.add_sub_cancel' hlo] at hback
    · exact hs.backed c hold
  | readMem a n =>
    obtain rfl := perform_readMem_next hnext
    exact ⟨hs.congr rfl rfl rfl, rfl⟩

/-- Settles O60: a turn without an action changes no register and no memory, every action keeps the invariant, and the host's move
changes nothing the invariant speaks of. -/
theorem stepKeepsInvariant : Obligations.StepKeepsInvariant := by
  intro s t hs hstep
  obtain ⟨-, ⟨-, rfl⟩ | ⟨h, a, u, -, -, hperform, rfl⟩⟩ := step_next hstep
  · exact ⟨hs.congr rfl rfl rfl, rfl⟩
  · obtain ⟨hu, hplatform⟩ := perform_inv hs hperform
    exact ⟨hu.congr rfl rfl rfl, hplatform⟩

end

/-! ### Reset -/

section
variable (P : Platform) (mem : Memory) (programs : List (List HostAction)) (turns : List Nat)

/-- Every register block is the one reset leaves (70_reset_and_hazards.md R800). -/
theorem eq_reset_of_mem_launch {b : Block} (hb : b ∈ (State.launch P mem programs turns).blocks) :
    b = Block.reset P.vecCap := by
  rcases List.mem_cons.mp hb with rfl | hb
  · rfl
  · obtain ⟨base, -, rfl⟩ := List.mem_map.mp hb
    rfl

theorem launch_instances : (State.launch P mem programs turns).instances = P.moreBases.length + 1 := by
  simp [State.instances, State.launch]

theorem launch_inv (hwf : mem.wf = true) (hmem : ∀ c ∈ mem, backed P c.1 = true) :
    (State.launch P mem programs turns).Inv where
  memory := hwf
  addresses := List.all_eq_true.mpr hmem
  statuses := List.all_eq_true.mpr fun b hb => by rw [eq_reset_of_mem_launch P mem programs turns hb]; rfl
  strategies := List.all_eq_true.mpr fun b hb => by
    rw [eq_reset_of_mem_launch P mem programs turns hb]
    exact beq_self_eq_true (capsValue P)
  instances := beq_iff_eq.mpr (launch_instances P mem programs turns)

end

/-- Settles O58. -/
theorem resetValues : Obligations.ResetValues := by
  refine ⟨fun P mem programs turns => ⟨fun b hb => ?_, capsValue_eq P, rfl, rfl, launch_instances P mem programs turns⟩, rfl⟩
  obtain rfl := eq_reset_of_mem_launch P mem programs turns hb
  exact ⟨rfl, rfl, capsValue_eq P, fun r => by cases r <;> rfl, fun r => by cases r <;> rfl⟩

/-- Settles O59: `State.reset` is the launch with no memory cell. -/
theorem resetKeepsInvariant : Obligations.ResetKeepsInvariant :=
  ⟨launch_inv, launch_inv Config.platform [] [] [] rfl fun _ hc => absurd hc List.not_mem_nil⟩

end Sys2Proof.Machine
end

section
/-! SUPPORT. The family of the stream functions: the descriptor ROMs (43_vector_decoder.md section 1), the least lengths of an
encoded stream (41_encoder.md), what a decode reads and where it resumes (42_scalar_decoder.md; 45_delta.md section 3), and
differences (45_delta.md section 1). -/

namespace Sys2Proof.Machine

/-! ### The descriptor ROMs -/

theorem elemBytes_pos (v : Variant) : 0 < elemBytes v := by cases v <;> decide

/-- Only V0124 has an empty length (00_scope.md R2). -/
theorem one_le_tagLen {v : Variant} (hv : v ≠ .v0124) (t : Tag) : 1 ≤ tagLen v t := by
  revert t
  cases v with
  | v0124 => exact absurd rfl hv
  | v1234 | v1248 => decide

theorem laneOff_succ (v : Variant) (c : Byte) (i : Nat) : laneOff v c (i + 1) = laneOff v c i + laneLen v c i := by
  simp [laneOff, List.range_succ]

theorem laneOff_four (v : Variant) (c : Byte) : laneOff v c 4 = lsum v c := by
  simp only [laneOff_succ, lsum]
  simp [laneOff]

/-- The bytes of a lane end within those of the group (R551, R552). -/
theorem laneOff_add_laneLen_le (v : Variant) (c : Byte) {i : Nat} (hi : i < 4) : laneOff v c i + laneLen v c i ≤ lsum v c := by
  have hmono : Monotone (laneOff v c) := monotone_nat_of_le_succ fun j => by
    rw [laneOff_succ]
    exact Nat.le_add_right _ _
  rw [← laneOff_succ, ← laneOff_four]
  exact hmono (Nat.succ_le_of_lt hi)

/-- An entry that is an index below a bound, cut to a byte, stays below it. -/
theorem toNat_ofNat_lt {x b : Nat} (h : x < b) : (BitVec.ofNat 8 x).toNat < b := by
  rw [BitVec.toNat_ofNat]
  exact (Nat.mod_le x _).trans_lt h

/-- An entry of SHUF is 0xFF or the index of a byte of the group (R555). -/
theorem shuf_entry {v : Variant} {c e : Byte} (he : e ∈ shuf v c) : e = zeroFill ∨ e.toNat < lsum v c := by
  obtain ⟨p, hp, rfl⟩ := List.mem_map.mp he
  have hi : p / elemBytes v < 4 := (Nat.div_lt_iff_lt_mul (elemBytes_pos v)).mpr (List.mem_range.mp hp)
  have hend := laneOff_add_laneLen_le v c hi
  dsimp only
  split
  · exact .inr (toNat_ofNat_lt (by omega))
  · exact .inl rfl

/-- An entry of SHUF2 is 0xFF or the index of a byte of the half group (R555). -/
theorem shuf2_entry {h : BitVec 4} {e : Byte} (he : e ∈ shuf2 h) : e = zeroFill ∨ e.toNat < lsum2 h := by
  obtain ⟨p, -, rfl⟩ := List.mem_map.mp he
  split
  · exact .inr (toNat_ofNat_lt (by rw [lsum2]; omega))
  · split
    · exact .inr (toNat_ofNat_lt (by rw [lsum2]; omega))
    · exact .inl rfl

/-- No group has more bytes than the window (R552). -/
theorem lsum_le (v : Variant) (c : Byte) : lsum v c ≤ windowBytes v := by
  have hlane (i : Nat) : laneLen v c i ≤ elemBytes v := tagLen_le v _
  have h0 := hlane 0
  have h1 := hlane 1
  have h2 := hlane 2
  have h3 := hlane 3
  rw [lsum, windowBytes]
  omega

/-- A group of a variant without an empty length has at least a byte a lane (R552). -/
theorem four_le_lsum {v : Variant} (hv : v ≠ .v0124) (c : Byte) : 4 ≤ lsum v c := by
  have hlane (i : Nat) : 1 ≤ laneLen v c i := one_le_tagLen hv _
  have h0 := hlane 0
  have h1 := hlane 1
  have h2 := hlane 2
  have h3 := hlane 3
  rw [lsum]
  omega

theorem lsum2_bounds (h : BitVec 4) : 2 ≤ lsum2 h ∧ lsum2 h ≤ 16 := by
  have hlo (t : Tag) : 1 ≤ tagLen .v1248 t := one_le_tagLen (by decide) t
  have hhi (t : Tag) : tagLen .v1248 t ≤ 8 := tagLen_le .v1248 t
  have hloA := hlo (halfTagA h)
  have hloB := hlo (halfTagB h)
  have hhiA := hhi (halfTagA h)
  have hhiB := hhi (halfTagB h)
  rw [lsum2]
  omega

/-- The bytes of a group are those of its two halves (R554). -/
theorem lsum_eq_halves (c : Byte) : lsum .v1248 c = lsum2 (c.extractLsb' 0 4) + lsum2 (c.extractLsb' 4 4) := by
  rw [lsum_eq_sum_unpack, ← halves_eq_unpack, List.map_append, List.sum_append]
  simp [lsum2]

/-! ### Least lengths -/

/-- A larger tag has no smaller length (R2). -/
theorem tagLen_mono (v : Variant) {t t' : Tag} (h : t.toNat ≤ t'.toNat) : tagLen v t ≤ tagLen v t' := by
  revert t t'
  cases v <;> decide

/-- A length of the table is the length of a tag (R120). -/
theorem exists_tagLen {v : Variant} {l : Nat} (h : l ∈ lens v) : ∃ t : Tag, tagLen v t = l := by
  obtain ⟨j, hj, rfl⟩ := List.mem_iff_getElem.mp h
  have hj4 : j < 4 := length_lens v ▸ hj
  refine ⟨BitVec.ofNat 2 j, ?_⟩
  rw [tagLen, BitVec.toNat_ofNat, Nat.mod_eq_of_lt hj4, List.getD_eq_getElem _ _ hj]

/-- The tag of an element names the least length that holds it (40_tagtable.md R402). -/
theorem tagLen_tagOf_le {v : Variant} {x l : Nat} (hl : l ∈ lens v) (hx : x < 2 ^ (8 * l)) :
    tagLen v (tagOf v x) ≤ l := by
  obtain ⟨t, rfl⟩ := exists_tagLen hl
  exact tagLen_mono v (tagOf_le_of_minimalBytes_le ((minimalBytes_le_iff x _).mpr hx))

/-! ### What a decode reads -/

theorem scalarLanes_congr {v : Variant} {D D' : Nat → Byte} (ts : List Tag) {cur : Nat}
    (h : ∀ k, k < (ts.map (tagLen v)).sum → D (cur + k) = D' (cur + k)) : scalarLanes v D ts cur = scalarLanes v D' ts cur := by
  induction ts generalizing cur with
  | nil => rfl
  | cons t ts ih =>
    rw [List.map_cons, List.sum_cons] at h
    have hhere : laneValue D cur (tagLen v t) = laneValue D' cur (tagLen v t) :=
      congrArg leNat (List.map_congr_left fun k hk => h k (by have := List.mem_range.mp hk; omega))
    have hrest : scalarLanes v D ts (cur + tagLen v t) = scalarLanes v D' ts (cur + tagLen v t) :=
      ih fun k hk => by simpa only [Nat.add_assoc] using h (tagLen v t + k) (by omega)
    simp only [scalarLanes, hhere, hrest]

/-- Lane steps over data bytes moved down by `off` are those from a cursor `off` further on. -/
theorem scalarLanes_shift (v : Variant) (D : Nat → Byte) (off : Nat) (ts : List Tag) (cur : Nat) :
    scalarLanes v D ts (off + cur) =
      ((scalarLanes v (fun j => D (off + j)) ts cur).1, off + (scalarLanes v (fun j => D (off + j)) ts cur).2) := by
  induction ts generalizing cur with
  | nil => rfl
  | cons t ts ih => simp only [scalarLanes, laneValue, Nat.add_assoc, ih]

theorem segLen_eq_sum (v : Variant) (n : Nat) (C : Nat → Byte) :
    segLen v n C = (((List.range n).map (elemTag C)).map (tagLen v)).sum := by
  rw [List.map_map]
  rfl

/-- Value j of a decode is the bytes its tag counts, from the sum of the lengths before it on (30_encoding.md R323). -/
theorem decodeStream_getElem? (v : Variant) {n j : Nat} (C D : Nat → Byte) (hj : j < n) :
    (decodeStream v n C D).1[j]? = some (laneValue D (segLen v j C) (tagLen v (elemTag C j))) := by
  obtain ⟨-, -, hval⟩ := scalarLanes_spec v D ((List.range n).map (elemTag C)) 0
  rw [decodeStream_eq_scalarLanes, hval j (by simpa using hj), ← List.map_take, List.take_range, Nat.min_eq_left hj.le,
    ← segLen_eq_sum, Nat.zero_add]
  simp [hj]

/-- The tags of the stream that begins m control bytes further on (30_encoding.md R321). -/
theorem elemTag_shift (C : Nat → Byte) (m j : Nat) : elemTag (fun g => C (m + g)) j = elemTag C (4 * m + j) := by
  rw [elemTag, elemTag, Nat.mul_add_div (by decide), Nat.mul_add_mod]

/-- A decode is that of its first m groups and then that of the rest (45_delta.md section 3). -/
theorem decodeStream_split (v : Variant) {n m : Nat} (C D : Nat → Byte) (h : 4 * m ≤ n) :
    let rest := decodeStream v (n - 4 * m) (fun g => C (m + g)) fun j => D (segLen v (4 * m) C + j)
    decodeStream v n C D = ((decodeStream v (4 * m) C D).1 ++ rest.1, segLen v (4 * m) C + rest.2) := by
  intro rest
  obtain ⟨k, rfl⟩ := Nat.exists_eq_add_of_le h
  have hrest : rest = scalarLanes v (fun j => D (segLen v (4 * m) C + j))
      ((List.range k).map fun j => elemTag C (4 * m + j)) 0 := by
    simp only [rest, decodeStream_eq_scalarLanes, Nat.add_sub_cancel_left, funext (elemTag_shift C m)]
  have hcur : (scalarLanes v D ((List.range (4 * m)).map (elemTag C)) 0).2 = segLen v (4 * m) C := by
    rw [← decodeStream_eq_scalarLanes, decodeStream_snd]
  have hshift := scalarLanes_shift v D (segLen v (4 * m) C) ((List.range k).map fun j => elemTag C (4 * m + j)) 0
  rw [Nat.add_zero, ← hrest] at hshift
  rw [decodeStream_eq_scalarLanes, decodeStream_eq_scalarLanes, List.range_add, List.map_append, scalarLanes_append, hcur,
    List.map_map, Function.comp_def, hshift]

/-- Each difference is that of neighbours (45_delta.md R604). -/
theorem deltas_getElem? (s : Nat) (xs : List Nat) (j : Nat) (h : j < xs.length) :
    (deltas s xs)[j]? = some (xs[j] - (s :: xs).getD j 0) := by
  induction xs generalizing s j with
  | nil => simp at h
  | cons x xs ih =>
    cases j with
    | zero => rfl
    | succ j => exact ih x j (Nat.lt_of_succ_lt_succ h)

/-! ### The statements -/

/-- Settles O23. -/
theorem shuffleTablesAreSound : Obligations.ShuffleTablesAreSound :=
  ⟨fun v c => ⟨by simp [shuf], fun _ => shuf_entry, lsum_le v c⟩, fun h => ⟨by simp [shuf2], fun _ => shuf2_entry, lsum2_bounds h⟩,
    fun c => ⟨four_le_lsum (by decide) c, four_le_lsum (by decide) c⟩, lsum_eq_halves⟩

/-- Settles O25: the two procedures agree group by group. -/
theorem vectorEqualsScalarProcedure : Obligations.VectorEqualsScalarProcedure := fun v gran n C D dataLen =>
  vectorGroups_eq_decodeGroups v gran n C D dataLen (List.range (groupCount n)) 0

/-- Settles O28. -/
theorem encoderIsMinimal : Obligations.EncoderIsMinimal := by
  refine ⟨fun v xs hxs j hj => ?_, fun v xs j hlo hhi => ?_⟩
  · have htag : elemTag (fun g => (encodeStream v xs).1.getD g 0) j = tagOf v xs[j] := by
      rw [elemTag_encodeStream v xs j (by omega), List.getElem?_eq_getElem hj]
    simp only [htag]
    exact ⟨(minimalBytes_le_iff _ _).mp (minimalBytes_le_tagLen_tagOf (hxs _ (List.getElem_mem hj))),
      fun _ hl hx => tagLen_tagOf_le hl hx⟩
  · rw [elemTag_encodeStream v xs j hhi, List.getElem?_eq_none hlo]

/-- Settles O30. -/
theorem elementsAreSegmentedByTags : Obligations.ElementsAreSegmentedByTags := fun v n C D =>
  ⟨length_decodeStream v n C D, decodeStream_snd v n C D, fun _ hj => decodeStream_getElem? v C D hj⟩

/-- Settles O31: a decode reads the tags of its elements and the SegLen data bytes, and nothing else. -/
theorem unusedLanesAndSurplusAreIgnored : Obligations.UnusedLanesAndSurplusAreIgnored := by
  intro v n C C' D D' htags hdata
  have hsame : (List.range n).map (elemTag C) = (List.range n).map (elemTag C') :=
    List.map_congr_left fun j hj => htags j (List.mem_range.mp hj)
  refine ⟨?_, ?_⟩
  · rw [decodeStream_eq_scalarLanes, decodeStream_eq_scalarLanes, ← hsame]
    refine scalarLanes_congr _ fun k hk => ?_
    rw [Nat.zero_add]
    exact hdata k (by rwa [segLen_eq_sum])
  · rw [dataLenFn_eq_segLen, dataLenFn_eq_segLen, segLen_eq_sum, segLen_eq_sum, hsame]

/-- Settles O32. -/
theorem lengthScanEqualsSegLen : Obligations.LengthScanEqualsSegLen := dataLenFn_eq_segLen

/-- Settles O33. -/
theorem prefixSumInvertsDeltas : Obligations.PrefixSumInvertsDeltas := fun _ s xs hmono hxs =>
  ⟨prefixSum_deltas hmono, deltas_lt hxs, deltas_getElem? s xs⟩

/-- Settles O34: the running sums of the two parts are those of the whole, the second from the sum of the first on. -/
theorem resumeAtGroupBoundary : Obligations.ResumeAtGroupBoundary := by
  intro v n m s C D h skipped rest
  have hsplit : decodeStream v n C D = (skipped ++ rest.1, segLen v (4 * m) C + rest.2) := decodeStream_split v C D h
  refine ⟨hsplit, ?_⟩
  rw [hsplit, prefixSum_append, List.drop_left' (by rw [length_prefixSum, length_decodeStream])]

end Sys2Proof.Machine
end

section
/-! SUPPORT. The family of the commands over memory (41_encoder.md, 42_scalar_decoder.md, 43_vector_decoder.md section 4,
45_delta.md): the whole next state of each, what it stores, and the round trip through memory. -/

namespace Sys2Proof.Machine

/-! ### Completion -/

/-- A command that completes ends with STATUS = OK where FAULT was none. -/
theorem endsOk_completed {i : Instr} {s : State} (h : Ready i s) (hkept : ¬contractBroken i s) (hE : errorSet i s = [])
    (hfault : s.fault = none) : EndsOk i s (completed i s) := ⟨exec_of_errorSet_nil h hkept hE, hfault, rfl⟩

/-- The whole next state of a delta command that completes: its three results, STATUS and memory change, and nothing else. -/
theorem State.complete_deltas (s : State) (c d x : Nat) (m : Memory) :
    s.complete [(.resCtrl, c), (.resData, d), (.resVal, x)] m =
      { s with
        mem := m
        blk := { s.blk with
          resCtrl := ⟨BitVec.ofNat 64 c, true⟩, resData := ⟨BitVec.ofNat 64 d, true⟩, resVal := ⟨BitVec.ofNat 64 x, true⟩
          status := 0 } } := by
  simp only [State.complete, Block.writeResults, Block.writeRes, Block.setStatus, Reg64.written]
  rfl

/-- SKIP_DELTAS writes the same results in another order. -/
theorem State.complete_skip (s : State) (c d x : Nat) (m : Memory) :
    s.complete [(.resVal, x), (.resData, d), (.resCtrl, c)] m =
      s.complete [(.resCtrl, c), (.resData, d), (.resVal, x)] m := by
  simp only [State.complete, Block.writeResults, Block.writeRes]

section
variable {v : Variant} {s : State}

/-- A decode that finds its stream there and its output large enough has no error to report (42_scalar_decoder.md R502). -/
theorem decodeErrors_of_fits (hval : s.argVal .n ≤ s.argVal .valLen) (hctrl : groupCount (s.argVal .n) ≤ s.argVal .ctrlLen)
    (hdata : segLen v (s.argVal .n) (ctrlByte s) ≤ s.argVal .dataLen) {E : List Status} (hE : E = []) :
    decodeErrors v s (s.argVal .n) E = [] :=
  (decodeErrors_eq_nil _ _ _ _).mpr ⟨hval, truncated_eq_false.mpr ⟨hctrl, hdata⟩, hE⟩

/-- A seed that fits is no Overflow (45_delta.md R600). -/
theorem overflow_of_fits (hseed : s.argVal .seed < 2 ^ elemBits v) : errIf (tooWide v (s.argVal .seed)) .overflow [] = [] :=
  (errIf_eq_nil _ _ _).mpr ⟨(tooWide_eq_false _ _).mpr hseed, rfl⟩

/-- The differences of a stream that is all there are those of all its elements (45_delta.md R602). -/
theorem skippedDeltas_of_there (h : truncated v s (s.argVal .n) = false) :
    skippedDeltas v s = (decodeStream v (s.argVal .n) (ctrlByte s) (dataByte s)).1 := by
  rw [skippedDeltas, decodablePrefix_eq h]

/-- When the final sum fits, so does every running sum of every decodable run (45_delta.md R605). -/
theorem deltas_contract_kept
    (hsum : s.argVal .seed + (decodeStream v (s.argVal .n) (ctrlByte s) (dataByte s)).1.sum < 2 ^ elemBits v) :
    ¬contractBroken (.decodeDeltas v) s := by
  rintro ⟨-, k, j, hk, -, -, -, hover⟩
  rw [decodeStream_take v _ _ hk] at hover
  have hle : (((decodeStream v (s.argVal .n) (ctrlByte s) (dataByte s)).1.take k).take j).sum ≤
      (decodeStream v (s.argVal .n) (ctrlByte s) (dataByte s)).1.sum :=
    ((List.take_sublist j _).trans (List.take_sublist k _)).sum_le_sum fun _ _ => Nat.zero_le _
  omega

end

/-! ### What the encoders store -/

/-- The sequence an encoder encodes: the values of ENCODE, the differences of ENCODE_DELTAS. -/
def IsEncoderOf (v : Variant) (s : State) (i : Instr) (xs : List Nat) : Prop :=
  (i = .encode v ∧ xs = valElems v s (s.argVal .n)) ∨
    (i = .encodeDeltas v ∧ xs = deltas (s.argVal .seed) (valElems v s (s.argVal .n)))

section
variable {v : Variant} {i : Instr} {s t : State} {xs : List Nat}

/-- An encoder that ends with STATUS = OK stores the stream of its sequence, which its regions are large enough for. -/
theorem EndsOk.encoder (h : EndsOk i s t) (hi : IsEncoderOf v s i xs) :
    regionFaults (encodeUses v s) = [] ∧ (encodeStream v xs).1.length ≤ s.argVal .ctrlLen ∧
      (encodeStream v xs).2.length ≤ s.argVal .dataLen ∧ t.mem = writeStream s (encodeStream v xs) := by
  obtain ⟨hready, -, hE, rfl⟩ := h.completed
  rcases hi with ⟨rfl, rfl⟩ | ⟨rfl, rfl⟩
  · obtain ⟨hval, hctrl, hdata, -⟩ := (encodeErrors_eq_nil _ _ _ _ _).mp hE
    rw [← encodedStream_eq hval]
    exact ⟨hready.regions, (length_encodedStream_ctrl hval).trans_le hctrl, hdata (decide_eq_true hval), rfl⟩
  · obtain ⟨hval, hctrl, hdata, hwide⟩ := (encodeErrors_eq_nil _ _ _ _ _).mp hE
    obtain ⟨hseed, -⟩ := (errIf_eq_nil _ _ _).mp hwide
    rw [← deltaStream_eq hval]
    exact ⟨hready.regions, (length_deltaStream_ctrl hval).trans_le hctrl, hdata (by simp [hseed, hval]), rfl⟩

/-- The stream an encoder wrote stands in the regions of every state that has its memory and its region registers. -/
theorem EndsOk.streamInPlace (h : EndsOk i s t) (hi : IsEncoderOf v s i xs) (hwf : s.mem.wf = true) {u : State}
    (hmem : u.mem = t.mem) (hargs : ∀ r ∈ ctrlArgs ++ dataArgs, u.argVal r = s.argVal r) :
    StreamInPlace (encodeStream v xs) u := by
  obtain ⟨hregions, hctrl, hdata, hstored⟩ := h.encoder hi
  exact streamInPlace_writeStream hwf hregions hctrl hdata (hmem.trans hstored) hargs

theorem EndsOk.argVal (h : EndsOk i s t) (r : ArgReg) : t.argVal r = s.argVal r :=
  congrArg (fun x : Reg64 => x.val.toNat) ((exec_restKept h.1).arg r)

/-- A byte of a range that reads as a sequence. -/
theorem Memory.read_of_bytes_eq {m : Memory} {a : Nat} {bs : List Byte} (h : m.bytes a bs.length = bs) {j : Nat}
    (hj : j < bs.length) : m.read (a + j) = bs.getD j 0 := by
  conv_rhs => rw [← h]
  simp [Memory.bytes, hj]

/-- The results of an ENCODE that ends with STATUS = OK (41_encoder.md R451). -/
theorem EndsOk.encode_results (h : EndsOk (.encode v) s t) :
    t.blk.resCtrl = .written (BitVec.ofNat 64 (groupCount (s.argVal .n))) ∧
      t.blk.resData = .written (BitVec.ofNat 64 (encodeStream v (valElems v s (s.argVal .n))).2.length) := by
  obtain ⟨-, -, hE, rfl⟩ := h.completed
  obtain ⟨hval, -⟩ := (encodeErrors_eq_nil _ _ _ _ _).mp hE
  rw [← encodedStream_eq hval, ← length_encodedStream_ctrl hval]
  exact ⟨rfl, rfl⟩

/-! ### What the decoders store -/

/-- The three decode commands have no contract, one error set and one completion (43_vector_decoder.md R563). -/
theorem decode_parts (hi : i ∈ [.decodeScalar v, .decode v, .decodeVector v]) (s : State) :
    ¬contractBroken i s ∧ errorSet i s = decodeErrors v s (s.argVal .n) [] ∧ completed i s = completed (.decode v) s := by
  simp only [List.mem_cons, List.not_mem_nil, or_false] at hi
  obtain rfl | rfl | rfl := hi
  · exact ⟨id, rfl, rfl⟩
  · exact ⟨id, rfl, rfl⟩
  · exact ⟨id, rfl, rfl⟩

/-- A decoded value is below 2^W: no length of the table is above the element width (R501). -/
theorem decodeStream_lt {v : Variant} {n : Nat} {C D : Nat → Byte} {x : Nat} (hx : x ∈ (decodeStream v n C D).1) :
    x < 2 ^ elemBits v := by
  obtain ⟨j, hj, rfl⟩ := List.mem_iff_getElem.mp hx
  have hval := decodeStream_getElem? v C D (n := n) (j := j) (by simpa using hj)
  rw [List.getElem?_eq_getElem hj] at hval
  rw [Option.some_injective _ hval]
  calc laneValue D (segLen v j C) (tagLen v (elemTag C j))
      < 2 ^ (8 * tagLen v (elemTag C j)) := by
        simpa [laneValue] using leNat_lt ((List.range (tagLen v (elemTag C j))).map fun k => D (segLen v j C + k))
    _ ≤ 2 ^ elemBits v := Nat.pow_le_pow_right (by decide) (Nat.mul_le_mul_left 8 (tagLen_le v _))

/-- The sequence a decode command stores: the decoded values, or their running sums. -/
def IsDecoderOf (v : Variant) (s : State) (i : Instr) (xs : List Nat) : Prop :=
  (i ∈ [.decodeScalar v, .decode v, .decodeVector v] ∧ xs = (decodeStream v (s.argVal .n) (ctrlByte s) (dataByte s)).1) ∨
    (i = .decodeDeltas v ∧
      xs = prefixSum (s.argVal .seed) (decodeStream v (s.argVal .n) (ctrlByte s) (dataByte s)).1)

/-- A decode command that ends with STATUS = OK stores n values, each of which fits. -/
theorem EndsOk.decoder (h : EndsOk i s t) (hi : IsDecoderOf v s i xs) :
    xs.length = s.argVal .n ∧ (∀ x ∈ xs, x < 2 ^ elemBits v) ∧ t.mem = writeVals v s xs := by
  obtain ⟨-, hkept, hE, rfl⟩ := h.completed
  rcases hi with ⟨hi, rfl⟩ | ⟨rfl, rfl⟩
  · obtain ⟨-, -, hform⟩ := decode_parts hi s
    rw [hform]
    exact ⟨length_decodeStream _ _ _ _, fun _ => decodeStream_lt, rfl⟩
  · obtain ⟨-, hthere, hwide⟩ := (decodeErrors_eq_nil _ _ _ _).mp hE
    obtain ⟨hseed, -⟩ := (errIf_eq_nil _ _ _).mp hwide
    have hsums := breaksContract_eq_false.mpr hkept
    rw [breaksContract, hseed, Bool.not_false, Bool.true_and, prefixOverflow_eq_false] at hsums
    rw [← skippedDeltas_of_there hthere]
    refine ⟨?_, hsums, rfl⟩
    rw [length_prefixSum, length_skippedDeltas, decodablePrefix_eq hthere]

end

/-! ### The statements -/

/-- Settles O35. -/
theorem encodeCompletes : Obligations.EncodeCompletes := by
  intro v s hready n CD hval hctrl hdata
  have hCD : encodedStream v s = CD := encodedStream_eq hval
  have hE : errorSet (.encode v) s = [] :=
    (encodeErrors_eq_nil _ _ _ _ _).mpr ⟨hval, hctrl, fun _ => hCD ▸ hdata, rfl⟩
  rw [exec_of_errorSet_nil hready id hE, completed, resultValues, storedMemory, length_encodedStream_ctrl hval, hCD]
  rfl

/-- Settles O36: the stream stands in its regions, and each store leaves every address outside it alone. -/
theorem encodersStoreExactlyTheStream : Obligations.EncodersStoreExactlyTheStream := by
  intro v i s t xs hi hwf hok CD
  have hplace := hok.streamInPlace hi hwf (u := t) rfl fun r _ => hok.argVal r
  obtain ⟨-, -, -, hstored⟩ := hok.encoder hi
  refine ⟨fun g hg => ?_, fun k hk => ?_, fun a hac had => ?_⟩
  · rw [← hok.argVal .ctrlBase]
    exact Memory.read_of_bytes_eq hplace.ctrl hg
  · rw [← hok.argVal .dataBase]
    exact Memory.read_of_bytes_eq hplace.data hk
  · rw [hstored, writeStream, Memory.read_writeBytes_outside _ _ _ _ had, Memory.read_writeBytes_outside _ _ _ _ hac]

/-- Settles O37. -/
theorem decodeCommandsComplete : Obligations.DecodeCommandsComplete := by
  intro v i s hi hready n hval hctrl hdata
  obtain ⟨hkept, herrors, hform⟩ := decode_parts hi s
  rw [exec_of_errorSet_nil hready hkept (herrors.trans (decodeErrors_of_fits hval hctrl hdata rfl)), hform]
  rfl

/-- Settles O38. -/
theorem decodersStoreExactlyTheValues : Obligations.DecodersStoreExactlyTheValues := by
  intro v i s t xs hi hwf hok
  obtain ⟨hlen, hfits, hstored⟩ := hok.decoder hi
  rw [← hlen]
  refine ⟨valElems_writeVals hwf hfits hstored (hok.argVal .valBase), fun a ha => ?_⟩
  rw [hstored, writeVals, Memory.read_writeBytes_outside]
  simpa [List.length_flatMap] using ha

/-- Settles O39. -/
theorem encodeDeltasCompletes : Obligations.EncodeDeltasCompletes := by
  intro v s hready n xs CD hseed hval hmono hctrl hdata
  have hxs : deltaInput v s = xs := deltaInput_eq hval
  have hCD : deltaStream v s = CD := deltaStream_eq hval
  have hread : (s.argVal .seed :: deltaInput v s).Pairwise (· ≤ ·) := by rwa [hxs]
  have hkept : ¬contractBroken (.encodeDeltas v) s := fun ⟨_, hbroken⟩ => hbroken hread
  have hE : errorSet (.encodeDeltas v) s = [] :=
    (encodeErrors_eq_nil _ _ _ _ _).mpr ⟨hval, hctrl, fun _ => hCD ▸ hdata, overflow_of_fits hseed⟩
  rw [exec_of_errorSet_nil hready hkept hE, completed, resultValues, storedMemory, length_deltaStream_ctrl hval, hCD, hxs,
    s.complete_deltas]
  rfl

/-- Settles O40. -/
theorem decodeDeltasCompletes : Obligations.DecodeDeltasCompletes := by
  intro v s hready n seed ds hseed hval hctrl hdata hsum
  have hds : skippedDeltas v s = ds := skippedDeltas_of_there (truncated_eq_false.mpr ⟨hctrl, hdata⟩)
  have hE : errorSet (.decodeDeltas v) s = [] := decodeErrors_of_fits hval hctrl hdata (overflow_of_fits hseed)
  rw [exec_of_errorSet_nil hready (deltas_contract_kept hsum) hE, completed, resultValues, storedMemory, hds,
    s.complete_deltas]
  rfl

/-- Settles O41: SKIP_DELTAS has the contract of DECODE_DELTAS. -/
theorem skipDeltasCompletes : Obligations.SkipDeltasCompletes := by
  intro v s hready n seed ds hseed hctrl hdata hsum
  have hthere := truncated_eq_false.mpr ⟨hctrl, hdata⟩
  have hds : skippedDeltas v s = ds := skippedDeltas_of_there hthere
  have hE : errorSet (.skipDeltas v) s = [] := (errIf_eq_nil _ _ _).mpr ⟨hthere, overflow_of_fits hseed⟩
  rw [exec_of_errorSet_nil hready (deltas_contract_kept hsum) hE, completed, resultValues, storedMemory, hds,
    s.complete_skip, s.complete_deltas]
  rfl

/-- Settles O47: the stream ENCODE wrote stands in the regions the decoders read, so they decode the values it read. -/
theorem encodeThenDecodeRestoresValues : Obligations.EncodeThenDecodeRestoresValues := by
  intro v i s t base len hi hwf hencode hready hlen
  have hsource : IsEncoderOf v s (.encode v) (valElems v s (s.argVal .n)) := .inl ⟨rfl, rfl⟩
  have hother {r : ArgReg} (hr : r ∉ valArgs) : (withValRegion t base len).argVal r = s.argVal r := by
    rw [withValRegion_argVal t base len hr, hencode.argVal]
  have hplace : StreamInPlace (encodeStream v (valElems v s (s.argVal .n))) (withValRegion t base len) :=
    hencode.streamInPlace hsource hwf rfl fun r hr =>
      hother ((by decide : ∀ r ∈ ctrlArgs ++ dataArgs, r ∉ valArgs) r hr)
  have hn : (withValRegion t base len).argVal .n = (valElems v s (s.argVal .n)).length := by
    rw [hother (by decide), length_valElems]
  have hdecode := hplace.decodeStream_eq fun _ => valElems_lt
  have hdecoder : IsDecoderOf v (withValRegion t base len) i (valElems v s (s.argVal .n)) :=
    .inl ⟨hi, by rw [hn, hdecode]⟩
  obtain ⟨hkept, herrors, hform⟩ := decode_parts hi (withValRegion t base len)
  have hE : errorSet i (withValRegion t base len) = [] := herrors.trans <|
    (decodeErrors_eq_nil _ _ _ _).mpr ⟨(hother (by decide)).trans_le hlen, by rw [hn]; exact hplace.not_truncated, rfl⟩
  have hok := endsOk_completed hready hkept hE hencode.2.1
  obtain ⟨-, hfits, hmem⟩ := hok.decoder hdecoder
  have hwf' : (withValRegion t base len).mem.wf = true := (exec_changesWithin hencode.1).wf hwf
  have hvals := valElems_writeVals hwf' hfits hmem (hok.argVal .valBase)
  rw [length_valElems] at hvals
  obtain ⟨hctrl, hdata⟩ := hencode.encode_results
  refine ⟨_, hok, hvals, ?_, ?_⟩
  · rw [hdata, ← hplace.segLen_eq, ← hn, hform]
    rfl
  · rw [hctrl, ← hother (r := .n) (by decide), hform]
    rfl

/-- Settles O49: SKIP_DELTAS uses fewer registers and regions than DECODE_DELTAS, has its contract and only its errors, and gives
the same results. -/
theorem skipMatchesDecodeDeltas : Obligations.SkipMatchesDecodeDeltas := by
  intro v s t hok
  obtain ⟨hready, hkept, hE, rfl⟩ := hok.completed
  obtain ⟨-, hthere, hwide⟩ := (decodeErrors_eq_nil _ _ _ _).mp hE
  have hskip : errorSet (.skipDeltas v) s = [] := (errIf_eq_nil _ _ _).mpr ⟨hthere, hwide⟩
  refine ⟨_, endsOk_completed hready.skipDeltas hkept hskip hok.2.1, ?_⟩
  rw [completed, completed, resultValues, resultValues, s.complete_skip, s.complete_deltas, s.complete_deltas]
  exact ⟨rfl, rfl, rfl, rfl⟩

end Sys2Proof.Machine
end
